-- ==== Sys2Proof/Word.lean ====
section
/-! DEFINITION. The word types of the core (00_scope.md R8, R10): bytes, 32-bit words and 72-bit
command descriptors. All arithmetic on them is `BitVec`'s own arithmetic modulo `2^w`, which is the
"mod 2^32" of R10; rotations and byte-order functions stand in `Machine/Operands.lean`. -/

namespace Sys2Proof

/-- A byte (R8). -/
abbrev Byte := BitVec 8

/-- A 32-bit word: hash state words, schedule words, subkeys, table entries (R7 `WORD`, R10). -/
abbrev Word := BitVec 32

/-- A 72-bit command descriptor (R90). -/
abbrev Desc := BitVec 72

/-- Eight hash state words `H[0..7]` (R23). -/
abbrev HashWords := Vector Word 8

end Sys2Proof
end

