-- ==== Sys2Proof/Config.lean ====
section
/-! DEFINITION. What is fixed for the machine and what the spec leaves open. The parameters are those
of 00_scope.md R7 that rules name; none of them is open. The `opaque` functions are the FREE VALUES:
values the spec calls unspecified (10_state.md R41, R42; assumption log 2 to 5). They have no body, so
nothing can be proved of them, and a theorem that mentions one holds whatever its value is. -/

namespace Sys2Proof.Config

/-- `LIMIT` (R7): the byte ceiling; a byte total must stay strictly below it (R220). -/
def limit : Nat := 2 ^ 61

/-- The variant sizes `V` of the three TF.KEY opcodes in bytes (R7 `TF_KEYLEN`, R174). -/
def keyBytes128 : Nat := 16
/-- `V` of `TF.KEY192` (R176). -/
def keyBytes192 : Nat := 24
/-- `V` of `TF.KEY256` (R177). -/
def keyBytes256 : Nat := 32

/-- The value of 32-bit element `elem` after the `draw`-th event that left elements unspecified.
Elements are numbered `RH` 0..7, `BH` 8..15, `SK` 16..55, `SB[j][x]` 56 + 256j + x. -/
opaque freeWord (draw elem : Nat) : Word

/-- The value of byte element `elem` after the `draw`-th such event.
Elements are numbered `BBUF` 0..63, `DIGEST` 64..95, `BLKOUT` 96..111. -/
opaque freeByte (draw elem : Nat) : Byte

/-- The value of counter `elem` (`RCNT` 0, `BCNT` 1) after the `draw`-th such event. -/
opaque freeCount (draw elem : Nat) : BitVec 64

/-- The value of `BLEN` after the `draw`-th such event. -/
opaque freeLen (draw : Nat) : BitVec 6

end Sys2Proof.Config
end

