-- ==== Sys2Proof/Syntax.lean ====
section
/-! DEFINITION. The twelve commands (30_encoding.md R92), as 30_encoding.md R100 decodes them: a
format L command carries its `LEN` field, the only operand field there is (R93); formats Z and B have a
fixed `LEN` and carry nothing (R91). The payload bytes belong to the host's presentation of the command
(R94) and are not part of the instruction. -/

namespace Sys2Proof

/-- A command of the core: one constructor per row of spec/opcode_table.json. -/
inductive Instr where
  /-- `SHA.INIT` (R125). -/
  | shaInit
  /-- `SHA.UPDATE` (R126). -/
  | shaUpdate (len : BitVec 64)
  /-- `SHA.FINISH` (R128). -/
  | shaFinish (len : BitVec 64)
  /-- `SHA.HASH` (R141). -/
  | shaHash (len : BitVec 64)
  /-- `SHAB.INIT` (R150). -/
  | shabInit
  /-- `SHAB.UPDATE` (R151). -/
  | shabUpdate (len : BitVec 64)
  /-- `SHAB.FINISH` (R152). -/
  | shabFinish (len : BitVec 64)
  /-- `TF.KEY128` (R175). -/
  | tfKey128 (len : BitVec 64)
  /-- `TF.KEY192` (R176). -/
  | tfKey192 (len : BitVec 64)
  /-- `TF.KEY256` (R177). -/
  | tfKey256 (len : BitVec 64)
  /-- `TF.ENC` (R198). -/
  | tfEnc
  /-- `TF.DEC` (R200). -/
  | tfDec
  deriving DecidableEq, Repr

end Sys2Proof
end

