-- ==== Sys2Proof/WellFormed.lean ====
section
/-! DEFINITION. When a command is well formed (30_encoding.md R94): "a command is the pair (descriptor,
payload) and is well formed only if the payload has exactly `LEN` bytes". Every `Instr` is the decoding
of a descriptor, so the only check is the payload's length. A payload has a type of its own, which holds
its number of bytes beside them and a proof that the two agree. -/

namespace Sys2Proof

/-- A payload: the bytes `in[0 .. len-1]` (R13) and their number, the `LEN` of the command they belong to
(R93), with the proof R94 speaks of that they are equal. -/
structure Payload where
  /-- The number of bytes. -/
  len : BitVec 64
  /-- The bytes, `in[0]` first (R54). -/
  bytes : List Byte
  /-- There are exactly `len` of them (R94). -/
  whole : bytes.length = len.toNat
  deriving DecidableEq, Repr

/-- The `LEN` field of a command's descriptor (R90, R91): 0 in format Z, 16 in format B. -/
def Instr.payloadLen : Instr → BitVec 64
  | .shaInit => 0
  | .shaUpdate len => len
  | .shaFinish len => len
  | .shaHash len => len
  | .shabInit => 0
  | .shabUpdate len => len
  | .shabFinish len => len
  | .tfKey128 len => len
  | .tfKey192 len => len
  | .tfKey256 len => len
  | .tfEnc => 16
  | .tfDec => 16

/-- A command together with its payload is well formed: the payload has exactly `LEN` bytes (R94). -/
def Instr.wellFormed (i : Instr) (p : Payload) : Bool := p.len == i.payloadLen

/-- No bytes: the payload of a format Z command (R91). -/
def Payload.empty : Payload where
  len := 0
  bytes := []
  whole := rfl

/-- Bytes as a payload: fewer than 2^64 of them, since `LEN` has 64 bits (R93). -/
def Payload.ofBytes (bytes : List Byte) (h : bytes.length < 2 ^ 64) : Payload where
  len := BitVec.ofNat 64 bytes.length
  bytes := bytes
  whole := by rw [BitVec.toNat_ofNat, Nat.mod_eq_of_lt h]

/-- `len` zero bytes. -/
def Payload.zeros (len : BitVec 64) : Payload where
  len := len
  bytes := List.replicate len.toNat 0x00
  whole := List.length_replicate

end Sys2Proof
end

