-- ==== Sys2Proof/Decode.lean ====
section
/-! DEFINITION. Decoding and encoding of the 72-bit descriptor (30_encoding.md R90 to R100): the
decoder, total on any descriptor and rejecting by name; the encoder; the opcode map as data; the
serialised 9-byte form of R96; and which payload belongs to a descriptor (R94). -/

namespace Sys2Proof

/-- Why a descriptor is illegal (R95 (a), (b), (c)). -/
inductive DecodeReject where
  /-- (a) `OP` is none of the twelve opcodes. -/
  | unknownOpcode (op : BitVec 8)
  /-- (b) a format Z opcode with `LEN` other than 0. -/
  | formatZLength (op : BitVec 8) (len : BitVec 64)
  /-- (c) a format B opcode with `LEN` other than 16. -/
  | formatBLength (op : BitVec 8) (len : BitVec 64)
  deriving DecidableEq, Repr

/-- `OP = d[71:64]` (R90). -/
def descOp (d : Desc) : BitVec 8 := d.extractLsb' 64 8

/-- `LEN = d[63:0]`, unsigned, not scaled (R90, R93). -/
def descLen (d : Desc) : BitVec 64 := d.extractLsb' 0 64

/-- The descriptor with the fields `op` and `len` (R90). -/
def makeDesc (op : BitVec 8) (len : BitVec 64) : Desc := op ++ len

/-- A format Z command: `LEN` must be 0 (R91). -/
def decodeFormatZ (i : Instr) (op : BitVec 8) (len : BitVec 64) : Except DecodeReject Instr :=
  if len = 0 then .ok i else .error (.formatZLength op len)

/-- A format B command: `LEN` must be 16 (R91). -/
def decodeFormatB (i : Instr) (op : BitVec 8) (len : BitVec 64) : Except DecodeReject Instr :=
  if len = 16 then .ok i else .error (.formatBLength op len)

/-- The case distinction of R100 on the two fields. -/
def decodeFields (op : BitVec 8) (len : BitVec 64) : Except DecodeReject Instr :=
  if op = 0x10 then decodeFormatZ .shaInit op len
  else if op = 0x11 then .ok (.shaUpdate len)
  else if op = 0x12 then .ok (.shaFinish len)
  else if op = 0x13 then .ok (.shaHash len)
  else if op = 0x20 then decodeFormatZ .shabInit op len
  else if op = 0x21 then .ok (.shabUpdate len)
  else if op = 0x22 then .ok (.shabFinish len)
  else if op = 0x40 then .ok (.tfKey128 len)
  else if op = 0x41 then .ok (.tfKey192 len)
  else if op = 0x42 then .ok (.tfKey256 len)
  else if op = 0x48 then decodeFormatB .tfEnc op len
  else if op = 0x49 then decodeFormatB .tfDec op len
  else .error (.unknownOpcode op)

/-- Decoding of any 72-bit descriptor (R100). -/
def decode (d : Desc) : Except DecodeReject Instr := decodeFields (descOp d) (descLen d)

/-- The opcode of a command (R92). -/
def Instr.opcode : Instr → BitVec 8
  | .shaInit => 0x10
  | .shaUpdate _ => 0x11
  | .shaFinish _ => 0x12
  | .shaHash _ => 0x13
  | .shabInit => 0x20
  | .shabUpdate _ => 0x21
  | .shabFinish _ => 0x22
  | .tfKey128 _ => 0x40
  | .tfKey192 _ => 0x41
  | .tfKey256 _ => 0x42
  | .tfEnc => 0x48
  | .tfDec => 0x49

/-- The descriptor of a command: `{OP, LEN}` (R90, R92). -/
def encode (i : Instr) : Desc := makeDesc i.opcode i.payloadLen

/-- One row of the opcode map: a descriptor `d` selects it when `d & mask = pattern` (R92). -/
structure OpcodeRow where
  mnemonic : String
  pattern : Desc
  mask : Desc
  deriving DecidableEq, Repr

/-- The opcode map as the table of R92 prints it. -/
def opcodeMap : List OpcodeRow := [
  ⟨"SHA.INIT",    0x100000000000000000, 0xFFFFFFFFFFFFFFFFFF⟩,
  ⟨"SHA.UPDATE",  0x110000000000000000, 0xFF0000000000000000⟩,
  ⟨"SHA.FINISH",  0x120000000000000000, 0xFF0000000000000000⟩,
  ⟨"SHA.HASH",    0x130000000000000000, 0xFF0000000000000000⟩,
  ⟨"SHAB.INIT",   0x200000000000000000, 0xFFFFFFFFFFFFFFFFFF⟩,
  ⟨"SHAB.UPDATE", 0x210000000000000000, 0xFF0000000000000000⟩,
  ⟨"SHAB.FINISH", 0x220000000000000000, 0xFF0000000000000000⟩,
  ⟨"TF.KEY128",   0x400000000000000000, 0xFF0000000000000000⟩,
  ⟨"TF.KEY192",   0x410000000000000000, 0xFF0000000000000000⟩,
  ⟨"TF.KEY256",   0x420000000000000000, 0xFF0000000000000000⟩,
  ⟨"TF.ENC",      0x480000000000000010, 0xFFFFFFFFFFFFFFFFFF⟩,
  ⟨"TF.DEC",      0x490000000000000010, 0xFFFFFFFFFFFFFFFFFF⟩]

/-- A descriptor selects a row (R92). -/
def OpcodeRow.selects (row : OpcodeRow) (d : Desc) : Bool := d &&& row.mask == row.pattern

/-- The mnemonic of a command (R92). -/
def Instr.mnemonic : Instr → String
  | .shaInit => "SHA.INIT"
  | .shaUpdate _ => "SHA.UPDATE"
  | .shaFinish _ => "SHA.FINISH"
  | .shaHash _ => "SHA.HASH"
  | .shabInit => "SHAB.INIT"
  | .shabUpdate _ => "SHAB.UPDATE"
  | .shabFinish _ => "SHAB.FINISH"
  | .tfKey128 _ => "TF.KEY128"
  | .tfKey192 _ => "TF.KEY192"
  | .tfKey256 _ => "TF.KEY256"
  | .tfEnc => "TF.ENC"
  | .tfDec => "TF.DEC"

/-- The serialised descriptor: 9 bytes, `OP` first, then `LEN` most significant byte first (R96). -/
def descBytes (d : Desc) : List Byte :=
  [d.extractLsb' 64 8, d.extractLsb' 56 8, d.extractLsb' 48 8, d.extractLsb' 40 8,
   d.extractLsb' 32 8, d.extractLsb' 24 8, d.extractLsb' 16 8, d.extractLsb' 8 8, d.extractLsb' 0 8]

/-- The descriptor that 9 serialised bytes stand for (R96); no other number of bytes is a descriptor
(R90 "exactly 72 bits", R97). -/
def descOfBytes : List Byte → Option Desc
  | [b0, b1, b2, b3, b4, b5, b6, b7, b8] => some (b0 ++ b1 ++ b2 ++ b3 ++ b4 ++ b5 ++ b6 ++ b7 ++ b8)
  | _ => none

/-- The instruction decoded from a descriptor written as opcode_table.json numbers its bits: `OP` is
bits 71..64, `LEN` bits 63..0 of the one 72-bit word (assumption log 11). Bits above `nbits` are 0; a
number that needs more than 72 bits is no descriptor. -/
def decodeTableWord (nbits w : Nat) : Option Instr :=
  let bits := w % 2 ^ nbits
  if bits < 2 ^ 72 then
    match decode (BitVec.ofNat 72 bits) with
    | .ok i => some i
    | .error _ => none
  else none

/-! ### Which payload belongs to a descriptor (R94) -/

@[simp] theorem descOp_makeDesc (op : BitVec 8) (len : BitVec 64) : descOp (makeDesc op len) = op := by
  apply BitVec.eq_of_getLsbD_eq; intro i hi
  simp only [descOp, makeDesc, BitVec.getLsbD_extractLsb', BitVec.getLsbD_append, hi]
  simp [show ¬ 64 + i < 64 by omega, show 64 + i - 64 = i by omega]

@[simp] theorem descLen_makeDesc (op : BitVec 8) (len : BitVec 64) : descLen (makeDesc op len) = len := by
  apply BitVec.eq_of_getLsbD_eq; intro i hi
  simp only [descLen, makeDesc, BitVec.getLsbD_extractLsb', BitVec.getLsbD_append, hi]
  simp [hi]

@[simp] theorem descOp_encode (i : Instr) : descOp (encode i) = i.opcode := by simp [encode]

@[simp] theorem descLen_encode (i : Instr) : descLen (encode i) = i.payloadLen := by simp [encode]

/-- The opcode determines the command up to its length field. -/
theorem decodeFields_opcode (i : Instr) : decodeFields i.opcode i.payloadLen = .ok i := by
  cases i <;> rfl

@[simp] theorem decode_encode (i : Instr) : decode (encode i) = .ok i := by
  rw [decode, descOp_encode, descLen_encode, decodeFields_opcode]

/-- What a descriptor decodes to has that descriptor's fields. -/
theorem encode_of_decodeFields {op : BitVec 8} {len : BitVec 64} {i : Instr}
    (h : decodeFields op len = .ok i) : i.opcode = op ∧ i.payloadLen = len := by
  unfold decodeFields decodeFormatZ decodeFormatB at h
  by_cases h10 : op = 0x10
  · subst h10
    by_cases hl : len = 0
    · subst hl; cases h; exact ⟨rfl, rfl⟩
    · rw [if_pos rfl, if_neg hl] at h; cases h
  rw [if_neg h10] at h
  by_cases h11 : op = 0x11
  · subst h11; cases h; exact ⟨rfl, rfl⟩
  rw [if_neg h11] at h
  by_cases h12 : op = 0x12
  · subst h12; cases h; exact ⟨rfl, rfl⟩
  rw [if_neg h12] at h
  by_cases h13 : op = 0x13
  · subst h13; cases h; exact ⟨rfl, rfl⟩
  rw [if_neg h13] at h
  by_cases h20 : op = 0x20
  · subst h20
    by_cases hl : len = 0
    · subst hl; cases h; exact ⟨rfl, rfl⟩
    · rw [if_pos rfl, if_neg hl] at h; cases h
  rw [if_neg h20] at h
  by_cases h21 : op = 0x21
  · subst h21; cases h; exact ⟨rfl, rfl⟩
  rw [if_neg h21] at h
  by_cases h22 : op = 0x22
  · subst h22; cases h; exact ⟨rfl, rfl⟩
  rw [if_neg h22] at h
  by_cases h40 : op = 0x40
  · subst h40; cases h; exact ⟨rfl, rfl⟩
  rw [if_neg h40] at h
  by_cases h41 : op = 0x41
  · subst h41; cases h; exact ⟨rfl, rfl⟩
  rw [if_neg h41] at h
  by_cases h42 : op = 0x42
  · subst h42; cases h; exact ⟨rfl, rfl⟩
  rw [if_neg h42] at h
  by_cases h48 : op = 0x48
  · subst h48
    by_cases hl : len = 16
    · subst hl; cases h; exact ⟨rfl, rfl⟩
    · rw [if_pos rfl, if_neg hl] at h; cases h
  rw [if_neg h48] at h
  by_cases h49 : op = 0x49
  · subst h49
    by_cases hl : len = 16
    · subst hl; cases h; exact ⟨rfl, rfl⟩
    · rw [if_pos rfl, if_neg hl] at h; cases h
  rw [if_neg h49] at h
  cases h

/-- The command decoded from a descriptor has the descriptor's `LEN`. -/
theorem payloadLen_of_decode {d : Desc} {i : Instr} (h : decode d = .ok i) : i.payloadLen = descLen d :=
  (encode_of_decodeFields h).2

/-- A payload goes with a descriptor: with a legal one if it has exactly `LEN` bytes (R94), with an illegal
one always, since it is ignored there (R95). -/
def presents (d : Desc) (p : Payload) : Bool :=
  match decode d with
  | .ok i => i.wellFormed p
  | .error _ => true

/-- With a legal descriptor goes a payload of `LEN` bytes and no other (R94). -/
theorem presents_of_decode {d : Desc} {i : Instr} (h : decode d = .ok i) (p : Payload) :
    presents d p = i.wellFormed p := by rw [presents, h]

theorem presents_encode {i : Instr} {p : Payload} (h : i.wellFormed p = true) :
    presents (encode i) p = true := by rw [presents_of_decode (decode_encode i), h]

/-- With an illegal descriptor any payload may come (R95). -/
theorem presents_of_illegal {d : Desc} {r : DecodeReject} (h : decode d = .error r) (p : Payload) :
    presents d p = true := by rw [presents, h]

/-- `LEN` zero bytes go with every descriptor. -/
theorem presents_zeros (d : Desc) : presents d (.zeros (descLen d)) = true := by
  cases h : decode d with
  | ok i => rw [presents_of_decode h, Instr.wellFormed, payloadLen_of_decode h]; exact beq_self_eq_true _
  | error r => exact presents_of_illegal h _

/-- The eight commands of format L, whose `LEN` is the number of their payload bytes (R91). -/
inductive FormatL where
  | shaUpdate
  | shaFinish
  | shaHash
  | shabUpdate
  | shabFinish
  | tfKey128
  | tfKey192
  | tfKey256
  deriving DecidableEq, Repr

/-- The command of format L with this `LEN` (R91). -/
def FormatL.instr : FormatL → BitVec 64 → Instr
  | .shaUpdate => .shaUpdate
  | .shaFinish => .shaFinish
  | .shaHash => .shaHash
  | .shabUpdate => .shabUpdate
  | .shabFinish => .shabFinish
  | .tfKey128 => .tfKey128
  | .tfKey192 => .tfKey192
  | .tfKey256 => .tfKey256

/-- In format L, `LEN` is the number of payload bytes, whatever it is (R91, R94). -/
theorem FormatL.wellFormed (op : FormatL) (p : Payload) : (op.instr p.len).wellFormed p = true := by
  cases op <;> exact beq_self_eq_true _

end Sys2Proof
end

