-- ==== Sys2Proof/Machine/State.lean ====
section
/-! DEFINITION. The state of the core (10_state.md R20), the reasons a step can stop, the host's input
events, and the state after reset (10_state.md R40; 70_reset_and_hazards.md R250). -/

namespace Sys2Proof.Machine

/-- A command as the host presents it, whole: the pair of a descriptor and its payload (R90, R94). A pair
whose payload has not exactly `LEN` bytes "is not a command" and cannot be written as one
(93_implementation_defined.md U6, 92_eei_decisions.md D4); with an illegal descriptor, which is presented
to fault, any payload may come (R95). -/
structure Command where
  /-- The 72-bit descriptor (R90). -/
  desc : Desc
  /-- The payload bytes that come with it (R94). -/
  payload : Payload
  /-- They are the bytes of this command (R94). -/
  whole : presents desc payload = true
  deriving DecidableEq, Repr

/-- What the host can do to the core between two commands (R21, R250): present one whole command, or
assert reset. -/
inductive HostEvent where
  /-- A command (R94). -/
  | command (c : Command)
  /-- The reset input event (R250). -/
  | reset
  deriving DecidableEq, Repr

/-- The causes a command can raise (60_exceptions.md R215). A raised cause is recorded in the state by
the fault entry of R222, which is a next state; it is not an outcome `fault` of the model. -/
inductive Cause where
  /-- The descriptor matches no row of the opcode map (R216). -/
  | illegalCmd
  /-- The hash slot the command names holds no live accumulator (R217). -/
  | slotInvalid
  /-- No cipher context has been derived (R218). -/
  | noContext
  /-- `SHA.UPDATE` with a length that is no multiple of 64 (R219). -/
  | lenMisaligned
  /-- The byte total would reach 2^61 (R220). -/
  | limitExceeded
  /-- The key length differs from the opcode's key size (R221). -/
  | keySize
  deriving DecidableEq, Repr

/-- Why the model stops with a fault. -/
inductive Fault where
  /-- Raised by the meaning of every command, before anything else, in a state whose payload field does not
  hold exactly `LEN` bytes. R94: such a pair "is not a command and this spec gives it no meaning"
  (93_implementation_defined.md U6). No step comes to it, since the host cannot present such a pair
  (`Command`). Safe: nothing is claimed of such a pair (assumption log 8). -/
  | payloadMismatch
  deriving DecidableEq, Repr

/-- Why the model has no meaning for an instruction. -/
inductive Refusal where
  /-- Raised only by `exec`'s arms of instructions that have no meaning yet (none in this model). Safe. -/
  | notModelled (mnemonic : String)
  deriving DecidableEq, Repr

/-- The RAW slot: the raw accumulator (R20 unit U1). -/
structure RawSlot where
  /-- `RH[0..7]`, state words (R23). -/
  rh : HashWords
  /-- `RCNT`, processed-byte counter (R24). -/
  rcnt : BitVec 64
  /-- `RVALID`, the slot holds a live accumulator (R27). -/
  rvalid : Bool
  deriving DecidableEq, Repr

/-- The BUF slot: the buffered accumulator (R20 unit U2). -/
structure BufSlot where
  /-- `BH[0..7]`, state words of the embedded raw state (R25). -/
  bh : HashWords
  /-- `BCNT`, flushed-byte counter (R25). -/
  bcnt : BitVec 64
  /-- `BBUF[0..63]`, pending buffer (R26). -/
  bbuf : Vector Byte 64
  /-- `BLEN`, number of valid bytes in `BBUF` (R26). -/
  blen : BitVec 6
  /-- `BVALID`, the slot holds a live accumulator (R27). -/
  bvalid : Bool
  deriving DecidableEq, Repr

/-- The cipher context CTX (R20 units U3, U4). -/
structure CipherContext where
  /-- `SB[0..3][0..255]`, the combined S-box tables (R28). -/
  sb : Vector (Vector Word 256) 4
  /-- `SK[0..39]`, the subkeys (R29). -/
  sk : Vector Word 40
  /-- `CVALID`, `SB` and `SK` hold a context (R30). -/
  cvalid : Bool
  deriving DecidableEq, Repr

/-- The output register of the hash units (R31). -/
structure DigestReg where
  /-- `DIGEST[0..31]`, the last digest produced. -/
  digest : Vector Byte 32
  /-- `DVALID`, `DIGEST` holds a digest. -/
  dvalid : Bool
  deriving DecidableEq, Repr

/-- The output register of the cipher unit (R32). -/
structure BlockReg where
  /-- `BLKOUT[0..15]`, the last cipher block produced. -/
  blkout : Vector Byte 16
  /-- `OVALID`, `BLKOUT` holds a block. -/
  ovalid : Bool
  deriving DecidableEq, Repr

/-- The fault registers (R34). -/
structure FaultRegs where
  /-- `FAULTED`, the sticky fault bit. -/
  faulted : Bool
  /-- `CAUSE`, the cause code of the recorded fault. -/
  cause : BitVec 8
  /-- `FCMD`, the descriptor of the faulting command. -/
  fcmd : Desc
  deriving DecidableEq, Repr

/-- The state of the core. The fields down to `flt` are the complete architectural state of R20; the
last three are the model's own (assumption log 5, 6, 7). -/
structure State where
  /-- `RH`, `RCNT`, `RVALID`. -/
  raw : RawSlot
  /-- `BH`, `BCNT`, `BBUF`, `BLEN`, `BVALID`. -/
  buf : BufSlot
  /-- `SB`, `SK`, `CVALID`. -/
  ctx : CipherContext
  /-- `DIGEST`, `DVALID`. -/
  dig : DigestReg
  /-- `BLKOUT`, `OVALID`. -/
  blk : BlockReg
  /-- `FAULTED`, `CAUSE`, `FCMD`. -/
  flt : FaultRegs
  /-- Model: the host events still to come, first one next (assumption log 6). -/
  input : List HostEvent
  /-- Model: the payload `in[0..LEN-1]` of the command being executed (R13); empty between commands
  (assumption log 7). -/
  payload : Payload
  /-- Model: how many times elements have become unspecified so far (assumption log 5). -/
  draws : Nat
  deriving DecidableEq, Repr

/-- The machine right after reset (R40): the six flag bits, `CAUSE` and `FCMD` are 0 by R40. The data
words, which R40 leaves unspecified, are 0 by DESIGN CHOICE (assumption log 1); every one of them is
guarded by a flag that is 0 here (R41). Nothing is presented by the host yet. -/
def State.reset : State where
  raw := { rh := Vector.replicate 8 0, rcnt := 0, rvalid := false }
  buf := { bh := Vector.replicate 8 0, bcnt := 0, bbuf := Vector.replicate 64 0, blen := 0, bvalid := false }
  ctx := { sb := Vector.replicate 4 (Vector.replicate 256 0), sk := Vector.replicate 40 0, cvalid := false }
  dig := { digest := Vector.replicate 32 0, dvalid := false }
  blk := { blkout := Vector.replicate 16 0, ovalid := false }
  flt := { faulted := false, cause := 0, fcmd := 0 }
  input := []
  payload := .empty
  draws := 0

end Sys2Proof.Machine
end

