-- ==== Sys2Proof/Machine/Flags.lean ====
section
/-! DEFINITION. The flag bits and the two read-only status registers (10_state.md R27, R33, R34), the
cause codes (60_exceptions.md R215), and the tests that the preconditions of the commands make
(60_exceptions.md R217 to R221). The core has no arithmetic condition codes (R27). -/

namespace Sys2Proof.Machine

/-- The numeric code of a cause (R215); 0 means none. -/
def Cause.code : Cause → BitVec 8
  | .illegalCmd => 1
  | .slotInvalid => 2
  | .noContext => 3
  | .lenMisaligned => 4
  | .limitExceeded => 5
  | .keySize => 6

/-- The `STATUS` register (R33): bit 0 `RVALID`, 1 `BVALID`, 2 `CVALID`, 3 `DVALID`, 4 `OVALID`,
5 `FAULTED`, bits 7:6 hardwired 0. -/
def State.status (s : State) : BitVec 8 :=
  0#2 ++ BitVec.ofBool s.flt.faulted ++ BitVec.ofBool s.blk.ovalid ++ BitVec.ofBool s.dig.dvalid ++
    BitVec.ofBool s.ctx.cvalid ++ BitVec.ofBool s.buf.bvalid ++ BitVec.ofBool s.raw.rvalid

/-- The `FAULT` register (R34): bits 7:0 `CAUSE`, bits 79:8 `FCMD`. -/
def State.faultReg (s : State) : BitVec 80 := s.flt.fcmd ++ s.flt.cause

/-- The two host-readable status registers (R33, R34). -/
inductive StatusReg where
  | status
  | fault
  deriving DecidableEq, Repr

/-- Their register numbers: labels of the host's read port, not addresses (R33, R34). -/
def StatusReg.number : StatusReg → Nat
  | .status => 0
  | .fault => 1

/-- What the host reads from a status register; a read changes nothing (R33, R34). -/
def StatusReg.read : StatusReg → State → BitVec 80
  | .status, s => s.status.setWidth 80
  | .fault, s => s.faultReg

/-- How a command ends (30_encoding.md R102). -/
inductive Response where
  /-- Its rule ran to the end; `FAULTED` is still 0. -/
  | done
  /-- It raised a fault; only the fault registers changed. -/
  | fault
  /-- `FAULTED` was already 1; nothing changed. -/
  | refused
  deriving DecidableEq, Repr

/-- The response to a command, which the host tells from `FAULTED` before and after it (R102). -/
def responseOf (before after : State) : Response :=
  if before.flt.faulted then .refused else if after.flt.faulted then .fault else .done

/-- A byte total reaches the ceiling, in unbounded integers (R220, R93). -/
def reachesLimit (total : Nat) : Bool := decide (Config.limit ≤ total)

/-- `64 * floor((BLEN + LEN) / 64)`: the bytes a `SHAB.UPDATE` flushes (R151, R220). -/
def flushedBytes (blen len : Nat) : Nat := 64 * ((blen + len) / 64)

/-- `LEN mod 64 != 0` (R219). -/
def misaligned (len : Nat) : Bool := len % 64 != 0

/-- The first test that holds raises its cause: the order of the list is the priority of R224. -/
def firstRaised : List (Bool × Cause) → Option Cause
  | [] => none
  | (holds, c) :: rest => if holds then some c else firstRaised rest

end Sys2Proof.Machine
end

