-- ==== Sys2Proof/Machine/Operands.lean ====
section
/-! DEFINITION. Operand forms: the word operators of 00_scope.md R10, the byte lanes of R9, the byte
strings and byte-order conversions of R11 (used as 20_memory.md R50, R51 and R64 say), the field
multiplication of R15, and how fixed-size arrays are filled. -/

namespace Sys2Proof.Machine

/-- `ROTR(x, n)`, 0 < n < 32 (R10). -/
def rotr (x : Word) (n : Nat) : Word := (x >>> n) ||| (x <<< (32 - n))

/-- `ROTL(x, n)`, 0 < n < 32 (R10). -/
def rotl (x : Word) (n : Nat) : Word := (x <<< n) ||| (x >>> (32 - n))

/-- Byte lane `j` of a word, `bj(x) = x[8j+7:8j]`; lane 0 is the least significant (R9, R51). -/
def lane (j : Nat) (x : Word) : Byte := x.extractLsb' (8 * j) 8

/-- `{b3, b2, b1, b0}`: the word with byte `bj` in lane `j` (R9). -/
def wordOfLanes (b0 b1 b2 b3 : Byte) : Word := b3 ++ b2 ++ b1 ++ b0

/-- `s[i]`, byte `i` of a byte string (R11). No rule reads beyond the end of a string (R13); the value
there is never used. -/
def byteAt (s : List Byte) (i : Nat) : Byte := s.getD i 0

/-- `BE32(s, i)`: big-endian, `s[i]` is bits 31..24 (R11, R50). -/
def BE32 (s : List Byte) (i : Nat) : Word :=
  wordOfLanes (byteAt s (i + 3)) (byteAt s (i + 2)) (byteAt s (i + 1)) (byteAt s i)

/-- `LE32(s, i)`: little-endian, `s[i]` is bits 7..0 (R11, R51). -/
def LE32 (s : List Byte) (i : Nat) : Word :=
  wordOfLanes (byteAt s i) (byteAt s (i + 1)) (byteAt s (i + 2)) (byteAt s (i + 3))

/-- `be32(x)`: most significant byte first (R11). -/
def be32 (x : Word) : List Byte := [lane 3 x, lane 2 x, lane 1 x, lane 0 x]

/-- `le32(x)`: least significant byte first (R11). -/
def le32 (x : Word) : List Byte := [lane 0 x, lane 1 x, lane 2 x, lane 3 x]

/-- `be64(v)`, most significant byte first, for `v < 2^64` (R11). -/
def be64 (v : Nat) : List Byte :=
  let x := BitVec.ofNat 64 v
  [x.extractLsb' 56 8, x.extractLsb' 48 8, x.extractLsb' 40 8, x.extractLsb' 32 8,
   x.extractLsb' 24 8, x.extractLsb' 16 8, x.extractLsb' 8 8, x.extractLsb' 0 8]

/-- `zeros(n)`: `n` bytes of 0x00 (R11). -/
def zeros (n : Nat) : List Byte := List.replicate n 0

/-- `s[i..j]`: bytes `i` to `j-1` (R11). -/
def slice (s : List Byte) (i j : Nat) : List Byte := (s.drop i).take (j - i)

/-- The array whose element `i` is `f i`: "for i = 0 .. n-1: A[i] <- f(i)" (R12). -/
def tabulate {α : Type} (n : Nat) (f : Nat → α) : Vector α n :=
  ⟨((List.range n).map f).toArray, by simp⟩

/-- An array of bytes filled from a byte string: "for i = 0 .. n-1: A[i] <- s[i]" (R13, R64). -/
def bytesToVector (n : Nat) (s : List Byte) : Vector Byte n := tabulate n (byteAt s)

/-- One step of `gfmul`'s loop: add `a` if the current bit of `b` is 1, then double `a` modulo `P` (R15). -/
def gfmulLoop (P : BitVec 9) : Nat → BitVec 9 → Byte → BitVec 9 → BitVec 9
  | 0, _, _, r => r
  | n + 1, a, b, r =>
    let r' := if b.getLsbD 0 then r ^^^ a else r
    let a' := a <<< 1
    let a'' := if a'.getLsbD 8 then a' ^^^ P else a'
    gfmulLoop P n a'' (b >>> 1) r'

/-- `gfmul(a, b, P)`: product of two bytes as polynomials over GF(2) modulo `P` (R15). -/
def gfmul (a b : Byte) (P : BitVec 9) : Byte := (gfmulLoop P 8 (a.setWidth 9) b 0).setWidth 8

/-- `P_MDS = 0x169` (R15). -/
def polyMDS : BitVec 9 := 0x169

/-- `P_RS = 0x14D` (R15). -/
def polyRS : BitVec 9 := 0x14D

end Sys2Proof.Machine
end

