-- ==== Sys2Proof/Machine/Ops.lean ====
section
/-! DEFINITION. The operations the commands share: fault entry (60_exceptions.md R222), the course every
command takes (refusal, tests in priority order, payload, effect: R223 to R225), elements that become
unspecified (10_state.md R41, R42), the pending buffer (R26), the output registers (R31, R32), the
reset event (70_reset_and_hazards.md R250), how a whole command is put together (R94), and accepting and
retiring one (R94, R37). -/

namespace Sys2Proof.Machine

/-- Fault entry with cause `c` for the command with descriptor `d` (R222): "Nothing else changes". -/
def State.enterFault (s : State) (c : Cause) (d : Desc) : State :=
  { s with flt := { faulted := true, cause := c.code, fcmd := d } }

/-- The course of every legal command `i`.
With a payload that has not exactly `LEN` bytes it is no command and has no meaning (R94; assumption
log 8).
While `FAULTED = 1` it is refused and changes nothing (R225).
Otherwise the first of its `tests` that holds raises its cause (R224) before anything is written
(R14, R223).
Otherwise its effect happens. -/
def runCommand (i : Instr) (tests : List (Bool × Cause)) (effect : List Byte → State → State)
    (s : State) : Host.Outcome State Fault Refusal :=
  if i.wellFormed s.payload then
    if s.flt.faulted then .next s
    else match firstRaised tests with
      | some c => .next (s.enterFault c (encode i))
      | none => .next (effect s.payload.bytes s)
  else .fault .payloadMismatch

/-- An illegal descriptor raises `ILLEGAL_CMD`, unless the core is faulted and refuses it; its payload is
ignored (R95, R216, R225). -/
def runIllegal (d : Desc) (s : State) : Host.Outcome State Fault Refusal :=
  if s.flt.faulted then .next s else .next (s.enterFault .illegalCmd d)

/-- Bytes written into the pending buffer from index `start` on: "for i: BBUF[start + i] <- bytes[i]"
(R64, R151). -/
def fillBuffer (buf : Vector Byte 64) (start : Nat) : List Byte → Vector Byte 64
  | [] => buf
  | b :: rest => fillBuffer (buf.setIfInBounds start b) (start + 1) rest

/-- `BBUF[0 .. BLEN]`: the valid bytes of the pending buffer, in message order (R26). -/
def BufSlot.pending (b : BufSlot) : List Byte := b.bbuf.toList.take b.blen.toNat

/-- A pending buffer with unspecified contents (R26; assumption log 4). -/
def freeBuffer (draw : Nat) : Vector Byte 64 := tabulate 64 (Config.freeByte draw)

/-- A RAW slot with unspecified words that holds no accumulator (R42, R40; assumption log 2, 3). -/
def freeRaw (draw : Nat) : RawSlot where
  rh := tabulate 8 (Config.freeWord draw)
  rcnt := Config.freeCount draw 0
  rvalid := false

/-- A BUF slot with unspecified words and bytes that holds no accumulator (R42, R40; assumption log 2,
3). -/
def freeBuf (draw : Nat) : BufSlot where
  bh := tabulate 8 fun i => Config.freeWord draw (8 + i)
  bcnt := Config.freeCount draw 1
  bbuf := freeBuffer draw
  blen := Config.freeLen draw
  bvalid := false

/-- Unspecified tables and subkeys that are no context (R40; assumption log 2). -/
def freeContext (draw : Nat) : CipherContext where
  sb := tabulate 4 fun j => tabulate 256 fun x => Config.freeWord draw (56 + 256 * j + x)
  sk := tabulate 40 fun i => Config.freeWord draw (16 + i)
  cvalid := false

/-- A digest register with unspecified bytes that holds no digest (R40; assumption log 2). -/
def freeDigest (draw : Nat) : DigestReg where
  digest := tabulate 32 fun i => Config.freeByte draw (64 + i)
  dvalid := false

/-- A block register with unspecified bytes that holds no block (R40; assumption log 2). -/
def freeBlock (draw : Nat) : BlockReg where
  blkout := tabulate 16 fun i => Config.freeByte draw (96 + i)
  ovalid := false

/-- `SHA.FINISH` consumes the RAW slot: `RVALID <- 0`, its words become unspecified (R42, R128). -/
def State.consumeRaw (s : State) : State := { s with raw := freeRaw s.draws, draws := s.draws + 1 }

/-- `SHAB.FINISH` consumes the BUF slot: `BVALID <- 0`, its words become unspecified (R42, R152). -/
def State.consumeBuf (s : State) : State := { s with buf := freeBuf s.draws, draws := s.draws + 1 }

/-- The reset event (R250): the six flag bits, `CAUSE` and `FCMD` become 0, every other state element
becomes unspecified. -/
def State.resetEvent (s : State) : State :=
  { s with
    raw := freeRaw s.draws
    buf := freeBuf s.draws
    ctx := freeContext s.draws
    dig := freeDigest s.draws
    blk := freeBlock s.draws
    flt := { faulted := false, cause := 0, fcmd := 0 }
    draws := s.draws + 1 }

/-- A digest is put out: all 32 bytes and `DVALID` together (R31, R65). -/
def State.putDigest (s : State) (d : List Byte) : State :=
  { s with dig := { digest := bytesToVector 32 d, dvalid := true } }

/-- A cipher block is put out: all 16 bytes and `OVALID` together (R32, R65). -/
def State.putBlock (s : State) (b : List Byte) : State :=
  { s with blk := { blkout := bytesToVector 16 b, ovalid := true } }

/-- A command is accepted from the port: its payload becomes `in` (R13, R54), the events after it stay. -/
def State.accept (s : State) (payload : Payload) (rest : List HostEvent) : State :=
  { s with payload := payload, input := rest }

/-- The payload of a command that has ended is gone (R36, R37); nothing else changes. -/
def State.dropPayload (s : State) : State := { s with payload := .empty }

/-- A command has ended: whatever it answered, no payload stays behind in a next state (R36, R37). -/
def retire : Host.Outcome State Fault Refusal → Host.Outcome State Fault Refusal
  | .next s => .next s.dropPayload
  | .fault r => .fault r
  | .refused r => .refused r

/-- The command `i` with its payload (R94). -/
def Command.ofInstr (i : Instr) (p : Payload) (h : i.wellFormed p = true) : Command where
  desc := encode i
  payload := p
  whole := presents_encode h

/-- The command of format L on these bytes: the payload's length is its `LEN` (R91, R94). -/
def Command.withData (op : FormatL) (p : Payload) : Command := .ofInstr (op.instr p.len) p (op.wellFormed p)

/-- The command with this descriptor and `LEN` zero bytes. -/
def Command.zeros (d : Desc) : Command where
  desc := d
  payload := .zeros (descLen d)
  whole := presents_zeros d

/-- The command that a descriptor and a payload are, if they are one (R94, R95). -/
def Command.ofPair (d : Desc) (p : Payload) : Option Command :=
  if h : presents d p = true then some { desc := d, payload := p, whole := h } else none

/-- A command descriptor whose bits above `nbits` are 0, as the host presents it: with a payload of
exactly `LEN` zero bytes (R94; assumption log 10). -/
def presentWord (nbits w : Nat) : HostEvent := .command (.zeros (BitVec.ofNat 72 (w % 2 ^ nbits)))

end Sys2Proof.Machine
end

