-- ==== Sys2Proof/Machine/Rom.lean ====
section
/-! DEFINITION. The constant ROMs (20_memory.md R59 to R63). They never change (R71), so they are
definitions and not state (10_state.md R37). -/

namespace Sys2Proof.Machine

/-- `IV[0..7]` (R59). -/
def IV : HashWords := #v[
  0x6a09e667, 0xbb67ae85, 0x3c6ef372, 0xa54ff53a, 0x510e527f, 0x9b05688c, 0x1f83d9ab, 0x5be0cd19]

/-- `K[0..63]` (R60), eight to a line as the rule prints them. -/
def roundConstants : List Word :=
  [0x428a2f98, 0x71374491, 0xb5c0fbcf, 0xe9b5dba5, 0x3956c25b, 0x59f111f1, 0x923f82a4, 0xab1c5ed5] ++
  [0xd807aa98, 0x12835b01, 0x243185be, 0x550c7dc3, 0x72be5d74, 0x80deb1fe, 0x9bdc06a7, 0xc19bf174] ++
  [0xe49b69c1, 0xefbe4786, 0x0fc19dc6, 0x240ca1cc, 0x2de92c6f, 0x4a7484aa, 0x5cb0a9dc, 0x76f988da] ++
  [0x983e5152, 0xa831c66d, 0xb00327c8, 0xbf597fc7, 0xc6e00bf3, 0xd5a79147, 0x06ca6351, 0x14292967] ++
  [0x27b70a85, 0x2e1b2138, 0x4d2c6dfc, 0x53380d13, 0x650a7354, 0x766a0abb, 0x81c2c92e, 0x92722c85] ++
  [0xa2bfe8a1, 0xa81a664b, 0xc24b8b70, 0xc76c51a3, 0xd192e819, 0xd6990624, 0xf40e3585, 0x106aa070] ++
  [0x19a4c116, 0x1e376c08, 0x2748774c, 0x34b0bcb5, 0x391c0cb3, 0x4ed8aa4a, 0x5b9cca4f, 0x682e6ff3] ++
  [0x748f82ee, 0x78a5636f, 0x84c87814, 0x8cc70208, 0x90befffa, 0xa4506ceb, 0xbef9a3f7, 0xc67178f2]

/-- `K[t]` (R60), read for `t` in 0..63 only. -/
def K (t : Nat) : Word := roundConstants.getD t 0

/-- `ROR4(v, 1)`: a 4-bit value rotated right by one bit (R61). -/
def ror4 (v : BitVec 4) : BitVec 4 := (v >>> 1) ||| (v <<< 3)

/-- The four 4-bit tables `t0..t3` that a byte permutation is built from (R61). -/
structure NibbleTables where
  t0 : List (BitVec 4)
  t1 : List (BitVec 4)
  t2 : List (BitVec 4)
  t3 : List (BitVec 4)
  deriving DecidableEq, Repr

/-- The construction procedure `q(x)` of R61. -/
def qPerm (t : NibbleTables) (x : Byte) : Byte :=
  let a0 : BitVec 4 := x.extractLsb' 4 4
  let b0 : BitVec 4 := x.extractLsb' 0 4
  let a1 := a0 ^^^ b0
  let b1 := a0 ^^^ ror4 b0 ^^^ (a0 <<< 3)
  let a2 := t.t0.getD a1.toNat 0
  let b2 := t.t1.getD b1.toNat 0
  let a3 := a2 ^^^ b2
  let b3 := a2 ^^^ ror4 b2 ^^^ (a2 <<< 3)
  let a4 := t.t2.getD a3.toNat 0
  let b4 := t.t3.getD b3.toNat 0
  b4 ++ a4

/-- The 4-bit tables of `Q0` (R61). -/
def tablesQ0 : NibbleTables where
  t0 := [0x8, 0x1, 0x7, 0xD, 0x6, 0xF, 0x3, 0x2, 0x0, 0xB, 0x5, 0x9, 0xE, 0xC, 0xA, 0x4]
  t1 := [0xE, 0xC, 0xB, 0x8, 0x1, 0x2, 0x3, 0x5, 0xF, 0x4, 0xA, 0x6, 0x7, 0x0, 0x9, 0xD]
  t2 := [0xB, 0xA, 0x5, 0xE, 0x6, 0xD, 0x9, 0x0, 0xC, 0x8, 0xF, 0x3, 0x2, 0x4, 0x7, 0x1]
  t3 := [0xD, 0x7, 0xF, 0x4, 0x1, 0x2, 0x6, 0xE, 0x9, 0xB, 0x3, 0x0, 0x8, 0x5, 0xC, 0xA]

/-- The 4-bit tables of `Q1` (R61). -/
def tablesQ1 : NibbleTables where
  t0 := [0x2, 0x8, 0xB, 0xD, 0xF, 0x7, 0x6, 0xE, 0x3, 0x1, 0x9, 0x4, 0x0, 0xA, 0xC, 0x5]
  t1 := [0x1, 0xE, 0x2, 0xB, 0x4, 0xC, 0x3, 0x7, 0x6, 0xD, 0xA, 0x5, 0xF, 0x9, 0x0, 0x8]
  t2 := [0x4, 0xC, 0x7, 0x5, 0x1, 0x6, 0x9, 0xA, 0x0, 0xE, 0xD, 0x8, 0x2, 0xB, 0x3, 0xF]
  t3 := [0xB, 0x9, 0x5, 0x1, 0xC, 0x3, 0xD, 0xE, 0x6, 0x4, 0x7, 0xF, 0x2, 0x0, 0x8, 0xA]

/-- `Q0[x]` (R61). -/
def Q0 (x : Byte) : Byte := qPerm tablesQ0 x

/-- `Q1[x]` (R61). -/
def Q1 (x : Byte) : Byte := qPerm tablesQ1 x

/-- The rows of `MDS` (R62). -/
def mdsRows : List (List Byte) := [
  [0x01, 0xEF, 0x5B, 0x5B],
  [0x5B, 0xEF, 0xEF, 0x01],
  [0xEF, 0x5B, 0x01, 0xEF],
  [0xEF, 0x01, 0xEF, 0x5B]]

/-- `MDS[i][j]`, row `i`, column `j` (R62). -/
def MDS (i j : Nat) : Byte := (mdsRows.getD i []).getD j 0

/-- The rows of `RS` (R63). -/
def rsRows : List (List Byte) := [
  [0x01, 0xA4, 0x55, 0x87, 0x5A, 0x58, 0xDB, 0x9E],
  [0xA4, 0x56, 0x82, 0xF3, 0x1E, 0xC6, 0x68, 0xE5],
  [0x02, 0xA1, 0xFC, 0xC1, 0x47, 0xAE, 0x3D, 0x19],
  [0xA4, 0x55, 0x87, 0x5A, 0x58, 0xDB, 0x9E, 0x03]]

/-- `RS[i][c]`, row `i`, column `c` (R63). -/
def RS (i c : Nat) : Byte := (rsRows.getD i []).getD c 0

end Sys2Proof.Machine
end

