-- ==== Sys2Proof/Machine/Sha256.lean ====
section
/-! DEFINITION. The SHA-256 compression engine, unit U1 (40_sha256_compress.md R120 to R129): word
functions, message schedule, round, compression of a block, the block loop, padding, and the digest of
a raw state. All of it is local to a command (10_state.md R35). -/

namespace Sys2Proof.Machine

/-- σ0 (R120). -/
def ssig0 (x : Word) : Word := rotr x 7 ^^^ rotr x 18 ^^^ (x >>> 3)

/-- σ1 (R120). -/
def ssig1 (x : Word) : Word := rotr x 17 ^^^ rotr x 19 ^^^ (x >>> 10)

/-- Σ0 (R120). -/
def bsig0 (x : Word) : Word := rotr x 2 ^^^ rotr x 13 ^^^ rotr x 22

/-- Σ1 (R120). -/
def bsig1 (x : Word) : Word := rotr x 6 ^^^ rotr x 11 ^^^ rotr x 25

/-- Choice (R120). -/
def Ch (e f g : Word) : Word := (e &&& f) ^^^ (~~~e &&& g)

/-- Majority (R120). -/
def Maj (a b c : Word) : Word := (a &&& b) ^^^ (a &&& c) ^^^ (b &&& c)

/-- The schedule extended by `n` words (R121). The list holds the words so far, newest first, so that
`W[t-2]`, `W[t-7]`, `W[t-15]`, `W[t-16]` are its elements 1, 6, 14 and 15. -/
def extendSchedule : Nat → List Word → List Word
  | 0, ws => ws
  | n + 1, ws =>
    extendSchedule n
      ((ssig1 (ws.getD 1 0) + ws.getD 6 0 + ssig0 (ws.getD 14 0) + ws.getD 15 0) :: ws)

/-- `W[0..15]`: the big-endian words of a block (R121, R50). -/
def blockWords (blk : List Byte) : List Word := (List.range 16).map fun t => BE32 blk (4 * t)

/-- The message schedule `W[0..63]` of a 64-byte block (R121). -/
def schedule (blk : List Byte) : List Word := (extendSchedule 48 (blockWords blk).reverse).reverse

/-- The eight working variables (R35, R122). -/
structure WorkVars where
  a : Word
  b : Word
  c : Word
  d : Word
  e : Word
  f : Word
  g : Word
  h : Word
  deriving DecidableEq, Repr

/-- One round with the round constant `k` and the schedule word `w` (R122). -/
def shaRound (k w : Word) (v : WorkVars) : WorkVars :=
  let T1 := v.h + bsig1 v.e + Ch v.e v.f v.g + k + w
  let T2 := bsig0 v.a + Maj v.a v.b v.c
  { a := T1 + T2, b := v.a, c := v.b, d := v.c, e := v.d + T1, f := v.e, g := v.f, h := v.g }

/-- The working variables from the state words (R123). -/
def workOf (H : HashWords) : WorkVars :=
  { a := H[0], b := H[1], c := H[2], d := H[3], e := H[4], f := H[5], g := H[6], h := H[7] }

/-- Rounds 0 to `n - 1` with the schedule `W` (R123). -/
def shaRounds (W : List Word) (n : Nat) (v : WorkVars) : WorkVars :=
  (List.range n).foldl (fun v t => shaRound (K t) (W.getD t 0) v) v

/-- The working variables folded back into the state words (R123). -/
def foldBack (H : HashWords) (v : WorkVars) : HashWords :=
  #v[H[0] + v.a, H[1] + v.b, H[2] + v.c, H[3] + v.d, H[4] + v.e, H[5] + v.f, H[6] + v.g, H[7] + v.h]

/-- `compress(H, blk)` (R123). -/
def compress (H : HashWords) (blk : List Byte) : HashWords :=
  foldBack H (shaRounds (schedule blk) 64 (workOf H))

/-- The first `n` blocks of `data` compressed in order: "for i = 0 .. n-1: H <- compress(H,
data[64i .. 64i+64])" (R124). -/
def compressBlocks : Nat → HashWords → List Byte → HashWords
  | 0, H, _ => H
  | n + 1, H, data => compressBlocks n (compress H (data.take 64)) (data.drop 64)

/-- All the whole blocks of `data` compressed: the loop of R124. -/
def absorb (H : HashWords) (data : List Byte) : HashWords := compressBlocks (data.length / 64) H data

/-- `pad(rem, total)`, for `len(rem) <= 63` and `total < 2^61` (R127). -/
def pad (rem : List Byte) (total : Nat) : List Byte :=
  let r := rem.length
  let padlen := if r ≤ 55 then 64 else 128
  rem ++ [0x80] ++ zeros (padlen - r - 9) ++ be64 (total * 8)

/-- The state words as bytes, each most significant byte first (R50, R129). -/
def digestBytes (H : HashWords) : List Byte := H.toList.flatMap be32

/-- `raw_finish(H, CNT, data)` on inputs that R129 does not fault on: the leading whole blocks, then the
padded remainder, then the state words as the digest. -/
def rawFinish (H : HashWords) (cnt : Nat) (data : List Byte) : List Byte :=
  let n := data.length
  let q := 64 * (n / 64)
  let H' := absorb H (slice data 0 q)
  let rem := slice data q n
  let total := cnt + q + rem.length
  digestBytes (absorb H' (pad rem total))

end Sys2Proof.Machine
end

