-- ==== Sys2Proof/Machine/ShaBuf.lean ====
section
/-! DEFINITION. The input buffering and block dispatcher, unit U2, and the commands of the BUF slot
(41_sha256_buffer.md R150 to R152). -/

namespace Sys2Proof.Machine

/-- The BUF slot while a payload is absorbed (R151), the payload bytes not yet consumed
(`in[p .. LEN]`), and the model's draw counter. -/
structure BufWork where
  slot : BufSlot
  rest : List Byte
  draws : Nat
  deriving DecidableEq, Repr

/-- Step 1 of R151: a partial buffer is topped up; if it becomes full it is flushed and cleared. The
contents of the cleared buffer are unspecified (R26; assumption log 4). -/
def topUp (w : BufWork) : BufWork :=
  let m := w.slot.blen.toNat
  if m = 0 then w
  else
    let n := min (64 - m) w.rest.length
    let filled := fillBuffer w.slot.bbuf m (slice w.rest 0 n)
    if m + n = 64 then
      { slot := { w.slot with
          bh := absorb w.slot.bh filled.toList
          bcnt := BitVec.ofNat 64 (w.slot.bcnt.toNat + 64)
          bbuf := freeBuffer w.draws
          blen := 0 }
        rest := w.rest.drop n
        draws := w.draws + 1 }
    else
      { w with
        slot := { w.slot with bbuf := filled, blen := BitVec.ofNat 6 (m + n) }
        rest := w.rest.drop n }

/-- Step 2 of R151: whole blocks go straight from the payload to the compression engine. -/
def straightThrough (w : BufWork) : BufWork :=
  let q := 64 * (w.rest.length / 64)
  { w with
    slot := { w.slot with
      bh := absorb w.slot.bh (slice w.rest 0 q)
      bcnt := BitVec.ofNat 64 (w.slot.bcnt.toNat + q) }
    rest := w.rest.drop q }

/-- Step 3 of R151: the bytes left over are stored behind the ones in the buffer. -/
def keepRest (w : BufWork) : BufWork :=
  let m := w.slot.blen.toNat
  { w with
    slot := { w.slot with
      bbuf := fillBuffer w.slot.bbuf m w.rest
      blen := BitVec.ofNat 6 (m + w.rest.length) }
    rest := [] }

/-- The body of `SHAB.UPDATE` (R151, from "p <- 0" on). -/
def bufferUpdate (data : List Byte) (s : State) : State :=
  let w := keepRest (straightThrough (topUp { slot := s.buf, rest := data, draws := s.draws }))
  { s with buf := w.slot, draws := w.draws }

/-- `SHAB.INIT` (R150): an empty buffered accumulator; `BBUF` is left as it is. -/
def execShabInit (s : State) : Host.Outcome State Fault Refusal :=
  runCommand .shabInit []
    (fun _ s => { s with buf := { s.buf with bh := IV, bcnt := 0, blen := 0, bvalid := true } }) s

/-- `SHAB.UPDATE` (R151): absorb any number of bytes into the BUF slot. -/
def execShabUpdate (len : BitVec 64) (s : State) : Host.Outcome State Fault Refusal :=
  runCommand (.shabUpdate len)
    [(!s.buf.bvalid, .slotInvalid),
     (reachesLimit (s.buf.bcnt.toNat + flushedBytes s.buf.blen.toNat len.toNat), .limitExceeded)]
    bufferUpdate s

/-- The effect of `SHAB.FINISH` (R152): update body, padding, digest, and the slot is consumed. -/
def bufferFinish (data : List Byte) (s : State) : State :=
  let s' := bufferUpdate data s
  (s'.putDigest (rawFinish s'.buf.bh s'.buf.bcnt.toNat s'.buf.pending)).consumeBuf

/-- `SHAB.FINISH` (R152): absorb the last bytes, pad, put out the digest, consume the BUF slot. -/
def execShabFinish (len : BitVec 64) (s : State) : Host.Outcome State Fault Refusal :=
  runCommand (.shabFinish len)
    [(!s.buf.bvalid, .slotInvalid),
     (reachesLimit (s.buf.bcnt.toNat + s.buf.blen.toNat + len.toNat), .limitExceeded)]
    bufferFinish s

end Sys2Proof.Machine
end

