-- ==== Sys2Proof/Machine/ShaRaw.lean ====
section
/-! DEFINITION. The commands of the RAW slot and the one-shot hash (40_sha256_compress.md R125, R126,
R128, R141). -/

namespace Sys2Proof.Machine

/-- `SHA.INIT` (R125): an empty accumulator; one in progress is discarded. -/
def execShaInit (s : State) : Host.Outcome State Fault Refusal :=
  runCommand .shaInit []
    (fun _ s => { s with raw := { rh := IV, rcnt := 0, rvalid := true } }) s

/-- `SHA.UPDATE` (R126): absorb whole blocks into the RAW slot. -/
def execShaUpdate (len : BitVec 64) (s : State) : Host.Outcome State Fault Refusal :=
  runCommand (.shaUpdate len)
    [(!s.raw.rvalid, .slotInvalid),
     (misaligned len.toNat, .lenMisaligned),
     (reachesLimit (s.raw.rcnt.toNat + len.toNat), .limitExceeded)]
    (fun data s =>
      { s with raw := { s.raw with
          rh := absorb s.raw.rh data
          rcnt := BitVec.ofNat 64 (s.raw.rcnt.toNat + data.length) } }) s

/-- `SHA.FINISH` (R128): absorb the last bytes, pad, put out the digest, consume the RAW slot. -/
def execShaFinish (len : BitVec 64) (s : State) : Host.Outcome State Fault Refusal :=
  runCommand (.shaFinish len)
    [(!s.raw.rvalid, .slotInvalid),
     (reachesLimit (s.raw.rcnt.toNat + len.toNat), .limitExceeded)]
    (fun data s =>
      (s.putDigest (rawFinish s.raw.rh s.raw.rcnt.toNat data)).consumeRaw) s

/-- `SHA.HASH` (R141): the digest of a whole message, with a scratch raw state. -/
def execShaHash (len : BitVec 64) (s : State) : Host.Outcome State Fault Refusal :=
  runCommand (.shaHash len)
    [(reachesLimit len.toNat, .limitExceeded)]
    (fun data s => s.putDigest (rawFinish IV 0 data)) s

end Sys2Proof.Machine
end

