-- ==== Sys2Proof/Machine/TwofishBlock.lean ====
section
/-! DEFINITION. The Twofish block cipher, unit U4, and its two commands (43_twofish_block.md R195 to
R200). The context `SB`, `SK` is only read (R203). -/

namespace Sys2Proof.Machine

/-- `SB[j][x]` (R28, R64). -/
def tableEntry (sb : Vector (Vector Word 256) 4) (j : Fin 4) (x : Byte) : Word := (sb[j])[x.toFin]

/-- `SK[i]`, read for `i` in 0..39 only (R29). -/
def subkey (sk : Vector Word 40) (i : Nat) : Word := sk[i]?.getD 0

/-- The round function `g(X)` (R195). -/
def gFun (sb : Vector (Vector Word 256) 4) (X : Word) : Word :=
  tableEntry sb 0 (lane 0 X) ^^^ tableEntry sb 1 (lane 1 X) ^^^
    tableEntry sb 2 (lane 2 X) ^^^ tableEntry sb 3 (lane 3 X)

/-- The function F of round `r`: `(F0, F1)` (R196). -/
def roundF (sb : Vector (Vector Word 256) 4) (sk : Vector Word 40) (X0 X1 : Word) (r : Nat) :
    Word × Word :=
  let T0 := gFun sb X0
  let T1 := gFun sb (rotl X1 8)
  (T0 + T1 + subkey sk (2 * r + 8), T0 + 2 * T1 + subkey sk (2 * r + 9))

/-- The four words `R[0..3]` of a block (R36). -/
structure Quad where
  r0 : Word
  r1 : Word
  r2 : Word
  r3 : Word
  deriving DecidableEq, Repr

/-- One encryption round (R197). -/
def encRound (sb : Vector (Vector Word 256) 4) (sk : Vector Word 40) (R : Quad) (r : Nat) : Quad :=
  let F := roundF sb sk R.r0 R.r1 r
  { r0 := rotr (R.r2 ^^^ F.1) 1, r1 := rotl R.r3 1 ^^^ F.2, r2 := R.r0, r3 := R.r1 }

/-- One decryption round (R199). -/
def decRound (sb : Vector (Vector Word 256) 4) (sk : Vector Word 40) (R : Quad) (r : Nat) : Quad :=
  let F := roundF sb sk R.r2 R.r3 r
  { r0 := R.r2, r1 := R.r3, r2 := rotl R.r0 1 ^^^ F.1, r3 := rotr (R.r1 ^^^ F.2) 1 }

/-- The words of a block, least significant byte first (R51). -/
def loadBlock (block : List Byte) : Quad :=
  { r0 := LE32 block 0, r1 := LE32 block 4, r2 := LE32 block 8, r3 := LE32 block 12 }

/-- The bytes of four words, least significant byte first (R51). -/
def storeBlock (C : Quad) : List Byte := le32 C.r0 ++ le32 C.r1 ++ le32 C.r2 ++ le32 C.r3

/-- The four words XORed with `SK[i] .. SK[i+3]` (R198, R200). -/
def whiten (sk : Vector Word 40) (i : Nat) (R : Quad) : Quad :=
  { r0 := R.r0 ^^^ subkey sk i, r1 := R.r1 ^^^ subkey sk (i + 1),
    r2 := R.r2 ^^^ subkey sk (i + 2), r3 := R.r3 ^^^ subkey sk (i + 3) }

/-- The index map `(i + 2) mod 4` on the four words (R198, R200). -/
def swapHalves (R : Quad) : Quad := { r0 := R.r2, r1 := R.r3, r2 := R.r0, r3 := R.r1 }

/-- `TF.ENC`'s data path (R198): input whitening, rounds 0 to 15, the last swap undone, output
whitening. -/
def encryptBlock (sb : Vector (Vector Word 256) 4) (sk : Vector Word 40) (block : List Byte) :
    List Byte :=
  let R := whiten sk 0 (loadBlock block)
  let R := (List.range 16).foldl (encRound sb sk) R
  storeBlock (whiten sk 4 (swapHalves R))

/-- `TF.DEC`'s data path (R200): output whitening undone and the swap re-created, rounds 15 down to 0,
input whitening undone. It undoes `encryptBlock` stage by stage, and `encryptBlock` undoes it (R201). -/
def decryptBlock (sb : Vector (Vector Word 256) 4) (sk : Vector Word 40) (block : List Byte) :
    List Byte :=
  let R := swapHalves (whiten sk 4 (loadBlock block))
  let R := (List.range 16).reverse.foldl (decRound sb sk) R
  storeBlock (whiten sk 0 R)

/-- `TF.ENC` (R198). -/
def execTfEnc (s : State) : Host.Outcome State Fault Refusal :=
  runCommand .tfEnc [(!s.ctx.cvalid, .noContext)]
    (fun block s => s.putBlock (encryptBlock s.ctx.sb s.ctx.sk block)) s

/-- `TF.DEC` (R200). -/
def execTfDec (s : State) : Host.Outcome State Fault Refusal :=
  runCommand .tfDec [(!s.ctx.cvalid, .noContext)]
    (fun block s => s.putBlock (decryptBlock s.ctx.sb s.ctx.sk block)) s

end Sys2Proof.Machine
end

