-- ==== Sys2Proof/Machine/TwofishKey.lean ====
section
/-! DEFINITION. The Twofish key schedule, unit U3, and its three commands (42_twofish_keysched.md R165
to R177). The key and everything derived from it on the way is local to the command (10_state.md R36). -/

namespace Sys2Proof.Machine

/-- `M[0..2k-1]`: the key as little-endian words, `k = len(key) / 8` (R165, R51). -/
def keyWords (key : List Byte) : List Word :=
  (List.range (2 * (key.length / 8))).map fun i => LE32 key (4 * i)

/-- `Me[0..k-1]`: the even-numbered key words (R165). -/
def keyMe (key : List Byte) : List Word :=
  (List.range (key.length / 8)).map fun i => (keyWords key).getD (2 * i) 0

/-- `Mo[0..k-1]`: the odd-numbered key words (R165). -/
def keyMo (key : List Byte) : List Word :=
  (List.range (key.length / 8)).map fun i => (keyWords key).getD (2 * i + 1) 0

/-- One row of the Reed-Solomon product of key chunk `i`: the XOR of 8 products (R166). -/
def rsByte (key : List Byte) (i row : Nat) : Byte :=
  (List.range 8).foldl (fun acc c => acc ^^^ gfmul (RS row c) (byteAt key (8 * i + c)) polyRS) 0

/-- `S[i]`: the S-vector word of key chunk `i`, row 0 the least significant byte (R166). -/
def sWord (key : List Byte) (i : Nat) : Word :=
  wordOfLanes (rsByte key i 0) (rsByte key i 1) (rsByte key i 2) (rsByte key i 3)

/-- The S-vector `S[0..k-1]` (R166). -/
def sVector (key : List Byte) : List Word := (List.range (key.length / 8)).map (sWord key)

/-- `LS[n] = S[k-1-n]`: the S-vector in reverse order (R167). -/
def listLS (key : List Byte) : List Word := (sVector key).reverse

/-- Four bytes, one per byte lane (R168). -/
structure Lanes where
  y0 : Byte
  y1 : Byte
  y2 : Byte
  y3 : Byte
  deriving DecidableEq, Repr

/-- One stage's XOR with the bytes of the word `l` (R168). -/
def Lanes.xorWord (y : Lanes) (l : Word) : Lanes :=
  ⟨y.y0 ^^^ lane 0 l, y.y1 ^^^ lane 1 l, y.y2 ^^^ lane 2 l, y.y3 ^^^ lane 3 l⟩

/-- The permutation cascade (R168): `k = len(L)` is 2, 3 or 4. -/
def cascade (y : Lanes) (L : List Word) : Lanes :=
  let k := L.length
  let y := if k = 4 then Lanes.xorWord ⟨Q1 y.y0, Q0 y.y1, Q0 y.y2, Q1 y.y3⟩ (L.getD 3 0) else y
  let y := if 3 ≤ k then Lanes.xorWord ⟨Q1 y.y0, Q1 y.y1, Q0 y.y2, Q0 y.y3⟩ (L.getD 2 0) else y
  let y := Lanes.xorWord ⟨Q0 y.y0, Q1 y.y1, Q0 y.y2, Q1 y.y3⟩ (L.getD 1 0)
  let y := Lanes.xorWord ⟨Q0 y.y0, Q0 y.y1, Q1 y.y2, Q1 y.y3⟩ (L.getD 0 0)
  ⟨Q1 y.y0, Q0 y.y1, Q1 y.y2, Q0 y.y3⟩

/-- `mdscol(j, v)`: column `j` of `MDS` times the byte `v`, row 0 the least significant byte (R169). -/
def mdscol (j : Nat) (v : Byte) : Word :=
  wordOfLanes (gfmul (MDS 0 j) v polyMDS) (gfmul (MDS 1 j) v polyMDS)
    (gfmul (MDS 2 j) v polyMDS) (gfmul (MDS 3 j) v polyMDS)

/-- The product of `MDS` with a column of four bytes (R169). -/
def mdsMul (y : Lanes) : Word := mdscol 0 y.y0 ^^^ mdscol 1 y.y1 ^^^ mdscol 2 y.y2 ^^^ mdscol 3 y.y3

/-- `h(X, L)` (R171). -/
def hFun (X : Word) (L : List Word) : Word :=
  mdsMul (cascade ⟨lane 0 X, lane 1 X, lane 2 X, lane 3 X⟩ L)

/-- Byte lane `j` of four lanes. -/
def Lanes.get (y : Lanes) (j : Nat) : Byte :=
  match j with
  | 0 => y.y0
  | 1 => y.y1
  | 2 => y.y2
  | _ => y.y3

/-- Entry `x` of combined table `j` (R172). -/
def sBoxEntry (LS : List Word) (j x : Nat) : Word :=
  let b : Byte := BitVec.ofNat 8 x
  mdscol j ((cascade ⟨b, b, b, b⟩ LS).get j)

/-- `SB[0..3][0..255]` of a key (R172). -/
def sBoxTables (key : List Byte) : Vector (Vector Word 256) 4 :=
  let LS := listLS key
  tabulate 4 fun j => tabulate 256 fun x => sBoxEntry LS j x

/-- `n * RHO`: the word with all four bytes equal to `n` (R173). -/
def rho (n : Nat) : Word := BitVec.ofNat 32 n * 0x01010101

/-- `A` of pair `i` (R173). -/
def pairA (Me : List Word) (i : Nat) : Word := hFun (rho (2 * i)) Me

/-- `B` of pair `i` (R173). -/
def pairB (Mo : List Word) (i : Nat) : Word := rotl (hFun (rho (2 * i + 1)) Mo) 8

/-- `SK[n]`: of the pair `i = n / 2`, the even subkey `A + B` or the odd one `ROTL(A + 2B, 9)` (R173). -/
def subkeyOf (Me Mo : List Word) (n : Nat) : Word :=
  let A := pairA Me (n / 2)
  let B := pairB Mo (n / 2)
  if n % 2 = 0 then A + B else rotl (A + 2 * B) 9

/-- `SK[0..39]` of a key (R173). -/
def subkeys (key : List Byte) : Vector Word 40 :=
  let Me := keyMe key
  let Mo := keyMo key
  tabulate 40 (subkeyOf Me Mo)

/-- The test of R174: `LEN` differs from the variant size (R221). -/
def wrongKeySize (len variant : Nat) : Bool := len != variant

/-- The effect shared by the three commands (R174): the whole context is replaced. -/
def deriveContext (key : List Byte) (s : State) : State :=
  { s with ctx := { sb := sBoxTables key, sk := subkeys key, cvalid := true } }

/-- `TF.KEY128` (R175). -/
def execTfKey128 (len : BitVec 64) (s : State) : Host.Outcome State Fault Refusal :=
  runCommand (.tfKey128 len) [(wrongKeySize len.toNat Config.keyBytes128, .keySize)] deriveContext s

/-- `TF.KEY192` (R176). -/
def execTfKey192 (len : BitVec 64) (s : State) : Host.Outcome State Fault Refusal :=
  runCommand (.tfKey192 len) [(wrongKeySize len.toNat Config.keyBytes192, .keySize)] deriveContext s

/-- `TF.KEY256` (R177). -/
def execTfKey256 (len : BitVec 64) (s : State) : Host.Outcome State Fault Refusal :=
  runCommand (.tfKey256 len) [(wrongKeySize len.toNat Config.keyBytes256, .keySize)] deriveContext s

end Sys2Proof.Machine
end

