-- ==== Sys2Proof/Machine/Dispatch.lean ====
section
/-! DEFINITION. One arm per command: its meaning. -/

namespace Sys2Proof.Machine

def exec (i : Instr) (s : State) : Host.Outcome State Fault Refusal :=
  match i with
  | .shaInit => Sys2Proof.Machine.execShaInit s
  | .shaUpdate len => Sys2Proof.Machine.execShaUpdate len s
  | .shaFinish len => Sys2Proof.Machine.execShaFinish len s
  | .shaHash len => Sys2Proof.Machine.execShaHash len s
  | .shabInit => Sys2Proof.Machine.execShabInit s
  | .shabUpdate len => Sys2Proof.Machine.execShabUpdate len s
  | .shabFinish len => Sys2Proof.Machine.execShabFinish len s
  | .tfKey128 len => Sys2Proof.Machine.execTfKey128 len s
  | .tfKey192 len => Sys2Proof.Machine.execTfKey192 len s
  | .tfKey256 len => Sys2Proof.Machine.execTfKey256 len s
  | .tfEnc => Sys2Proof.Machine.execTfEnc s
  | .tfDec => Sys2Proof.Machine.execTfDec s

end Sys2Proof.Machine
end

