-- ==== Sys2Proof/Machine/Port.lean ====
section
/-! DEFINITION. The command port and the reset input (30_encoding.md R94, R100 to R102;
70_reset_and_hazards.md R250): what each host event does to the core. -/

namespace Sys2Proof.Machine

/-- The command with descriptor `d` is executed: decoded (R100), then run; an illegal descriptor raises
the fault of R95. -/
def execDesc (d : Desc) (s : State) : Host.Outcome State Fault Refusal :=
  match decode d with
  | .ok i => exec i s
  | .error _ => runIllegal d s

/-- The host presents a whole command: it is accepted, executed to completion, and its payload is gone
(R19, R94). -/
def commandEvent (c : Command) (rest : List HostEvent) (s : State) : Host.Outcome State Fault Refusal :=
  retire (execDesc c.desc (s.accept c.payload rest))

/-- The host asserts reset; the events after it stay (R250). -/
def resetPort (rest : List HostEvent) (s : State) : Host.Outcome State Fault Refusal :=
  .next ({ s with input := rest } : State).resetEvent

/-- No event is presented: the core changes nothing (R21; assumption log 6). -/
def idle (s : State) : Host.Outcome State Fault Refusal := .next s

end Sys2Proof.Machine
end

