-- ==== Sys2Proof/Machine/Step.lean ====
section
/-! DEFINITION. One step: the next host event, a whole command or a reset (00_scope.md R19;
10_state.md R21). -/

namespace Sys2Proof.Machine

/-- One step of the core (R19, R21, R250; assumption log 6). -/
def step (s : State) : Host.Outcome State Fault Refusal :=
  match s.input with
  | [] => idle s
  | .reset :: rest => resetPort rest s
  | .command c :: rest => commandEvent c rest s

/-- The command whose descriptor is `w` (bits above `nbits` zero) presented as the very next host event,
with a payload of exactly `LEN` zero bytes (assumption log 10). -/
def State.withFetchWord (s : State) (nbits w : Nat) : State :=
  { s with input := presentWord nbits w :: s.input }

end Sys2Proof.Machine
end

