-- ==== Sys2Proof/Machine/Assembler.lean ====
section
/-! DEFINITION. The assembler of 30_encoding.md R98 and the pseudo-commands of R99, from the abstract
syntax of a line to the command the host presents; the text of a line is read in `AsmText.lean`. The core
itself does not see it (assumption log 15). -/

namespace Sys2Proof.Machine

/-- A byte-string expression (R98). -/
inductive ByteExpr where
  /-- `x"00 11 aa"`: the bytes given. -/
  | hex (bytes : List Byte)
  /-- `"abc"`: the ASCII codes, 7 bits each, no terminator. -/
  | ascii (codes : List (BitVec 7))
  /-- `rep(b, n)`: `n` copies of `b`. -/
  | rep (b : Byte) (n : Nat)
  /-- `e1 ++ e2`. -/
  | append (e1 e2 : ByteExpr)
  deriving DecidableEq, Repr

/-- The bytes an expression stands for (R98). -/
def ByteExpr.eval : ByteExpr → List Byte
  | .hex bytes => bytes
  | .ascii codes => codes.map (·.setWidth 8)
  | .rep b n => List.replicate n b
  | .append e1 e2 => e1.eval ++ e2.eval

/-- One line of a program (R98), the pseudo-commands of R99 among them: a FINISH without operand, the
size-generic `TF.KEY`, and `.desc`. -/
inductive AsmLine where
  | shaInit
  | shaUpdate (e : ByteExpr)
  | shaFinish (e : Option ByteExpr)
  | shaHash (e : ByteExpr)
  | shabInit
  | shabUpdate (e : ByteExpr)
  | shabFinish (e : Option ByteExpr)
  | tfKey128 (e : ByteExpr)
  | tfKey192 (e : ByteExpr)
  | tfKey256 (e : ByteExpr)
  | tfKey (e : ByteExpr)
  | tfEnc (e : ByteExpr)
  | tfDec (e : ByteExpr)
  | rawDesc (d : Desc)
  deriving DecidableEq, Repr

/-- Why a line is refused to assemble. -/
inductive AsmReject where
  /-- A format B command without exactly 16 bytes (R98). -/
  | blockLength
  /-- The pseudo-command `TF.KEY` with other than 16, 24 or 32 bytes (R99). -/
  | keyLength
  /-- 2^64 bytes or more, which no `LEN` field can hold (R93; assumption log 15). -/
  | lengthField
  /-- The text is no line of R98 (`AsmText.lean`). -/
  | badText
  deriving DecidableEq, Repr

/-- What the assembler emits for a line: a descriptor and then the bytes (R98). -/
abbrev Emitted := Desc × Payload

/-- The descriptor `{OP, LEN}` with `LEN` the number of bytes, and then the bytes (R98). -/
def emit (op : FormatL) (bytes : List Byte) : Except AsmReject Emitted :=
  if h : bytes.length < 2 ^ 64 then
    let p := Payload.ofBytes bytes h
    .ok (encode (op.instr p.len), p)
  else .error .lengthField

/-- A format B line: exactly 16 bytes (R98). -/
def emitBlock (i : Instr) (bytes : List Byte) : Except AsmReject Emitted :=
  if h : bytes.length = 16 then .ok (encode i, .ofBytes bytes (by omega)) else .error .blockLength

/-- The size-generic pseudo-command `TF.KEY` (R99). -/
def emitKey (bytes : List Byte) : Except AsmReject Emitted :=
  if bytes.length = 16 then emit .tfKey128 bytes
  else if bytes.length = 24 then emit .tfKey192 bytes
  else if bytes.length = 32 then emit .tfKey256 bytes
  else .error .keyLength

/-- The operand of a FINISH line; without one it is the empty string (R99). -/
def finishOperand : Option ByteExpr → List Byte
  | none => []
  | some e => e.eval

/-- Assembly of one line (R98, R99). -/
def assemble : AsmLine → Except AsmReject Emitted
  | .shaInit => .ok (encode .shaInit, .empty)
  | .shaUpdate e => emit .shaUpdate e.eval
  | .shaFinish e => emit .shaFinish (finishOperand e)
  | .shaHash e => emit .shaHash e.eval
  | .shabInit => .ok (encode .shabInit, .empty)
  | .shabUpdate e => emit .shabUpdate e.eval
  | .shabFinish e => emit .shabFinish (finishOperand e)
  | .tfKey128 e => emit .tfKey128 e.eval
  | .tfKey192 e => emit .tfKey192 e.eval
  | .tfKey256 e => emit .tfKey256 e.eval
  | .tfKey e => emitKey e.eval
  | .tfEnc e => emitBlock .tfEnc e.eval
  | .tfDec e => emitBlock .tfDec e.eval
  | .rawDesc d => .ok (d, .empty)

/-- The host events that present what was emitted, in order; none where a raw descriptor is a legal one that
needs payload bytes, which is not a command (R94, R98). -/
def presentEmitted : List Emitted → Option (List HostEvent)
  | [] => some []
  | e :: rest =>
    match Command.ofPair e.1 e.2, presentEmitted rest with
    | some c, some events => some (.command c :: events)
    | _, _ => none

end Sys2Proof.Machine
end

