-- ==== Sys2Proof/Machine/AsmText.lean ====
section
/-! DEFINITION. The text of a program (30_encoding.md R98, R99): one command per line, mnemonics,
byte-string expressions, comments. A line of characters becomes the abstract line of `Assembler.lean`;
what R98 leaves open of the text is said in assumption log 15. -/

namespace Sys2Proof.Machine

/-- The tokens of a line. -/
inductive AsmToken where
  /-- A mnemonic, a number, `rep`, `.desc`. -/
  | word (cs : List Char)
  /-- `x"..."`. -/
  | hexString (bytes : List Byte)
  /-- `"..."`. -/
  | asciiString (codes : List (BitVec 7))
  /-- `++`. -/
  | plusPlus
  /-- `(`. -/
  | leftParen
  /-- `)`. -/
  | rightParen
  /-- `,`. -/
  | comma
  /-- `^`. -/
  | caret
  deriving DecidableEq, Repr

/-- Where in a line the reader is; the collected items stand newest first. -/
inductive LexMode where
  /-- Outside a string, within the word `w`. -/
  | plain (w : List Char)
  /-- After one `+`. -/
  | plus
  /-- Within `x"..."`, after the digits `ds`. -/
  | hex (ds : List (BitVec 4))
  /-- Within `"..."`, after the characters `codes`. -/
  | ascii (codes : List (BitVec 7))
  deriving DecidableEq, Repr

/-- A hexadecimal digit. -/
def hexDigit (c : Char) : Option (BitVec 4) :=
  let n := c.toNat
  if 48 ≤ n ∧ n ≤ 57 then some (BitVec.ofNat 4 (n - 48))
  else if 65 ≤ n ∧ n ≤ 70 then some (BitVec.ofNat 4 (n - 55))
  else if 97 ≤ n ∧ n ≤ 102 then some (BitVec.ofNat 4 (n - 87))
  else none

/-- A decimal digit. -/
def decimalDigit (c : Char) : Option Nat :=
  let n := c.toNat
  if 48 ≤ n ∧ n ≤ 57 then some (n - 48) else none

/-- Spaces between the parts of a line. -/
def isBlank (c : Char) : Bool := c == ' ' || c == '\t' || c == '\r'

/-- The one-character tokens. -/
def punctuation (c : Char) : Option AsmToken :=
  if c = '(' then some .leftParen
  else if c = ')' then some .rightParen
  else if c = ',' then some .comma
  else if c = '^' then some .caret
  else none

/-- The digit pairs of `x"..."` (R98), given newest first, as bytes; an odd number of digits has none. -/
def pairDigits : List (BitVec 4) → List Byte → Option (List Byte)
  | [], acc => some acc
  | [_], _ => none
  | lo :: hi :: ds, acc => pairDigits ds ((hi ++ lo) :: acc)

/-- The tokens so far, with the word just ended put behind them (newest first). -/
def endWord (w : List Char) (acc : List AsmToken) : List AsmToken :=
  if w = [] then acc else .word w.reverse :: acc

/-- The tokens of a line (R98), structurally over its characters; `acc` holds the tokens so far, newest
first. -/
def lexLine : LexMode → List AsmToken → List Char → Except AsmReject (List AsmToken)
  | .plain w, acc, [] => .ok (endWord w acc).reverse
  | .plus, _, [] => .error .badText
  | .hex _, _, [] => .error .badText
  | .ascii _, _, [] => .error .badText
  | .plain w, acc, c :: cs =>
    if c = ';' then .ok (endWord w acc).reverse
    else if c = '"' then
      if w = ['x'] then lexLine (.hex []) acc cs else lexLine (.ascii []) (endWord w acc) cs
    else if c = '+' then lexLine .plus (endWord w acc) cs
    else if isBlank c then lexLine (.plain []) (endWord w acc) cs
    else match punctuation c with
      | some t => lexLine (.plain []) (t :: endWord w acc) cs
      | none => lexLine (.plain (c :: w)) acc cs
  | .plus, acc, c :: cs => if c = '+' then lexLine (.plain []) (.plusPlus :: acc) cs else .error .badText
  | .hex ds, acc, c :: cs =>
    if c = '"' then
      match pairDigits ds [] with
      | some bytes => lexLine (.plain []) (.hexString bytes :: acc) cs
      | none => .error .badText
    else if isBlank c then lexLine (.hex ds) acc cs
    else match hexDigit c with
      | some d => lexLine (.hex (d :: ds)) acc cs
      | none => .error .badText
  | .ascii codes, acc, c :: cs =>
    if c = '"' then lexLine (.plain []) (.asciiString codes.reverse :: acc) cs
    else if c.toNat < 128 then lexLine (.ascii (BitVec.ofNat 7 c.toNat :: codes)) acc cs
    else .error .badText

/-- The digits of a word, each read by `digit`; none if one is no digit. -/
def readDigits {α : Type} (digit : Char → Option α) : List Char → Option (List α)
  | [] => some []
  | c :: cs =>
    match digit c, readDigits digit cs with
    | some d, some ds => some (d :: ds)
    | _, _ => none

/-- A number in decimal. -/
def decimalNumber (w : List Char) : Option Nat :=
  match readDigits decimalDigit w with
  | some (d :: ds) => some ((d :: ds).foldl (fun n d => 10 * n + d) 0)
  | _ => none

/-- `0x` and exactly `n` hexadecimal digits. -/
def hexNumber (n : Nat) : List Char → Option Nat
  | '0' :: 'x' :: w =>
    match readDigits hexDigit w with
    | some ds => if ds.length = n then some (ds.foldl (fun v d => 16 * v + d.toNat) 0) else none
    | none => none
  | _ => none

/-- One term of an expression at the head of the tokens, and the tokens behind it (R98). -/
def readTerm : List AsmToken → Option (ByteExpr × List AsmToken)
  | .hexString bytes :: rest => some (.hex bytes, rest)
  | .asciiString codes :: rest => some (.ascii codes, rest)
  | .word ['r', 'e', 'p'] :: .leftParen :: .word b :: .comma :: .word n :: .rightParen :: rest =>
    match hexNumber 2 b, decimalNumber n with
    | some b, some n => some (.rep (BitVec.ofNat 8 b) n, rest)
    | _, _ => none
  | .word ['r', 'e', 'p'] :: .leftParen :: .word b :: .comma :: .word ['2'] :: .caret :: .word e ::
      .rightParen :: rest =>
    match hexNumber 2 b, decimalNumber e with
    | some b, some e => some (.rep (BitVec.ofNat 8 b) (2 ^ e), rest)
    | _, _ => none
  | _ => none

/-- A byte-string expression that fills the whole rest of the line: terms joined by `++` (R98). The first
argument bounds the number of terms. -/
def readExpr : Nat → List AsmToken → Option ByteExpr
  | 0, _ => none
  | fuel + 1, ts =>
    match readTerm ts with
    | some (e, []) => some e
    | some (e, .plusPlus :: rest) =>
      match readExpr fuel rest with
      | some e' => some (.append e e')
      | none => none
    | _ => none

/-- A line whose operand is needed. -/
def withOperand (line : ByteExpr → AsmLine) (ts : List AsmToken) : Except AsmReject (Option AsmLine) :=
  match readExpr ts.length ts with
  | some e => .ok (some (line e))
  | none => .error .badText

/-- A FINISH line, whose operand may be left out (R99). -/
def withFinishOperand (line : Option ByteExpr → AsmLine) (ts : List AsmToken) :
    Except AsmReject (Option AsmLine) :=
  if ts = [] then .ok (some (line none)) else withOperand (fun e => line (some e)) ts

/-- A line without operand. -/
def withoutOperand (line : AsmLine) (ts : List AsmToken) : Except AsmReject (Option AsmLine) :=
  if ts = [] then .ok (some line) else .error .badText

/-- `.desc` and its descriptor of 18 hexadecimal digits (R98). -/
def readRawDesc : List AsmToken → Except AsmReject (Option AsmLine)
  | [.word w] =>
    match hexNumber 18 w with
    | some d => .ok (some (.rawDesc (BitVec.ofNat 72 d)))
    | none => .error .badText
  | _ => .error .badText

/-- The line that a list of tokens stands for, by its mnemonic (R92, R98, R99); none for an empty line. -/
def readLine : List AsmToken → Except AsmReject (Option AsmLine)
  | [] => .ok none
  | .word m :: ts =>
    if m = ['S', 'H', 'A', '.', 'I', 'N', 'I', 'T'] then withoutOperand .shaInit ts
    else if m = ['S', 'H', 'A', '.', 'U', 'P', 'D', 'A', 'T', 'E'] then withOperand .shaUpdate ts
    else if m = ['S', 'H', 'A', '.', 'F', 'I', 'N', 'I', 'S', 'H'] then withFinishOperand .shaFinish ts
    else if m = ['S', 'H', 'A', '.', 'H', 'A', 'S', 'H'] then withOperand .shaHash ts
    else if m = ['S', 'H', 'A', 'B', '.', 'I', 'N', 'I', 'T'] then withoutOperand .shabInit ts
    else if m = ['S', 'H', 'A', 'B', '.', 'U', 'P', 'D', 'A', 'T', 'E'] then withOperand .shabUpdate ts
    else if m = ['S', 'H', 'A', 'B', '.', 'F', 'I', 'N', 'I', 'S', 'H'] then withFinishOperand .shabFinish ts
    else if m = ['T', 'F', '.', 'K', 'E', 'Y', '1', '2', '8'] then withOperand .tfKey128 ts
    else if m = ['T', 'F', '.', 'K', 'E', 'Y', '1', '9', '2'] then withOperand .tfKey192 ts
    else if m = ['T', 'F', '.', 'K', 'E', 'Y', '2', '5', '6'] then withOperand .tfKey256 ts
    else if m = ['T', 'F', '.', 'K', 'E', 'Y'] then withOperand .tfKey ts
    else if m = ['T', 'F', '.', 'E', 'N', 'C'] then withOperand .tfEnc ts
    else if m = ['T', 'F', '.', 'D', 'E', 'C'] then withOperand .tfDec ts
    else if m = ['.', 'd', 'e', 's', 'c'] then readRawDesc ts
    else .error .badText
  | _ => .error .badText

/-- One line of text as an abstract line (R98). -/
def parseLine (text : List Char) : Except AsmReject (Option AsmLine) :=
  match lexLine (.plain []) [] text with
  | .ok ts => readLine ts
  | .error r => .error r

/-- The lines of a text, cut at the ends of line. -/
def splitLines : List Char → List (List Char)
  | [] => [[]]
  | c :: cs =>
    if c = '\n' then [] :: splitLines cs
    else match splitLines cs with
      | l :: ls => (c :: l) :: ls
      | [] => [[c]]

/-- What a list of lines emits, in order (R98); the first line that does not assemble refuses the
whole. -/
def assembleLines : List (List Char) → Except AsmReject (List Emitted)
  | [] => .ok []
  | l :: ls =>
    match parseLine l, assembleLines ls with
    | .error r, _ => .error r
    | .ok none, rest => rest
    | .ok (some line), rest =>
      match assemble line, rest with
      | .error r, _ => .error r
      | .ok _, .error r => .error r
      | .ok out, .ok outs => .ok (out :: outs)

/-- What a program's text emits (R98). -/
def assembleText (text : List Char) : Except AsmReject (List Emitted) := assembleLines (splitLines text)

end Sys2Proof.Machine
end

