-- ==== Sys2Proof/Safety.lean ====
section
/-! DEFINITION. The terms that claims about the core are stated in: the invariant of 10_state.md R38,
final states, runs, the parts of the state that belong to one slot, the digest of a whole message, and the
macro-round form of the cipher. No meaning of the machine uses any of them. -/

namespace Sys2Proof.Machine

/-- `SB` and `SK` are the context that some key of a legal size derives (R38 (c), R172, R173). -/
def State.contextDerived (s : State) : Prop :=
  ∃ key : List Byte, (key.length = 16 ∨ key.length = 24 ∨ key.length = 32) ∧
    s.ctx.sb = sBoxTables key ∧ s.ctx.sk = subkeys key

/-- What holds between any two commands (R38 (a) to (e)); the last field is the model's: no payload
stays behind (R36, R37). -/
structure State.Inv (s : State) : Prop where
  raw : s.raw.rvalid = true → s.raw.rcnt.toNat % 64 = 0 ∧ s.raw.rcnt.toNat < 2 ^ 61
  buf : s.buf.bvalid = true → s.buf.bcnt.toNat % 64 = 0 ∧ s.buf.bcnt.toNat < 2 ^ 61 ∧ s.buf.blen.toNat ≤ 63
  context : s.ctx.cvalid = true → s.contextDerived
  clean : s.flt.faulted = false → s.flt.cause = 0 ∧ s.flt.fcmd = 0
  recorded : s.flt.faulted = true → 1 ≤ s.flt.cause.toNat ∧ s.flt.cause.toNat ≤ 6
  payload : s.payload = .empty

/-- A final state: every event has been processed and the core is not faulted (R225). -/
def State.Final (s : State) : Prop := s.input = [] ∧ s.flt.faulted = false

/-- The machine run over the first `n` host events, stopping at a fault or refusal of the model. -/
def runEvents : Nat → State → Host.Outcome State Fault Refusal
  | 0, s => .next s
  | n + 1, s =>
    match step s with
    | .next t => runEvents n t
    | .fault r => .fault r
    | .refused r => .refused r

/-- What the core's state says, with every element left out that is unspecified or guarded by a flag
that is 0 (R41, R26): the accumulators, the context and the outputs that exist, and the fault
registers. -/
structure Observed where
  /-- `RH`, `RCNT` of a live RAW slot (R23, R24, R27). -/
  raw : Option (HashWords × BitVec 64)
  /-- `BH`, `BCNT`, `BBUF[0 .. BLEN]` of a live BUF slot (R25, R26, R27). -/
  buf : Option (HashWords × BitVec 64 × List Byte)
  /-- `SB`, `SK` of a derived context (R28, R29, R30). -/
  ctx : Option (Vector (Vector Word 256) 4 × Vector Word 40)
  /-- `DIGEST` (R31). -/
  digest : Option (Vector Byte 32)
  /-- `BLKOUT` (R32). -/
  block : Option (Vector Byte 16)
  /-- `FAULTED`, `CAUSE`, `FCMD` (R34). -/
  flt : FaultRegs
  deriving DecidableEq, Repr

/-- The accumulator in the RAW slot, if there is one. -/
def RawSlot.live (r : RawSlot) : Option (HashWords × BitVec 64) :=
  if r.rvalid then some (r.rh, r.rcnt) else none

/-- The accumulator in the BUF slot, if there is one. -/
def BufSlot.live (b : BufSlot) : Option (HashWords × BitVec 64 × List Byte) :=
  if b.bvalid then some (b.bh, b.bcnt, b.pending) else none

/-- The derived context, if there is one. -/
def CipherContext.live (c : CipherContext) : Option (Vector (Vector Word 256) 4 × Vector Word 40) :=
  if c.cvalid then some (c.sb, c.sk) else none

/-- The digest put out, if there is one. -/
def DigestReg.live (d : DigestReg) : Option (Vector Byte 32) := if d.dvalid then some d.digest else none

/-- The block put out, if there is one. -/
def BlockReg.live (b : BlockReg) : Option (Vector Byte 16) := if b.ovalid then some b.blkout else none

/-- What a state says (R41). -/
def State.observe (s : State) : Observed where
  raw := s.raw.live
  buf := s.buf.live
  ctx := s.ctx.live
  digest := s.dig.live
  block := s.blk.live
  flt := s.flt

/-- The command names the BUF slot (41_sha256_buffer.md). -/
def Instr.namesBuf : Instr → Bool
  | .shabInit => true
  | .shabUpdate _ => true
  | .shabFinish _ => true
  | .shaInit => false
  | .shaUpdate _ => false
  | .shaFinish _ => false
  | .shaHash _ => false
  | .tfKey128 _ => false
  | .tfKey192 _ => false
  | .tfKey256 _ => false
  | .tfEnc => false
  | .tfDec => false

/-- The command names the RAW slot (40_sha256_compress.md R125, R126, R128). -/
def Instr.namesRaw : Instr → Bool
  | .shaInit => true
  | .shaUpdate _ => true
  | .shaFinish _ => true
  | .shaHash _ => false
  | .shabInit => false
  | .shabUpdate _ => false
  | .shabFinish _ => false
  | .tfKey128 _ => false
  | .tfKey192 _ => false
  | .tfKey256 _ => false
  | .tfEnc => false
  | .tfDec => false

/-- The command writes `DIGEST` (R31). -/
def Instr.writesDigest : Instr → Bool
  | .shaFinish _ => true
  | .shaHash _ => true
  | .shabFinish _ => true
  | .shaInit => false
  | .shaUpdate _ => false
  | .shabInit => false
  | .shabUpdate _ => false
  | .tfKey128 _ => false
  | .tfKey192 _ => false
  | .tfKey256 _ => false
  | .tfEnc => false
  | .tfDec => false

/-- The event is a legal command with the property. -/
def HostEvent.isCommandThat (p : Instr → Bool) : HostEvent → Bool
  | .reset => false
  | .command c =>
    match decode c.desc with
    | .ok i => p i
    | .error _ => false

/-- The condition of a cause, on the two fields of the descriptor and the state (R215 to R221), without
the priority among causes. -/
def Cause.condition (c : Cause) (d : Desc) (s : State) : Prop :=
  let op := descOp d
  let len := (descLen d).toNat
  match c with
  | .illegalCmd => ∀ row ∈ opcodeMap, row.selects d = false
  | .slotInvalid =>
    ((op = 0x11 ∨ op = 0x12) ∧ s.raw.rvalid = false) ∨ ((op = 0x21 ∨ op = 0x22) ∧ s.buf.bvalid = false)
  | .noContext => (d = 0x480000000000000010 ∨ d = 0x490000000000000010) ∧ s.ctx.cvalid = false
  | .lenMisaligned => op = 0x11 ∧ len % 64 ≠ 0
  | .limitExceeded =>
    ((op = 0x11 ∨ op = 0x12) ∧ s.raw.rcnt.toNat + len ≥ 2 ^ 61) ∨ (op = 0x13 ∧ len ≥ 2 ^ 61) ∨
    (op = 0x21 ∧ s.buf.bcnt.toNat + 64 * ((s.buf.blen.toNat + len) / 64) ≥ 2 ^ 61) ∨
    (op = 0x22 ∧ s.buf.bcnt.toNat + s.buf.blen.toNat + len ≥ 2 ^ 61)
  | .keySize => (op = 0x40 ∧ len ≠ 16) ∨ (op = 0x41 ∧ len ≠ 24) ∨ (op = 0x42 ∧ len ≠ 32)

/-- The place of a cause in the priority order of R224. -/
def Cause.priority : Cause → Nat
  | .illegalCmd => 2
  | .slotInvalid => 3
  | .noContext => 3
  | .lenMisaligned => 4
  | .keySize => 4
  | .limitExceeded => 5

/-- `raw_update`'s loop written with its index: "for i = 0 .. n-1: H <- compress(H,
data[64i .. 64i+64])" (R124). -/
def compressLoop (H : HashWords) (data : List Byte) (n : Nat) : HashWords :=
  (List.range n).foldl (fun H i => compress H (slice data (64 * i) (64 * i + 64))) H

/-- `raw_finish(H, CNT, data)` as R129 writes it: the leading whole blocks, then the padded remainder. -/
def rawFinishLoop (H : HashWords) (cnt : Nat) (data : List Byte) : List Byte :=
  let n := data.length
  let q := 64 * (n / 64)
  let P := pad (slice data q n) (cnt + n)
  digestBytes (compressLoop (compressLoop H (slice data 0 q) (q / 64)) P (P.length / 64))

/-- The number that bytes stand for, most significant byte first (R50). -/
def bigEndian (bytes : List Byte) : Nat := bytes.foldl (fun n b => 256 * n + b.toNat) 0

/-- A message with its padding (R127 applied to a whole message): 0x80, zeros up to 8 bytes before a
multiple of 64, and the bit length. -/
def paddedMessage (msg : List Byte) : List Byte :=
  msg ++ [0x80] ++ zeros ((119 - msg.length % 64) % 64) ++ be64 (8 * msg.length)

/-- The SHA-256 digest of a message of fewer than 2^61 bytes: all blocks of the padded message
compressed from the initial constants (R123, R127, R130). -/
def sha256 (msg : List Byte) : List Byte := digestBytes (absorb IV (paddedMessage msg))

/-- Macro-round `m`: two rounds without moving words (R202). -/
def macroRound (sb : Vector (Vector Word 256) 4) (sk : Vector Word 40) (R : Quad) (m : Nat) : Quad :=
  let F := roundF sb sk R.r0 R.r1 (2 * m)
  let r2 := rotr (R.r2 ^^^ F.1) 1
  let r3 := rotl R.r3 1 ^^^ F.2
  let G := roundF sb sk r2 r3 (2 * m + 1)
  { r0 := rotr (R.r0 ^^^ G.1) 1, r1 := rotl R.r1 1 ^^^ G.2, r2 := r2, r3 := r3 }

/-- The inverse of macro-round `m`: the second line's inverse before the first's (R202). -/
def macroRoundInverse (sb : Vector (Vector Word 256) 4) (sk : Vector Word 40) (R : Quad) (m : Nat) :
    Quad :=
  let G := roundF sb sk R.r2 R.r3 (2 * m + 1)
  let r0 := rotl R.r0 1 ^^^ G.1
  let r1 := rotr (R.r1 ^^^ G.2) 1
  let F := roundF sb sk r0 r1 (2 * m)
  { r0 := r0, r1 := r1, r2 := rotl R.r2 1 ^^^ F.1, r3 := rotr (R.r3 ^^^ F.2) 1 }

/-- Decryption in macro-round form: macro-rounds 7 down to 0 (R202). -/
def decryptMacro (sb : Vector (Vector Word 256) 4) (sk : Vector Word 40) (block : List Byte) :
    List Byte :=
  let C := loadBlock block
  let R := (List.range 8).reverse.foldl (macroRoundInverse sb sk)
    { r0 := C.r2 ^^^ subkey sk 6, r1 := C.r3 ^^^ subkey sk 7,
      r2 := C.r0 ^^^ subkey sk 4, r3 := C.r1 ^^^ subkey sk 5 }
  storeBlock (whiten sk 0 R)

/-- Encryption in macro-round form (R202). -/
def encryptMacro (sb : Vector (Vector Word 256) 4) (sk : Vector Word 40) (block : List Byte) :
    List Byte :=
  let R := (List.range 8).foldl (macroRound sb sk) (whiten sk 0 (loadBlock block))
  storeBlock
    { r0 := R.r2 ^^^ subkey sk 4, r1 := R.r3 ^^^ subkey sk 5,
      r2 := R.r0 ^^^ subkey sk 6, r3 := R.r1 ^^^ subkey sk 7 }

/-- A hexadecimal digit, upper case. -/
def hexChar (d : BitVec 4) : Char :=
  if d.toNat < 10 then Char.ofNat (48 + d.toNat) else Char.ofNat (55 + d.toNat)

/-- Bytes as hexadecimal digit pairs, each pair followed by a space (R98). -/
def hexChars (bytes : List Byte) : List Char :=
  bytes.flatMap fun b => [hexChar (b.extractLsb' 4 4), hexChar (b.extractLsb' 0 4), ' ']

/-- The characters of ASCII codes (R98). -/
def asciiChars (codes : List (BitVec 7)) : List Char := codes.map fun c => Char.ofNat c.toNat

/-- A decimal digit. -/
def decimalChar (d : Fin 10) : Char := Char.ofNat (48 + d.val)

/-- The number that decimal digits spell. -/
def decimalValue (ds : List (Fin 10)) : Nat := ds.foldl (fun n d => 10 * n + d.val) 0

/-- A term of a byte-string expression as it is written (R98); the counts of `rep` are their decimal
digits. -/
inductive TextTerm where
  /-- `x"..."`. -/
  | hex (bytes : List Byte)
  /-- `"..."`. -/
  | ascii (codes : List (BitVec 7))
  /-- `rep(b, n)`. -/
  | rep (b : Byte) (n : List (Fin 10))
  /-- `rep(b, 2^e)`. -/
  | repPow (b : Byte) (e : List (Fin 10))
  deriving DecidableEq, Repr

/-- A term that can be written: no quote character inside quotes (its code is 34), and a number has a
digit. -/
def TextTerm.writable : TextTerm → Bool
  | .hex _ => true
  | .ascii codes => !codes.contains 34
  | .rep _ n => !n.isEmpty
  | .repPow _ e => !e.isEmpty

/-- The characters of a term (R98). -/
def TextTerm.chars : TextTerm → List Char
  | .hex bytes => ['x', '"'] ++ hexChars bytes ++ ['"']
  | .ascii codes => ['"'] ++ asciiChars codes ++ ['"']
  | .rep b n =>
    ['r', 'e', 'p', '(', '0', 'x', hexChar (b.extractLsb' 4 4), hexChar (b.extractLsb' 0 4), ',', ' '] ++
      n.map decimalChar ++ [')']
  | .repPow b e =>
    ['r', 'e', 'p', '(', '0', 'x', hexChar (b.extractLsb' 4 4), hexChar (b.extractLsb' 0 4), ',', ' ', '2',
      '^'] ++ e.map decimalChar ++ [')']

/-- The bytes that R98 says a term means. -/
def TextTerm.bytes : TextTerm → List Byte
  | .hex bytes => bytes
  | .ascii codes => codes.map (·.setWidth 8)
  | .rep b n => List.replicate (decimalValue n) b
  | .repPow b e => List.replicate (2 ^ decimalValue e) b

/-- The characters of a first term and the ones joined behind it by `++` (R98). -/
def exprChars : TextTerm → List TextTerm → List Char
  | t, [] => t.chars
  | t, u :: us => t.chars ++ [' ', '+', '+', ' '] ++ exprChars u us

/-- A descriptor as 18 hexadecimal digits (R98). -/
def descChars (d : Desc) : List Char :=
  (List.range 18).map fun i => hexChar (d.extractLsb' (4 * (17 - i)) 4)

/-- The mnemonics that take an operand (R92, R99), each with the line it stands for. -/
def operandLines : List (List Char × (ByteExpr → AsmLine)) :=
  [(['S', 'H', 'A', '.', 'U', 'P', 'D', 'A', 'T', 'E'], .shaUpdate),
   (['S', 'H', 'A', '.', 'F', 'I', 'N', 'I', 'S', 'H'], fun e => .shaFinish (some e)),
   (['S', 'H', 'A', '.', 'H', 'A', 'S', 'H'], .shaHash),
   (['S', 'H', 'A', 'B', '.', 'U', 'P', 'D', 'A', 'T', 'E'], .shabUpdate),
   (['S', 'H', 'A', 'B', '.', 'F', 'I', 'N', 'I', 'S', 'H'], fun e => .shabFinish (some e)),
   (['T', 'F', '.', 'K', 'E', 'Y', '1', '2', '8'], .tfKey128),
   (['T', 'F', '.', 'K', 'E', 'Y', '1', '9', '2'], .tfKey192),
   (['T', 'F', '.', 'K', 'E', 'Y', '2', '5', '6'], .tfKey256),
   (['T', 'F', '.', 'K', 'E', 'Y'], .tfKey),
   (['T', 'F', '.', 'E', 'N', 'C'], .tfEnc),
   (['T', 'F', '.', 'D', 'E', 'C'], .tfDec)]

/-- The lines of the format L commands, each with its command (R91, R98). -/
def formatLLines : List ((ByteExpr → AsmLine) × FormatL) :=
  [(.shaUpdate, .shaUpdate), (fun e => .shaFinish (some e), .shaFinish), (.shaHash, .shaHash),
   (.shabUpdate, .shabUpdate), (fun e => .shabFinish (some e), .shabFinish),
   (.tfKey128, .tfKey128), (.tfKey192, .tfKey192), (.tfKey256, .tfKey256)]

/-- The lines of the format B commands, each with its command (R91, R98). -/
def formatBLines : List ((ByteExpr → AsmLine) × Instr) := [(.tfEnc, .tfEnc), (.tfDec, .tfDec)]

/-- The bytes that a line's expression means; none where the line has no expression (R98, R99). -/
def AsmLine.operandBytes : AsmLine → List Byte
  | .shaInit => []
  | .shaUpdate e => e.eval
  | .shaFinish none => []
  | .shaFinish (some e) => e.eval
  | .shaHash e => e.eval
  | .shabInit => []
  | .shabUpdate e => e.eval
  | .shabFinish none => []
  | .shabFinish (some e) => e.eval
  | .tfKey128 e => e.eval
  | .tfKey192 e => e.eval
  | .tfKey256 e => e.eval
  | .tfKey e => e.eval
  | .tfEnc e => e.eval
  | .tfDec e => e.eval
  | .rawDesc _ => []

/-- What may stand behind a line: any number of spaces, and a comment or nothing (R98). -/
def lineEnd (spaces : Nat) (comment : Option (List Char)) : List Char :=
  List.replicate spaces ' ' ++
    match comment with
    | none => []
    | some c => ';' :: c

end Sys2Proof.Machine
end

