-- ==== Sys2Proof/Certificates/Slice0/Obligations.lean ====
section
/-! DEFINITION. The statements about the core that the provers prove, listed in OBLIGATIONS.json. Each
docstring names the rules of spec/ that the statement formalises. Where a statement names the fields
`input`, `payload` and `draws`, it speaks of the model's own representation of the command port, of the
payload and of the free values (DESIGN CHOICE, assumption log 5, 6, 7), which no rule of spec/ names. -/

section

open Sys2Proof Sys2Proof.Machine

/-! ### Reset and the invariant -/

/-- The reset state's flag bits, `CAUSE` and `FCMD` are 0, `STATUS` and `FAULT` read 0 (R40). The data
words, which R40 leaves unspecified, are not mentioned. -/
def Obligations.ResetStateHasEveryFlagClear : Prop :=
  State.reset.raw.rvalid = false ∧ State.reset.buf.bvalid = false ∧ State.reset.ctx.cvalid = false ∧
  State.reset.dig.dvalid = false ∧ State.reset.blk.ovalid = false ∧ State.reset.flt.faulted = false ∧
  State.reset.flt.cause = 0 ∧ State.reset.flt.fcmd = 0 ∧
  State.reset.status = 0 ∧ State.reset.faultReg = 0

/-- The invariant of R38 holds after reset; its last clause, that no payload stands in the model's field,
is the model's own (assumption log 7). -/
def Obligations.ResetStateMeetsInvariant : Prop := State.reset.Inv

/-- Every step, whatever the host presents, keeps the invariant of R38, and the model's own clause that no
payload stays behind (assumption log 7). -/
def Obligations.EveryStepKeepsInvariant : Prop :=
  ∀ s t : State, s.Inv → step s = .next t → t.Inv

/-- The reset event (R250): the flag bits and the fault registers become 0 in every state, faulted or
not; without an event nothing changes; and no command clears `FAULTED`. -/
def Obligations.ResetEventClearsFlagsAndFault : Prop :=
  (∀ (s : State) (rest : List HostEvent), s.input = .reset :: rest →
    ∃ t, step s = .next t ∧ t.raw.rvalid = false ∧ t.buf.bvalid = false ∧ t.ctx.cvalid = false ∧
      t.dig.dvalid = false ∧ t.blk.ovalid = false ∧
      t.flt = { faulted := false, cause := 0, fcmd := 0 }) ∧
  (∀ s : State, s.input = [] → step s = .next s) ∧
  (∀ (s t : State) (c : Command) (rest : List HostEvent),
    s.input = .command c :: rest → step s = .next t → s.flt.faulted = true → t.flt.faulted = true)

/-- What the host must do after reset (R252): without an INIT the slots' commands fault, without a key
the block transforms fault, `SHA.HASH` needs nothing. -/
def Obligations.LifecyclesAfterResetEvent : Prop :=
  ∀ (s : State) (c : Command) (msg : Payload), msg.len.toNat < 2 ^ 61 →
    ((∃ len, decode c.desc = .ok (.shaUpdate len) ∨ decode c.desc = .ok (.shaFinish len) ∨
        decode c.desc = .ok (.shabUpdate len) ∨ decode c.desc = .ok (.shabFinish len)) →
      ∃ t, runEvents 2 { s with input := [.reset, .command c] } = .next t ∧
        t.flt = { faulted := true, cause := 2, fcmd := c.desc }) ∧
    (decode c.desc = .ok .tfEnc ∨ decode c.desc = .ok .tfDec →
      ∃ t, runEvents 2 { s with input := [.reset, .command c] } = .next t ∧
        t.flt = { faulted := true, cause := 3, fcmd := c.desc }) ∧
    ∃ t, runEvents 2 { s with input := [.reset, .command (.withData .shaHash msg)] } = .next t ∧
      t.flt.faulted = false ∧ t.dig.dvalid = true ∧ t.dig.digest.toList = sha256 msg.bytes

/-! ### Encoding -/

/-- Encoding and decoding agree for every command, through the 72-bit descriptor, its 9 serialised
bytes, and the numbering of the opcode table (R90, R92, R96, R100; the numbering, assumption log 11). -/
def Obligations.DecodeOfEncodeIsTheCommand : Prop :=
  ∀ i : Instr, decode (encode i) = .ok i ∧
    (descBytes (encode i)).length = 9 ∧
    (descOfBytes (descBytes (encode i))).map decode = some (.ok i) ∧
    decodeTableWord 72 (encode i).toNat = some i

/-- No descriptor but its own decodes to a command, and no descriptor has two serialised forms. -/
def Obligations.EncodeOfDecodeIsTheDescriptor : Prop :=
  (∀ (d : Desc) (i : Instr), decode d = .ok i → encode i = d) ∧
  ∀ (bytes : List Byte) (d : Desc), descOfBytes bytes = some d ↔ descBytes d = bytes

/-- The opcode map (R92): a descriptor decodes to a command exactly when it selects the row with the
command's mnemonic, and the rows are mutually exclusive. -/
def Obligations.OpcodeMapSelectsTheCommand : Prop :=
  (∀ (d : Desc) (row : OpcodeRow), row ∈ opcodeMap →
    (row.selects d = true ↔ ∃ i, decode d = .ok i ∧ i.mnemonic = row.mnemonic)) ∧
  opcodeMap.length = 12 ∧
  opcodeMap.Pairwise fun a b => ∀ d : Desc, ¬ (a.selects d = true ∧ b.selects d = true)

/-- The illegal descriptors are those of R95 (a), (b), (c), and one of them raises `ILLEGAL_CMD`, with
any payload, and changes nothing else (R95, R216). -/
def Obligations.IllegalDescriptorFaults : Prop :=
  (∀ d : Desc, (∃ r, decode d = .error r) ↔
    (descOp d ∉ ([0x10, 0x11, 0x12, 0x13, 0x20, 0x21, 0x22, 0x40, 0x41, 0x42, 0x48, 0x49] :
      List (BitVec 8)) ∨
    ((descOp d = 0x10 ∨ descOp d = 0x20) ∧ descLen d ≠ 0) ∨
    ((descOp d = 0x48 ∨ descOp d = 0x49) ∧ descLen d ≠ 16))) ∧
  (∀ d : Desc, (∃ r, decode d = .error r) ↔ ∀ row ∈ opcodeMap, row.selects d = false) ∧
  ∀ (d : Desc) (r : DecodeReject), decode d = .error r → ∀ payload : Payload,
    ∃ c : Command, c.desc = d ∧ c.payload = payload ∧
      ∀ (s : State) (rest : List HostEvent), s.flt.faulted = false → s.input = .command c :: rest →
        step s = .next { s with
          flt := { faulted := true, cause := 1, fcmd := d }, input := rest, payload := .empty }

/-- One descriptor of each format and unit, written out bit by bit from the table of R92. -/
def Obligations.WordsDecodeAsTheTableSays : Prop :=
  decode 0b00010000_00000000_00000000_00000000_00000000_00000000_00000000_00000000_00000000#72
    = .ok .shaInit ∧
  decode 0b00010001_00000000_00000000_00000000_00000000_00000000_00000000_00000000_01000000#72
    = .ok (.shaUpdate 64) ∧
  decode 0b00100010_00000000_00000000_00000000_00000000_00000000_00000000_00000001_00000011#72
    = .ok (.shabFinish 259) ∧
  decode 0b01000010_00000000_00000000_00000000_00000000_00000000_00000000_00000000_00100000#72
    = .ok (.tfKey256 32) ∧
  decode 0b01001001_00000000_00000000_00000000_00000000_00000000_00000000_00000000_00010000#72
    = .ok .tfDec ∧
  decode 0b01001001_00000000_00000000_00000000_00000000_00000000_00000000_00000000_00010001#72
    = .error (.formatBLength 0x49 17)

/-- A line that assembles emits the descriptor `{OP, LEN}` with `LEN` the number of its bytes, and then the
bytes, so that the host can present them as a command (R98, R94); `TF.ENC` and `TF.DEC` assemble with 16
bytes and are refused with any other number (R98); the pseudo-commands expand as R99 says, and `TF.KEY` is
refused with other than 16, 24 or 32 bytes; `.desc` emits its descriptor without a payload. A format L line
of 2^64 bytes or more does not assemble (the model's choice, assumption log 15). -/
def Obligations.AssembledLinesAreWellFormed : Prop :=
  (∀ (line : AsmLine) (d : Desc) (p : Payload), assemble line = .ok (d, p) → p.bytes = line.operandBytes ∧
    ((∀ d, line ≠ .rawDesc d) →
      (∃ i, d = encode i ∧ p.bytes.length = i.payloadLen.toNat) ∧
      ∃ c : Command, presentEmitted [(d, p)] = some [.command c] ∧ c.desc = d ∧ c.payload = p)) ∧
  (∀ d : Desc, assemble (.rawDesc d) = .ok (d, .empty)) ∧
  assemble .shaInit = .ok (encode .shaInit, .empty) ∧ assemble .shabInit = .ok (encode .shabInit, .empty) ∧
  assemble (.shaFinish none) = assemble (.shaFinish (some (.hex []))) ∧
  assemble (.shabFinish none) = assemble (.shabFinish (some (.hex []))) ∧
  ∀ e : ByteExpr, let n := e.eval.length
    (∀ m ∈ formatLLines,
      (n < 2 ^ 64 → ∃ p : Payload, p.bytes = e.eval ∧
        assemble (m.1 e) = .ok (encode (m.2.instr (BitVec.ofNat 64 n)), p)) ∧
      (n ≥ 2 ^ 64 → assemble (m.1 e) = .error .lengthField)) ∧
    (∀ m ∈ formatBLines,
      (n = 16 → ∃ p : Payload, p.bytes = e.eval ∧ assemble (m.1 e) = .ok (encode m.2, p)) ∧
      (n ≠ 16 → assemble (m.1 e) = .error .blockLength)) ∧
    (n = 16 → assemble (.tfKey e) = assemble (.tfKey128 e)) ∧
    (n = 24 → assemble (.tfKey e) = assemble (.tfKey192 e)) ∧
    (n = 32 → assemble (.tfKey e) = assemble (.tfKey256 e)) ∧
    (n ≠ 16 → n ≠ 24 → n ≠ 32 → assemble (.tfKey e) = .error .keyLength)

/-- An operand line is its mnemonic and any number of terms joined by `++`, each of them `x"..."`, `"..."`,
`rep(b, n)` with a decimal count or `rep(b, 2^e)`. It is read as that mnemonic's line, with an operand
that stands for the bytes R98 gives the terms, one after the other; a comment behind it is dropped (R98).
How the text is laid out (blanks, two digits of the byte of `rep`, digit case, a semicolon inside quotes
starting no comment, no quote character inside quotes) is the model's choice (assumption log 15). -/
def Obligations.OperandTextIsRead : Prop :=
  ∀ m ∈ operandLines, ∀ (t : TextTerm) (ts : List TextTerm) (comment : List Char),
    (∀ u ∈ t :: ts, u.writable = true) →
    ∃ e : ByteExpr, e.eval = (t :: ts).flatMap TextTerm.bytes ∧
      parseLine (m.1 ++ [' '] ++ exprChars t ts) = .ok (some (m.2 e)) ∧
      parseLine (m.1 ++ [' '] ++ exprChars t ts ++ [';'] ++ comment) = .ok (some (m.2 e))

/-! ### The step, its responses and its faults -/

/-- A step takes the next host command, runs its decoding on its payload, and keeps no payload behind
(R19, R94, R100; the input list and the payload field are the model's, assumption log 6 and 7). -/
def Obligations.StepRunsTheDecodedCommand : Prop :=
  ∀ (s : State) (c : Command) (rest : List HostEvent) (i : Instr),
    s.input = .command c :: rest → decode c.desc = .ok i →
    step s =
      match exec i { s with input := rest, payload := c.payload } with
      | .next t => .next { t with payload := .empty }
      | .fault r => .fault r
      | .refused r => .refused r

/-- Every event the host can present is answered by a next state: every command terminates and the core
never blocks (R101, R94). -/
def Obligations.EveryEventIsAnswered : Prop :=
  ∀ s : State, ∃ t, step s = .next t ∧
    ∀ (e : HostEvent) (rest : List HostEvent), s.input = e :: rest →
      t.input = rest ∧ (s.payload = .empty → t.payload = .empty)

/-- Where the model stops, and why: the meaning of a legal command stops, before anything else and in every
state, exactly where the payload field does not hold `LEN` bytes, to which the spec gives no meaning (R94;
assumption log 8). No step comes to it. -/
def Obligations.OnlyPayloadMismatchStops : Prop :=
  (∀ (i : Instr) (s : State),
    (s.payload.bytes.length = i.payloadLen.toNat → ∃ t, exec i s = .next t) ∧
    (s.payload.bytes.length ≠ i.payloadLen.toNat → exec i s = .fault .payloadMismatch)) ∧
  (∀ (d : Desc) (r : DecodeReject) (s : State), decode d = .error r → ∃ t, execDesc d s = .next t) ∧
  ∀ (s : State) (r : Fault) (r' : Refusal), step s ≠ .fault r ∧ step s ≠ .refused r'

/-- The three ways a command can end, and what each leaves (R102). -/
def Obligations.ResponseTellsHowACommandEnded : Prop :=
  ∀ (s t : State) (c : Command) (rest : List HostEvent),
    s.input = .command c :: rest → step s = .next t →
    (responseOf s t = .done ↔ s.flt.faulted = false ∧ t.flt.faulted = false) ∧
    (responseOf s t = .fault ↔ s.flt.faulted = false ∧ t.flt.faulted = true) ∧
    (responseOf s t = .refused ↔ s.flt.faulted = true) ∧
    (responseOf s t = .done → t.flt = s.flt ∧ ∃ i u, decode c.desc = .ok i ∧
      exec i (s.accept c.payload rest) = .next u ∧ t = { u with payload := .empty }) ∧
    (responseOf s t = .fault → ∃ cause : Cause, t = { s with
      flt := { faulted := true, cause := cause.code, fcmd := c.desc }, input := rest, payload := .empty }) ∧
    (responseOf s t = .refused → t = { s with input := rest, payload := .empty })

/-- Fault entry and precision (R222, R223): a command that faults writes `FAULTED`, `CAUSE` and `FCMD`
and nothing else. -/
def Obligations.FaultsChangeOnlyTheFaultRegisters : Prop :=
  ∀ s t : State, step s = .next t → s.flt.faulted = false → t.flt.faulted = true →
    ∃ (c : Command) (rest : List HostEvent) (cause : Cause), s.input = .command c :: rest ∧
      1 ≤ cause.code.toNat ∧ cause.code.toNat ≤ 6 ∧
      t = { s with
        flt := { faulted := true, cause := cause.code, fcmd := c.desc }, input := rest, payload := .empty }

/-- The faulted state (R225): any number of commands, legal or not, change nothing at all; reset is the
way out and discards every accumulator and the context. -/
def Obligations.FaultedCoreRefusesEveryCommand : Prop :=
  (∀ (n : Nat) (s : State), s.flt.faulted = true → s.payload = .empty →
    (∀ e ∈ s.input.take n, e ≠ .reset) →
    runEvents n s = .next { s with input := s.input.drop n }) ∧
  ∀ (s : State) (rest : List HostEvent), s.flt.faulted = true → s.input = .reset :: rest →
    ∃ t, step s = .next t ∧ t.flt.faulted = false ∧ t.raw.live = none ∧ t.buf.live = none ∧
      t.ctx.live = none

/-- Which cause a command raises (R215 to R221) and which of several is reported (R224). -/
def Obligations.CausesAreRaisedInPriorityOrder : Prop :=
  ∀ (c : Command) (s : State), s.payload = c.payload →
    (s.flt.faulted = true → execDesc c.desc s = .next s) ∧
    (s.flt.faulted = false → ∀ cause : Cause,
      (execDesc c.desc s =
          .next { s with flt := { faulted := true, cause := cause.code, fcmd := c.desc } } ↔
        cause.condition c.desc s ∧
          ∀ other : Cause, other.priority < cause.priority → ¬ other.condition c.desc s))

/-- The codes of the causes, in the order of the table (R215). -/
def Obligations.CauseCodes : Prop :=
  [Cause.illegalCmd, .slotInvalid, .noContext, .lenMisaligned, .limitExceeded, .keySize].map Cause.code
    = [1, 2, 3, 4, 5, 6]

/-! ### Status registers, flags, and who writes what -/

/-- The layout of `STATUS` and `FAULT` and their register numbers (R33, R34). -/
def Obligations.StatusRegistersShowFlagsAndFault : Prop :=
  ∀ s : State,
    s.status.getLsbD 0 = s.raw.rvalid ∧ s.status.getLsbD 1 = s.buf.bvalid ∧
    s.status.getLsbD 2 = s.ctx.cvalid ∧ s.status.getLsbD 3 = s.dig.dvalid ∧
    s.status.getLsbD 4 = s.blk.ovalid ∧ s.status.getLsbD 5 = s.flt.faulted ∧
    s.status.getLsbD 6 = false ∧ s.status.getLsbD 7 = false ∧
    s.faultReg.extractLsb' 0 8 = s.flt.cause ∧ s.faultReg.extractLsb' 8 72 = s.flt.fcmd ∧
    StatusReg.status.number = 0 ∧ StatusReg.fault.number = 1 ∧
    (StatusReg.status.read s).toNat = s.status.toNat ∧ StatusReg.fault.read s = s.faultReg

/-- Which command can set and which can clear each flag bit: the "set by" and "cleared by" columns of
R33. -/
def Obligations.FlagsChangeOnlyAsTheStatusTableSays : Prop :=
  ∀ (s t : State) (c : Command) (rest : List HostEvent),
    s.input = .command c :: rest → step s = .next t →
    (s.raw.rvalid = false → t.raw.rvalid = true → decode c.desc = .ok .shaInit) ∧
    (s.raw.rvalid = true → t.raw.rvalid = false → ∃ len, decode c.desc = .ok (.shaFinish len)) ∧
    (s.buf.bvalid = false → t.buf.bvalid = true → decode c.desc = .ok .shabInit) ∧
    (s.buf.bvalid = true → t.buf.bvalid = false → ∃ len, decode c.desc = .ok (.shabFinish len)) ∧
    (s.ctx.cvalid = false → t.ctx.cvalid = true → ∃ len, decode c.desc = .ok (.tfKey128 len) ∨
      decode c.desc = .ok (.tfKey192 len) ∨ decode c.desc = .ok (.tfKey256 len)) ∧
    (s.ctx.cvalid = true → t.ctx.cvalid = true) ∧
    (s.dig.dvalid = false → t.dig.dvalid = true → ∃ len, decode c.desc = .ok (.shaFinish len) ∨
      decode c.desc = .ok (.shabFinish len) ∨ decode c.desc = .ok (.shaHash len)) ∧
    (s.dig.dvalid = true → t.dig.dvalid = true) ∧
    (s.blk.ovalid = false → t.blk.ovalid = true → decode c.desc = .ok .tfEnc ∨ decode c.desc = .ok .tfDec) ∧
    (s.blk.ovalid = true → t.blk.ovalid = true) ∧
    (s.flt.faulted = true → t.flt.faulted = true)

/-- The "w" entries of the access table (R39): a command changes no slot, no context and no output
register but those its row marks; so `SB`, `SK` change only by a TF.KEY command (R28, R29), `DIGEST`
only by a FINISH or `SHA.HASH` (R31), `BLKOUT` only by `TF.ENC` or `TF.DEC` (R32), and the two hash
slots only by their own commands (R25). -/
def Obligations.CommandsWriteOnlyWhatTheTableMarks : Prop :=
  ∀ (i : Instr) (s t : State), exec i s = .next t →
    (t.raw ≠ s.raw → ∃ len, i = .shaInit ∨ i = .shaUpdate len ∨ i = .shaFinish len) ∧
    (t.buf ≠ s.buf → ∃ len, i = .shabInit ∨ i = .shabUpdate len ∨ i = .shabFinish len) ∧
    (t.buf.bbuf ≠ s.buf.bbuf → ∃ len, i = .shabUpdate len ∨ i = .shabFinish len) ∧
    (t.ctx ≠ s.ctx → ∃ len, i = .tfKey128 len ∨ i = .tfKey192 len ∨ i = .tfKey256 len) ∧
    (t.dig ≠ s.dig → ∃ len, i = .shaFinish len ∨ i = .shabFinish len ∨ i = .shaHash len) ∧
    (t.blk ≠ s.blk → i = .tfEnc ∨ i = .tfDec) ∧
    t.input = s.input ∧ t.payload = s.payload ∧
    (t.flt ≠ s.flt → t = { s with flt := t.flt })

/-- No element is read while it is unspecified (R41): two states that say the same answer the same over
any number of events, whatever their unspecified and unguarded elements hold. -/
def Obligations.UnspecifiedElementsAreNeverRead : Prop :=
  ∀ (n : Nat) (s s' : State), s.observe = s'.observe → s.input = s'.input → s.payload = s'.payload →
    match runEvents n s, runEvents n s' with
    | .next t, .next t' => t.observe = t'.observe ∧ t.input = t'.input ∧ t.payload = t'.payload
    | .fault r, .fault r' => r = r'
    | .refused r, .refused r' => r = r'
    | .next _, .fault _ => False
    | .next _, .refused _ => False
    | .fault _, .next _ => False
    | .fault _, .refused _ => False
    | .refused _, .next _ => False
    | .refused _, .fault _ => False

/-- The slots never interact (R156): leaving out every other command from a sequence that ends without a
fault gives the same BUF accumulator, and the same `DIGEST` when none of the left-out commands writes
it; and the same with the RAW slot. -/
def Obligations.SlotsAreIndependent : Prop :=
  ∀ (p : Instr → Bool), p = Instr.namesBuf ∨ p = Instr.namesRaw →
  ∀ (s t : State) (es : List HostEvent), s.payload = .empty →
    (∀ e ∈ es, e ≠ .reset) →
    runEvents es.length { s with input := es } = .next t → t.flt.faulted = false →
    let own := es.filter (HostEvent.isCommandThat p)
    ∃ u, runEvents own.length { s with input := own } = .next u ∧ u.flt.faulted = false ∧
      (p = Instr.namesBuf → u.buf.live = t.buf.live) ∧
      (p = Instr.namesRaw → u.raw.live = t.raw.live) ∧
      ((∀ e ∈ es, e.isCommandThat Instr.writesDigest = true → e.isCommandThat p = true) →
        u.dig.live = t.dig.live)

/-! ### The raw hash -/

/-- The message schedule (R121). -/
def Obligations.ScheduleFollowsTheRecurrence : Prop :=
  ∀ blk : List Byte, (schedule blk).length = 64 ∧
    (∀ t, t < 16 → (schedule blk).getD t 0 = BE32 blk (4 * t)) ∧
    ∀ t, 16 ≤ t → t < 64 →
      (schedule blk).getD t 0 = ssig1 ((schedule blk).getD (t - 2) 0) + (schedule blk).getD (t - 7) 0 +
        ssig0 ((schedule blk).getD (t - 15) 0) + (schedule blk).getD (t - 16) 0

/-- Compression (R122, R123): there are 65 sets of working variables, the first the state words, each
next one made by a round; the last is added into the state words. -/
def Obligations.CompressRunsSixtyFourRounds : Prop :=
  ∀ (H : HashWords) (blk : List Byte), ∃ v : Nat → WorkVars,
    v 0 = { a := H[0], b := H[1], c := H[2], d := H[3], e := H[4], f := H[5], g := H[6], h := H[7] } ∧
    (∀ t, t < 64 →
      let T1 := (v t).h + bsig1 (v t).e + Ch (v t).e (v t).f (v t).g + K t + (schedule blk).getD t 0
      let T2 := bsig0 (v t).a + Maj (v t).a (v t).b (v t).c
      v (t + 1) = { a := T1 + T2, b := (v t).a, c := (v t).b, d := (v t).c, e := (v t).d + T1,
                    f := (v t).e, g := (v t).f, h := (v t).g }) ∧
    compress H blk = #v[H[0] + (v 64).a, H[1] + (v 64).b, H[2] + (v 64).c, H[3] + (v 64).d,
      H[4] + (v 64).e, H[5] + (v 64).f, H[6] + (v 64).g, H[7] + (v 64).h]

/-- Padding (R127): one block for a remainder of up to 55 bytes, else two; the remainder, 0x80, zeros,
and the bit length in the last 8 bytes, most significant byte first. -/
def Obligations.PaddingEndsWithTheBitLength : Prop :=
  ∀ (rem : List Byte) (total : Nat), rem.length ≤ 63 → total < 2 ^ 61 →
    let P := pad rem total
    let n := if rem.length ≤ 55 then 64 else 128
    P.length = n ∧ P.take rem.length = rem ∧ P[rem.length]? = some 0x80 ∧
    (∀ j, rem.length < j → j < n - 8 → P[j]? = some 0) ∧
    bigEndian (P.drop (n - 8)) = 8 * total

/-- `SHA.INIT` (R125): an empty accumulator, whatever the slot held; nothing else changes. -/
def Obligations.ShaInitCreatesAnEmptyAccumulator : Prop :=
  encode .shaInit = 0x100000000000000000 ∧
  ∀ s : State, s.flt.faulted = false → s.payload = .empty →
    exec .shaInit s = .next { s with raw := { rh := IV, rcnt := 0, rvalid := true } }

/-- `SHA.UPDATE` (R126 with `raw_update`, R124): its faults in test order, and the blocks of the payload
compressed lowest offset first; nothing else changes. -/
def Obligations.ShaUpdateAbsorbsWholeBlocks : Prop :=
  ∀ len : BitVec 64,
    descOp (encode (.shaUpdate len)) = 0x11 ∧ descLen (encode (.shaUpdate len)) = len ∧
    ∀ s : State, s.flt.faulted = false → s.payload.len = len →
    (s.raw.rvalid = false →
      exec (.shaUpdate len) s = .next (s.enterFault .slotInvalid (encode (.shaUpdate len)))) ∧
    (s.raw.rvalid = true → len.toNat % 64 ≠ 0 →
      exec (.shaUpdate len) s = .next (s.enterFault .lenMisaligned (encode (.shaUpdate len)))) ∧
    (s.raw.rvalid = true → len.toNat % 64 = 0 → s.raw.rcnt.toNat + len.toNat ≥ 2 ^ 61 →
      exec (.shaUpdate len) s = .next (s.enterFault .limitExceeded (encode (.shaUpdate len)))) ∧
    (s.raw.rvalid = true → len.toNat % 64 = 0 → s.raw.rcnt.toNat + len.toNat < 2 ^ 61 →
      exec (.shaUpdate len) s = .next { s with
        raw := { rh := compressLoop s.raw.rh s.payload.bytes (len.toNat / 64),
                 rcnt := s.raw.rcnt + len, rvalid := true } })

/-- `SHA.FINISH` (R128 with `raw_finish`, R129): its faults in test order, and the digest put out, the
slot consumed. The slot's words afterwards are not mentioned (R42); nothing else changes but the model's
counter of free values (assumption log 5). -/
def Obligations.ShaFinishPutsOutTheDigest : Prop :=
  ∀ len : BitVec 64,
    descOp (encode (.shaFinish len)) = 0x12 ∧ descLen (encode (.shaFinish len)) = len ∧
    ∀ s : State, s.flt.faulted = false → s.payload.len = len →
    (s.raw.rvalid = false →
      exec (.shaFinish len) s = .next (s.enterFault .slotInvalid (encode (.shaFinish len)))) ∧
    (s.raw.rvalid = true → s.raw.rcnt.toNat + len.toNat ≥ 2 ^ 61 →
      exec (.shaFinish len) s = .next (s.enterFault .limitExceeded (encode (.shaFinish len)))) ∧
    (s.raw.rvalid = true → s.raw.rcnt.toNat + len.toNat < 2 ^ 61 →
      ∃ t, exec (.shaFinish len) s = .next t ∧
        t.dig.digest.toList = rawFinishLoop s.raw.rh s.raw.rcnt.toNat s.payload.bytes ∧
        t.dig.dvalid = true ∧ t.raw.rvalid = false ∧
        t = { s with raw := t.raw, dig := t.dig, draws := t.draws })

/-- `SHA.HASH` (R141): its one fault, and the digest of the payload as a whole message; no slot is read
or written. -/
def Obligations.ShaHashIsTheDigestOfItsPayload : Prop :=
  ∀ len : BitVec 64,
    descOp (encode (.shaHash len)) = 0x13 ∧ descLen (encode (.shaHash len)) = len ∧
    ∀ s : State, s.flt.faulted = false → s.payload.len = len →
    (len.toNat ≥ 2 ^ 61 →
      exec (.shaHash len) s = .next (s.enterFault .limitExceeded (encode (.shaHash len)))) ∧
    (len.toNat < 2 ^ 61 →
      ∃ t, exec (.shaHash len) s = .next t ∧
        t.dig.digest.toList = rawFinishLoop IV 0 s.payload.bytes ∧ t.dig.dvalid = true ∧
        t = { s with dig := t.dig })

/-- `raw_finish` on whole messages (R129, R127): the leading blocks and the padded remainder are
together the padded message. -/
def Obligations.RawFinishIsTheDigestOfThePaddedMessage : Prop :=
  ∀ msg : List Byte, msg.length < 2 ^ 61 → rawFinishLoop IV 0 msg = sha256 msg

/-- What the digest is (R130): `SHA.INIT`, any number of `SHA.UPDATE`s of whole blocks and a
`SHA.FINISH` leave the digest of the concatenated message. That `sha256` is the published standard's
function is not part of the statement. -/
def Obligations.RawSequenceGivesTheMessageDigest : Prop :=
  ∀ (s : State) (chunks : List Payload) (last : Payload), s.flt.faulted = false →
    (∀ c ∈ chunks, c.len.toNat % 64 = 0) →
    let msg := chunks.flatMap (·.bytes) ++ last.bytes
    msg.length < 2 ^ 61 →
    ∃ t, runEvents (chunks.length + 2) { s with
        input := .command (.ofInstr .shaInit .empty rfl) ::
          (chunks.map (fun c => .command (.withData .shaUpdate c)) ++
            [.command (.withData .shaFinish last)]) } = .next t ∧
      t.flt.faulted = false ∧ t.input = [] ∧ t.dig.dvalid = true ∧ t.dig.digest.toList = sha256 msg

/-! ### The buffered hash -/

/-- `SHAB.INIT` (R150): an empty buffered accumulator; the cells of `BBUF` are left as they are. -/
def Obligations.ShabInitCreatesAnEmptyAccumulator : Prop :=
  encode .shabInit = 0x200000000000000000 ∧
  ∀ s : State, s.flt.faulted = false → s.payload = .empty →
    exec .shabInit s = .next { s with
      buf := { bh := IV, bcnt := 0, bbuf := s.buf.bbuf, blen := 0, bvalid := true } }

/-- `SHAB.UPDATE` (R151) in the closed form of R153, and its faults in test order. `BBUF` from `BLEN` on
is not mentioned (R26); nothing else changes but the model's counter of free values (assumption
log 5). -/
def Obligations.ShabUpdateAbsorbsTheStream : Prop :=
  ∀ len : BitVec 64,
    descOp (encode (.shabUpdate len)) = 0x21 ∧ descLen (encode (.shabUpdate len)) = len ∧
    ∀ s : State, s.flt.faulted = false → s.payload.len = len →
    let T := s.buf.blen.toNat + len.toNat
    let F := 64 * (T / 64)
    let stream := s.buf.bbuf.toList.take s.buf.blen.toNat ++ s.payload.bytes
    (s.buf.bvalid = false →
      exec (.shabUpdate len) s = .next (s.enterFault .slotInvalid (encode (.shabUpdate len)))) ∧
    (s.buf.bvalid = true → s.buf.bcnt.toNat + F ≥ 2 ^ 61 →
      exec (.shabUpdate len) s = .next (s.enterFault .limitExceeded (encode (.shabUpdate len)))) ∧
    (s.buf.bvalid = true → s.buf.bcnt.toNat + F < 2 ^ 61 →
      ∃ t, exec (.shabUpdate len) s = .next t ∧
        t.buf.bh = compressLoop s.buf.bh stream (F / 64) ∧
        t.buf.bcnt.toNat = s.buf.bcnt.toNat + F ∧ t.buf.blen.toNat = T - F ∧
        t.buf.bbuf.toList.take t.buf.blen.toNat = stream.drop F ∧ t.buf.bvalid = true ∧
        t = { s with buf := t.buf, draws := t.draws })

/-- `SHAB.FINISH` (R152): its faults in test order, and the digest of the accumulator continued by the
pending bytes and the payload; the slot is consumed. The slot's contents afterwards are not mentioned
(R42). -/
def Obligations.ShabFinishPutsOutTheDigest : Prop :=
  ∀ len : BitVec 64,
    descOp (encode (.shabFinish len)) = 0x22 ∧ descLen (encode (.shabFinish len)) = len ∧
    ∀ s : State, s.flt.faulted = false → s.payload.len = len →
    (s.buf.bvalid = false →
      exec (.shabFinish len) s = .next (s.enterFault .slotInvalid (encode (.shabFinish len)))) ∧
    (s.buf.bvalid = true → s.buf.bcnt.toNat + s.buf.blen.toNat + len.toNat ≥ 2 ^ 61 →
      exec (.shabFinish len) s = .next (s.enterFault .limitExceeded (encode (.shabFinish len)))) ∧
    (s.buf.bvalid = true → s.buf.bcnt.toNat + s.buf.blen.toNat + len.toNat < 2 ^ 61 →
      ∃ t, exec (.shabFinish len) s = .next t ∧
        t.dig.digest.toList = rawFinishLoop s.buf.bh s.buf.bcnt.toNat
          (s.buf.bbuf.toList.take s.buf.blen.toNat ++ s.payload.bytes) ∧
        t.dig.dvalid = true ∧ t.buf.bvalid = false ∧
        t = { s with buf := t.buf, dig := t.dig, draws := t.draws })

/-- Incremental equivalence (R154): a message cut in any way and fed through the buffered unit gives the
digest of `SHA.HASH` of the whole. -/
def Obligations.IncrementalEquivalence : Prop :=
  ∀ (s : State) (chunks : List Payload) (last msg : Payload), s.flt.faulted = false →
    msg.bytes = chunks.flatMap (·.bytes) ++ last.bytes → msg.len.toNat < 2 ^ 61 →
    ∃ t u, runEvents (chunks.length + 2) { s with
        input := .command (.ofInstr .shabInit .empty rfl) ::
          (chunks.map (fun c => .command (.withData .shabUpdate c)) ++
            [.command (.withData .shabFinish last)]) } = .next t ∧
      runEvents 1 { s with input := [.command (.withData .shaHash msg)] } = .next u ∧
      t.flt.faulted = false ∧ u.flt.faulted = false ∧ t.dig.dvalid = true ∧ u.dig.dvalid = true ∧
      t.dig.digest = u.dig.digest

/-- Consume-on-finish (R254, R217): after a FINISH that completed, the slot's next UPDATE or FINISH
faults with `SLOT_INVALID`; after its INIT it can be used again. -/
def Obligations.FinishConsumesTheSlot : Prop :=
  ∀ (s t : State) (len : BitVec 64) (p : Payload), s.flt.faulted = false → t.flt.faulted = false →
    let t' : State := { t with payload := p }
    (exec (.shaFinish len) s = .next t →
      (∀ i ∈ [Instr.shaUpdate p.len, .shaFinish p.len],
        exec i t' = .next (t'.enterFault .slotInvalid (encode i))) ∧
      ∃ u, exec .shaInit { t with payload := .empty } = .next u ∧ u.raw.live = some (IV, 0)) ∧
    (exec (.shabFinish len) s = .next t →
      (∀ i ∈ [Instr.shabUpdate p.len, .shabFinish p.len],
        exec i t' = .next (t'.enterFault .slotInvalid (encode i))) ∧
      ∃ u, exec .shabInit { t with payload := .empty } = .next u ∧ u.buf.live = some (IV, 0, []))

/-- "Updating with zero bytes leaves state and counters unchanged" (R126, R151). -/
def Obligations.EmptyUpdateChangesNothing : Prop :=
  (∀ s : State, s.flt.faulted = false → s.raw.rvalid = true → s.raw.rcnt.toNat < 2 ^ 61 →
    s.payload = .empty → exec (.shaUpdate 0) s = .next s) ∧
  ∀ s : State, s.flt.faulted = false → s.buf.bvalid = true → s.buf.bcnt.toNat < 2 ^ 61 →
    s.payload = .empty → exec (.shabUpdate 0) s = .next s

/-- The ceiling in the buffered unit (R155, R151, R152). On a live slot `SHAB.UPDATE` completes exactly
when `BCNT` and the bytes it flushes stay below 2^61, whatever stays pending, and `SHAB.FINISH` exactly
when the true total does. Where `BCNT` is a multiple of 64, an `SHAB.UPDATE` that completes loses no byte
and leaves at most 2^61 - 64 flushed and 63 pending bytes, and a `SHAB.FINISH` of nothing behind it still
completes. `SHA.HASH` takes up to 2^61 - 1 bytes as well. -/
def Obligations.BufferedCeilingCountsFlushedBytes : Prop :=
  ∀ (s : State) (len : BitVec 64), s.flt.faulted = false → s.payload.len = len →
    (s.buf.bvalid = true →
      ((∃ t, exec (.shabUpdate len) s = .next t ∧ t.flt.faulted = false) ↔
        s.buf.bcnt.toNat + 64 * ((s.buf.blen.toNat + len.toNat) / 64) < 2 ^ 61) ∧
      ((∃ t, exec (.shabFinish len) s = .next t ∧ t.flt.faulted = false) ↔
        s.buf.bcnt.toNat + s.buf.blen.toNat + len.toNat < 2 ^ 61) ∧
      (s.buf.bcnt.toNat % 64 = 0 → ∀ t, exec (.shabUpdate len) s = .next t → t.flt.faulted = false →
        t.buf.bcnt.toNat + t.buf.blen.toNat = s.buf.bcnt.toNat + s.buf.blen.toNat + len.toNat ∧
        t.buf.bcnt.toNat ≤ 2 ^ 61 - 64 ∧ t.buf.blen.toNat ≤ 63 ∧
        ∃ u, exec (.shabFinish 0) { t with payload := .empty } = .next u ∧ u.flt.faulted = false)) ∧
    ((∃ t, exec (.shaHash len) s = .next t ∧ t.flt.faulted = false) ↔ len.toNat ≤ 2 ^ 61 - 1)

/-! ### The cipher -/

/-- `TF.KEY128`, `TF.KEY192`, `TF.KEY256` (R174 to R177): `KEY_SIZE` for another length than the
variant's, else the whole context is replaced; nothing else changes. -/
def Obligations.KeyCommandsReplaceTheContext : Prop :=
  ∀ (mk : BitVec 64 → Instr) (op : BitVec 8) (V : Nat),
    (mk = .tfKey128 ∧ op = 0x40 ∧ V = 16) ∨ (mk = .tfKey192 ∧ op = 0x41 ∧ V = 24) ∨
      (mk = .tfKey256 ∧ op = 0x42 ∧ V = 32) →
    ∀ len : BitVec 64,
      descOp (encode (mk len)) = op ∧ descLen (encode (mk len)) = len ∧
      ∀ s : State, s.flt.faulted = false → s.payload.len = len →
        (len.toNat ≠ V → exec (mk len) s = .next (s.enterFault .keySize (encode (mk len)))) ∧
        (len.toNat = V → exec (mk len) s = .next { s with
          ctx := { sb := sBoxTables s.payload.bytes, sk := subkeys s.payload.bytes, cvalid := true } })

/-- The subkeys (R173, R165): every even key word goes into `A`, every odd one into `B`. -/
def Obligations.SubkeyPairsAreHadamardSums : Prop :=
  ∀ (key : List Byte) (i : Nat), i < 20 →
    key.length = 16 ∨ key.length = 24 ∨ key.length = 32 →
    let k := key.length / 8
    let lanes (n : Nat) : Word :=
      wordOfLanes (BitVec.ofNat 8 n) (BitVec.ofNat 8 n) (BitVec.ofNat 8 n) (BitVec.ofNat 8 n)
    let A := hFun (lanes (2 * i)) ((List.range k).map fun n => LE32 key (8 * n))
    let B := rotl (hFun (lanes (2 * i + 1)) ((List.range k).map fun n => LE32 key (8 * n + 4))) 8
    subkey (subkeys key) (2 * i) = A + B ∧ subkey (subkeys key) (2 * i + 1) = rotl (A + 2 * B) 9

/-- The combined tables (R172, R167): table `j` holds column `j` of the MDS product, and the four
look-ups of a word together are the h-function with the S-vector in reverse order. -/
def Obligations.TableLookupIsTheHFunction : Prop :=
  ∀ key : List Byte, key.length = 16 ∨ key.length = 24 ∨ key.length = 32 →
    let k := key.length / 8
    let LS := (List.range k).map fun n => sWord key (k - 1 - n)
    (∀ x : Byte,
      tableEntry (sBoxTables key) 0 x = mdscol 0 (cascade ⟨x, x, x, x⟩ LS).y0 ∧
      tableEntry (sBoxTables key) 1 x = mdscol 1 (cascade ⟨x, x, x, x⟩ LS).y1 ∧
      tableEntry (sBoxTables key) 2 x = mdscol 2 (cascade ⟨x, x, x, x⟩ LS).y2 ∧
      tableEntry (sBoxTables key) 3 x = mdscol 3 (cascade ⟨x, x, x, x⟩ LS).y3) ∧
    ∀ X : Word, gFun (sBoxTables key) X = hFun X LS

/-- Determinism and key hygiene (R178, R36): the context is a function of the key alone, whatever the
core held before; after the command the core's state differs in the context only, so the key stands
nowhere else; and a key is not a padded shorter key. -/
def Obligations.ContextIsAPureFunctionOfTheKey : Prop :=
  (∀ (s s' : State) (op : FormatL) (key : Payload), s.flt.faulted = false → s'.flt.faulted = false →
    (op = .tfKey128 ∧ key.len = 16) ∨ (op = .tfKey192 ∧ key.len = 24) ∨ (op = .tfKey256 ∧ key.len = 32) →
    ∃ t t', step { s with input := [.command (.withData op key)] } = .next t ∧
      step { s' with input := [.command (.withData op key)] } = .next t' ∧ t.ctx = t'.ctx ∧
      t = { s with ctx := t.ctx, input := [], payload := .empty }) ∧
  subkey (subkeys (zeros 16)) 0 = 0x52C54DDE ∧ subkey (subkeys (zeros 24)) 0 = 0x717093B2 ∧
  subkey (subkeys (zeros 32)) 0 = 0x5938B67B

/-- `TF.ENC` (R198 with R197, R196): `NO_CONTEXT` without a context, else the block through input whitening,
rounds 0 to 15, the last swap undone, and output whitening; nothing but `BLKOUT`, `OVALID` changes. -/
def Obligations.TfEncEncryptsTheBlock : Prop :=
  encode .tfEnc = 0x480000000000000010 ∧
  ∀ s : State, s.flt.faulted = false → s.payload.len = 16 →
    (s.ctx.cvalid = false → exec .tfEnc s = .next (s.enterFault .noContext (encode .tfEnc))) ∧
    (s.ctx.cvalid = true →
      ∃ (t : State) (R : Nat → Quad), exec .tfEnc s = .next t ∧
        t.blk.ovalid = true ∧ t = { s with blk := t.blk } ∧
        R 0 = { r0 := LE32 s.payload.bytes 0 ^^^ subkey s.ctx.sk 0, r1 := LE32 s.payload.bytes 4 ^^^ subkey s.ctx.sk 1,
                r2 := LE32 s.payload.bytes 8 ^^^ subkey s.ctx.sk 2, r3 := LE32 s.payload.bytes 12 ^^^ subkey s.ctx.sk 3 } ∧
        (∀ r, r < 16 →
          let T0 := gFun s.ctx.sb (R r).r0
          let T1 := gFun s.ctx.sb (rotl (R r).r1 8)
          let F0 := T0 + T1 + subkey s.ctx.sk (2 * r + 8)
          let F1 := T0 + 2 * T1 + subkey s.ctx.sk (2 * r + 9)
          R (r + 1) = { r0 := rotr ((R r).r2 ^^^ F0) 1, r1 := rotl (R r).r3 1 ^^^ F1,
                        r2 := (R r).r0, r3 := (R r).r1 }) ∧
        t.blk.blkout.toList =
          le32 ((R 16).r2 ^^^ subkey s.ctx.sk 4) ++ le32 ((R 16).r3 ^^^ subkey s.ctx.sk 5) ++
          le32 ((R 16).r0 ^^^ subkey s.ctx.sk 6) ++ le32 ((R 16).r1 ^^^ subkey s.ctx.sk 7))

/-- `TF.DEC` (R200 with R199, R196): `NO_CONTEXT` without a context, else output whitening undone and the swap
re-created, rounds 15 down to 0, and input whitening undone. -/
def Obligations.TfDecDecryptsTheBlock : Prop :=
  encode .tfDec = 0x490000000000000010 ∧
  ∀ s : State, s.flt.faulted = false → s.payload.len = 16 →
    (s.ctx.cvalid = false → exec .tfDec s = .next (s.enterFault .noContext (encode .tfDec))) ∧
    (s.ctx.cvalid = true →
      ∃ (t : State) (R : Nat → Quad), exec .tfDec s = .next t ∧
        t.blk.ovalid = true ∧ t = { s with blk := t.blk } ∧
        R 16 = { r2 := LE32 s.payload.bytes 0 ^^^ subkey s.ctx.sk 4, r3 := LE32 s.payload.bytes 4 ^^^ subkey s.ctx.sk 5,
                 r0 := LE32 s.payload.bytes 8 ^^^ subkey s.ctx.sk 6, r1 := LE32 s.payload.bytes 12 ^^^ subkey s.ctx.sk 7 } ∧
        (∀ r, r < 16 →
          let T0 := gFun s.ctx.sb (R (r + 1)).r2
          let T1 := gFun s.ctx.sb (rotl (R (r + 1)).r3 8)
          let F0 := T0 + T1 + subkey s.ctx.sk (2 * r + 8)
          let F1 := T0 + 2 * T1 + subkey s.ctx.sk (2 * r + 9)
          R r = { r0 := (R (r + 1)).r2, r1 := (R (r + 1)).r3, r2 := rotl (R (r + 1)).r0 1 ^^^ F0,
                  r3 := rotr ((R (r + 1)).r1 ^^^ F1) 1 }) ∧
        t.blk.blkout.toList =
          le32 ((R 0).r0 ^^^ subkey s.ctx.sk 0) ++ le32 ((R 0).r1 ^^^ subkey s.ctx.sk 1) ++
          le32 ((R 0).r2 ^^^ subkey s.ctx.sk 2) ++ le32 ((R 0).r3 ^^^ subkey s.ctx.sk 3))

/-- Round trip (R201): with any one context, `TF.DEC` of what `TF.ENC` put out puts out the plaintext,
and the reverse. -/
def Obligations.CipherRoundTrip : Prop :=
  ∀ (first second : Instr), (first = .tfEnc ∧ second = .tfDec) ∨ (first = .tfDec ∧ second = .tfEnc) →
  ∀ (s : State) (c : Command), s.flt.faulted = false → s.ctx.cvalid = true → decode c.desc = .ok first →
    ∃ t, step { s with input := [.command c] } = .next t ∧ t.flt.faulted = false ∧ t.blk.ovalid = true ∧
      ∃ c' : Command, decode c'.desc = .ok second ∧ c'.payload.bytes = t.blk.blkout.toList ∧
        ∃ u, step { t with input := [.command c'] } = .next u ∧
          u.flt.faulted = false ∧ u.blk.ovalid = true ∧ u.blk.blkout.toList = c.payload.bytes

/-- The macro-round form (R202): a macro-round is two rounds, and both directions of the cipher can be
run in that form. -/
def Obligations.MacroRoundFormIsTheCipher : Prop :=
  ∀ (sb : Vector (Vector Word 256) 4) (sk : Vector Word 40),
    (∀ (R : Quad) (m : Nat),
      macroRound sb sk R m = encRound sb sk (encRound sb sk R (2 * m)) (2 * m + 1)) ∧
    ∀ block : List Byte, encryptMacro sb sk block = encryptBlock sb sk block ∧
      decryptMacro sb sk block = decryptBlock sb sk block

/-- The context is read-only to the block transforms and there is no chaining (R203): any blocks in any
order leave the context alone, and the last output depends on the context and the last block only. -/
def Obligations.BlocksAreIndependent : Prop :=
  ∀ (s : State) (cs : List Command) (last : Command) (dec : Bool),
    s.flt.faulted = false → s.ctx.cvalid = true →
    (∀ c ∈ cs, decode c.desc = .ok .tfEnc ∨ decode c.desc = .ok .tfDec) →
    decode last.desc = .ok (if dec then .tfDec else .tfEnc) →
    ∃ t, runEvents (cs.length + 1) { s with input := (cs ++ [last]).map .command } = .next t ∧
      t = { s with blk := t.blk, input := [], payload := .empty } ∧ t.blk.ovalid = true ∧
      t.blk.blkout.toList =
        if dec then decryptBlock s.ctx.sb s.ctx.sk last.payload.bytes
        else encryptBlock s.ctx.sb s.ctx.sk last.payload.bytes

/-! ### Operators and tables -/

/-- The conversions of R11 undo each other, each in its byte order (R11, R50, R51). -/
def Obligations.ByteOrderConversionsAreInverse : Prop :=
  (∀ (x : Word) (a b : List Byte),
    BE32 (a ++ be32 x ++ b) a.length = x ∧ LE32 (a ++ le32 x ++ b) a.length = x) ∧
  (∀ (s : List Byte) (i : Nat), i + 4 ≤ s.length →
    be32 (BE32 s i) = slice s i (i + 4) ∧ le32 (LE32 s i) = slice s i (i + 4)) ∧
  (∀ x : Word, bigEndian (be32 x) = x.toNat ∧ bigEndian (le32 x).reverse = x.toNat) ∧
  ∀ v : Nat, v < 2 ^ 64 → bigEndian (be64 v) = v

/-- `ROTR` and `ROTL` move bit `i` by `n` places around the word, and `SHR` lets zeros in at the top (R10);
so the six word functions of R120 are these sums of bits. -/
def Obligations.WordFunctionsMoveBits : Prop :=
  (∀ (x : Word) (n i : Nat), 0 < n → n < 32 → i < 32 →
    (rotr x n).getLsbD i = x.getLsbD ((i + n) % 32) ∧ (rotl x n).getLsbD ((i + n) % 32) = x.getLsbD i) ∧
  ∀ (x y z : Word) (i : Nat), i < 32 →
    let b (n : Nat) : Bool := x.getLsbD ((i + n) % 32)
    (ssig0 x).getLsbD i = ((b 7 ^^ b 18) ^^ x.getLsbD (i + 3)) ∧
    (ssig1 x).getLsbD i = ((b 17 ^^ b 19) ^^ x.getLsbD (i + 10)) ∧
    (bsig0 x).getLsbD i = ((b 2 ^^ b 13) ^^ b 22) ∧
    (bsig1 x).getLsbD i = ((b 6 ^^ b 11) ^^ b 25) ∧
    (Ch x y z).getLsbD i = (if x.getLsbD i then y.getLsbD i else z.getLsbD i) ∧
    (Maj x y z).getLsbD i = ((x.getLsbD i && y.getLsbD i) || (x.getLsbD i && z.getLsbD i) ||
      (y.getLsbD i && z.getLsbD i))

/-- The product of R15: it is additive in both factors and 1 is neutral; the product of 2 and a byte is the
byte shifted by one bit, with `P` added where the bit shifted out is 1; and a doubled factor doubles the
product. So every product is a sum of doublings of the second factor, each reduced by `P`. -/
def Obligations.FieldProductIsBilinearModuloP : Prop :=
  ∀ (P : BitVec 9) (a a' b b' : Byte),
    gfmul (a ^^^ a') b P = gfmul a b P ^^^ gfmul a' b P ∧
    gfmul a (b ^^^ b') P = gfmul a b P ^^^ gfmul a b' P ∧ gfmul 1 b P = b ∧
    gfmul 2 b P = (if b.getLsbD 7 then (b <<< 1) ^^^ P.setWidth 8 else b <<< 1) ∧
    gfmul (gfmul 2 a P) b P = gfmul 2 (gfmul a b P) P

/-- `Q0` and `Q1` are permutations of the byte values (R61). -/
def Obligations.ByteTablesArePermutations : Prop :=
  ∀ x y : Byte, (Q0 x = Q0 y → x = y) ∧ (Q1 x = Q1 y → x = y)

/-- For every list of 2, 3 or 4 words, each lane of the cascade permutes the byte values, so the
substitution that R172 builds into a table is one to one, and no lane depends on another lane's byte
(R168, R61). -/
def Obligations.CascadeLanesArePermutations : Prop :=
  ∀ L : List Word, L.length = 2 ∨ L.length = 3 ∨ L.length = 4 → ∀ y z : Lanes,
    ((cascade y L).y0 = (cascade z L).y0 ↔ y.y0 = z.y0) ∧ ((cascade y L).y1 = (cascade z L).y1 ↔ y.y1 = z.y1) ∧
    ((cascade y L).y2 = (cascade z L).y2 ↔ y.y2 = z.y2) ∧ ((cascade y L).y3 = (cascade z L).y3 ↔ y.y3 = z.y3)

/-- The S-vector (R166): byte `row` of word `i` is the XOR of the 8 products of row `row` of `RS` with key
chunk `i`; a key with the one byte 0x01 and zeros else gives a column of `RS` (R63), row 0 the least
significant byte, in the word of that byte's chunk, and 0 in the others; and the words of the XOR of two
keys of one length are the XOR of their words (R15). -/
def Obligations.SVectorIsLinearInTheKey : Prop :=
  (∀ key : List Byte, key.length = 16 ∨ key.length = 24 ∨ key.length = 32 →
    (sVector key).length = key.length / 8 ∧
    ∀ i, i < key.length / 8 → ∀ row, row < 4 →
      let product := fun c => gfmul (RS row c) (key.getD (8 * i + c) 0) 0x14D
      lane row ((sVector key).getD i 0) =
        product 0 ^^^ product 1 ^^^ product 2 ^^^ product 3 ^^^ product 4 ^^^ product 5 ^^^ product 6 ^^^
          product 7) ∧
  (let columns : List Word := [0xA402A401, 0x55A156A4, 0x87FC8255, 0x5AC1F387, 0x58471E5A, 0xDBAEC658,
      0x9E3D68DB, 0x0319E59E]
    ∀ n ∈ [16, 24, 32], ∀ j, j < n →
      sVector (List.replicate j 0x00 ++ [0x01] ++ List.replicate (n - 1 - j) 0x00) =
        (List.range (n / 8)).map fun i => if i = j / 8 then columns.getD (j % 8) 0 else 0) ∧
  ∀ key key' : List Byte, key.length = 16 ∨ key.length = 24 ∨ key.length = 32 → key'.length = key.length →
    ∀ i, i < key.length / 8 →
      (sVector (List.zipWith (· ^^^ ·) key key')).getD i 0 =
        (sVector key).getD i 0 ^^^ (sVector key').getD i 0

/-! ### The text of a program -/

/-- The lines without a byte-string operand: a format Z mnemonic alone, the FINISH pseudo-commands of R99,
and `.desc` with the 18 digits of any descriptor; each with nothing behind it, with spaces, and with a comment.
A line of spaces or of a comment only gives no command (R98, R99). A program is read line by line, up to a
last line with or without an end of line; it emits what its lines emit, in order, and a line that is refused
refuses it. How the text is laid out, that a line without a command may stand, and that one refused line
refuses the whole is the model's choice (assumption log 15). -/
def Obligations.ProgramTextIsReadLineByLine : Prop :=
  (∀ (spaces : Nat) (comment : Option (List Char)),
    parseLine (['S', 'H', 'A', '.', 'I', 'N', 'I', 'T'] ++ lineEnd spaces comment) = .ok (some .shaInit) ∧
    parseLine (['S', 'H', 'A', 'B', '.', 'I', 'N', 'I', 'T'] ++ lineEnd spaces comment)
      = .ok (some .shabInit) ∧
    parseLine (['S', 'H', 'A', '.', 'F', 'I', 'N', 'I', 'S', 'H'] ++ lineEnd spaces comment)
      = .ok (some (.shaFinish none)) ∧
    parseLine (['S', 'H', 'A', 'B', '.', 'F', 'I', 'N', 'I', 'S', 'H'] ++ lineEnd spaces comment)
      = .ok (some (.shabFinish none)) ∧
    parseLine (lineEnd spaces comment) = .ok none ∧
    ∀ d : Desc, parseLine (['.', 'd', 'e', 's', 'c', ' ', '0', 'x'] ++ descChars d ++ lineEnd spaces comment)
      = .ok (some (.rawDesc d))) ∧
  ∀ (l behind : List Char) (rest : Except AsmReject (List Emitted)), '\n' ∉ l →
    (behind = [] ∧ rest = .ok []) ∨ (∃ text, behind = '\n' :: text ∧ rest = assembleText text) →
    (parseLine l = .ok none → assembleText (l ++ behind) = rest) ∧
    (∀ (line : AsmLine) (out : Emitted), parseLine l = .ok (some line) → assemble line = .ok out →
      (∀ outs, rest = .ok outs → assembleText (l ++ behind) = .ok (out :: outs)) ∧
      ∀ r, rest = .error r → assembleText (l ++ behind) = .error r) ∧
    ∀ r, (parseLine l = .error r ∨ ∃ line, parseLine l = .ok (some line) ∧ assemble line = .error r) →
      assembleText (l ++ behind) = .error r

/-! ### What a command is -/

/-- A pair of a descriptor and a payload is a command that the host can present exactly when the payload
has the `LEN` bytes of a legal descriptor; with an illegal one, whose payload is ignored, it always is
(R94, R95). There is at most one such command, and no format of payload is left out: every byte string of
fewer than 2^64 bytes is the payload of each format L command (R91, R93). -/
def Obligations.OnlyWholeCommandsArePresented : Prop :=
  (∀ (d : Desc) (p : Payload), (∃ c : Command, c.desc = d ∧ c.payload = p) ↔
    ∀ i, decode d = .ok i → p.bytes.length = (descLen d).toNat) ∧
  (∀ c c' : Command, c.desc = c'.desc → c.payload.bytes = c'.payload.bytes → c = c') ∧
  ∀ (op : FormatL) (bytes : List Byte), bytes.length < 2 ^ 64 ↔
    ∃ c : Command, decode c.desc = .ok (op.instr (BitVec.ofNat 64 bytes.length)) ∧ c.payload.bytes = bytes

end
end

