-- ==== Sys2Proof/Laws/AsmText.lean ====
section
/-! SUPPORT. Laws of the text reader (`Machine/AsmText.lean`): what it makes of digits, strings and ends of
line, once for every character sequence. -/

namespace Sys2Proof.Machine

@[simp] theorem hexDigit_hexChar : ∀ d : BitVec 4, hexDigit (hexChar d) = some d := by decide

/-- A hexadecimal digit is no blank, quote or other mark. -/
theorem hexChar_plain : ∀ d : BitVec 4, hexChar d ≠ ';' ∧ hexChar d ≠ '"' ∧ hexChar d ≠ '+' ∧
    isBlank (hexChar d) = false ∧ punctuation (hexChar d) = none := by decide

@[simp] theorem decimalDigit_decimalChar : ∀ d : Fin 10, decimalDigit (decimalChar d) = some d.val := by
  decide

/-- A decimal digit is no blank, quote or other mark. -/
theorem decimalChar_plain : ∀ d : Fin 10, decimalChar d ≠ ';' ∧ decimalChar d ≠ '"' ∧ decimalChar d ≠ '+' ∧
    isBlank (decimalChar d) = false ∧ punctuation (decimalChar d) = none := by decide

/-- The character of an ASCII code has that code, and only code 34 is the quote character. -/
theorem asciiChar_code : ∀ c : BitVec 7, (Char.ofNat c.toNat).toNat = c.toNat ∧
    (c ≠ 34 → Char.ofNat c.toNat ≠ '"') := by decide

/-- A character without a meaning of its own joins the word. -/
theorem lexLine_plain_cons {c : Char} (h : c ≠ ';' ∧ c ≠ '"' ∧ c ≠ '+' ∧ isBlank c = false ∧
    punctuation c = none) (w : List Char) (acc : List AsmToken) (cs : List Char) :
    lexLine (.plain w) acc (c :: cs) = lexLine (.plain (c :: w)) acc cs := by
  obtain ⟨h1, h2, h3, h4, h5⟩ := h
  rw [lexLine, if_neg h1, if_neg h2, if_neg h3, if_neg (by simp [h4]), h5]

/-- So does a sequence of them. -/
theorem lexLine_plain_append (ds : List Char) (h : ∀ c ∈ ds, c ≠ ';' ∧ c ≠ '"' ∧ c ≠ '+' ∧
    isBlank c = false ∧ punctuation c = none) (w : List Char) (acc : List AsmToken) (cs : List Char) :
    lexLine (.plain w) acc (ds ++ cs) = lexLine (.plain (ds.reverse ++ w)) acc cs := by
  induction ds generalizing w with
  | nil => rfl
  | cons c ds ih =>
    rw [List.cons_append, lexLine_plain_cons (h c (by simp)), ih fun d hd => h d (by simp [hd])]
    simp

/-- Digit pairs, each followed by a space, are read as their bytes. -/
theorem lexLine_hexChars (bytes : List Byte) (acc : List AsmToken) (cs : List Char) :
    lexLine (.hex []) acc (hexChars bytes ++ '"' :: cs) = lexLine (.plain []) (.hexString bytes :: acc) cs := by
  have pair : ∀ b : Byte, b.extractLsb' 4 4 ++ b.extractLsb' 0 4 = b := by decide
  have digits (bs done : List Byte) (ds : List (BitVec 4))
      (h : ∀ tail, pairDigits ds tail = some (done ++ tail)) :
      lexLine (.hex ds) acc (hexChars bs ++ '"' :: cs) =
        lexLine (.plain []) (.hexString (done ++ bs) :: acc) cs := by
    induction bs generalizing done ds with
    | nil => simp [hexChars, lexLine, h]
    | cons b bs ih =>
      have e : hexChars (b :: bs) ++ '"' :: cs = hexChar (b.extractLsb' 4 4) ::
          hexChar (b.extractLsb' 0 4) :: ' ' :: (hexChars bs ++ '"' :: cs) := by simp [hexChars]
      rw [e]
      simp only [lexLine, hexDigit_hexChar, hexChar_plain, if_false, Bool.false_eq_true]
      rw [if_neg (by decide), if_pos (by decide),
        ih (done ++ [b]) _ fun tail => by simp only [pairDigits, h, pair, List.append_assoc]; rfl]
      simp
  simpa using digits bytes [] [] fun _ => rfl

/-- Characters in quotes are read as their codes. -/
theorem lexLine_asciiChars (codes : List (BitVec 7)) (h : 34 ∉ codes) (acc : List AsmToken)
    (cs : List Char) :
    lexLine (.ascii []) acc (asciiChars codes ++ '"' :: cs) =
      lexLine (.plain []) (.asciiString codes :: acc) cs := by
  have go (rest done : List (BitVec 7)) (h : 34 ∉ rest) :
      lexLine (.ascii done) acc (asciiChars rest ++ '"' :: cs) =
        lexLine (.plain []) (.asciiString (done.reverse ++ rest) :: acc) cs := by
    induction rest generalizing done with
    | nil => simp [asciiChars, lexLine]
    | cons c rest ih =>
      simp only [List.mem_cons, not_or] at h
      show lexLine (.ascii done) acc (Char.ofNat c.toNat :: (asciiChars rest ++ '"' :: cs)) = _
      rw [lexLine, if_neg ((asciiChar_code c).2 (Ne.symm h.1)),
        if_pos (by rw [(asciiChar_code c).1]; exact c.isLt), ih _ h.2, (asciiChar_code c).1]
      simp
  exact go codes [] h

/-- Decimal digits are read as the number they spell. -/
theorem decimalNumber_decimalChar (ds : List (Fin 10)) (h : ds ≠ []) :
    decimalNumber (ds.map decimalChar) = some (decimalValue ds) := by
  have digits : ∀ l : List (Fin 10),
      readDigits decimalDigit (l.map decimalChar) = some (l.map (·.val)) := by
    intro l
    induction l with
    | nil => rfl
    | cons d l ih => simp [readDigits, ih]
  rw [decimalNumber, digits]
  cases ds with
  | nil => cases h rfl
  | cons d ds => simp [decimalValue, List.foldl_map]

/-- Spaces and a comment behind a line end its last word, and nothing more. -/
theorem lexLine_lineEnd (spaces : Nat) (comment : Option (List Char)) (w : List Char)
    (acc : List AsmToken) :
    lexLine (.plain w) acc (lineEnd spaces comment) = .ok (endWord w acc).reverse := by
  induction spaces generalizing w acc with
  | zero => cases comment <;> simp [lineEnd, lexLine]
  | succ n ih =>
    have e : lineEnd (n + 1) comment = ' ' :: lineEnd n comment := by
      simp [lineEnd, List.replicate_succ]
    rw [e, lexLine, if_neg (by decide), if_neg (by decide), if_neg (by decide), if_pos (by decide), ih]
    rfl

/-- A text without an end of line is one line. -/
theorem splitLines_single (l : List Char) (h : '\n' ∉ l) : splitLines l = [l] := by
  induction l with
  | nil => rfl
  | cons c cs ih =>
    simp only [List.mem_cons, not_or] at h
    rw [splitLines, if_neg (Ne.symm h.1), ih h.2]

/-- A line is cut off at the first end of line. -/
theorem splitLines_append (l rest : List Char) (h : '\n' ∉ l) :
    splitLines (l ++ ['\n'] ++ rest) = l :: splitLines rest := by
  induction l with
  | nil => simp [splitLines]
  | cons c cs ih =>
    simp only [List.mem_cons, not_or] at h
    have := ih h.2
    simp only [List.cons_append] at this ⊢
    rw [splitLines, if_neg (Ne.symm h.1), this]

end Sys2Proof.Machine
end

