-- ==== Sys2Proof/Laws/State.lean ====
section
/-! SUPPORT. One lemma per field per shared state update: what the field is afterwards. -/

namespace Sys2Proof.Machine

/-! ### `enterFault` -/

@[simp] theorem enterFault_raw (s : State) (c : Cause) (d : Desc) :
    (s.enterFault c d).raw = s.raw := rfl
@[simp] theorem enterFault_buf (s : State) (c : Cause) (d : Desc) :
    (s.enterFault c d).buf = s.buf := rfl
@[simp] theorem enterFault_ctx (s : State) (c : Cause) (d : Desc) :
    (s.enterFault c d).ctx = s.ctx := rfl
@[simp] theorem enterFault_dig (s : State) (c : Cause) (d : Desc) :
    (s.enterFault c d).dig = s.dig := rfl
@[simp] theorem enterFault_blk (s : State) (c : Cause) (d : Desc) :
    (s.enterFault c d).blk = s.blk := rfl
@[simp] theorem enterFault_flt (s : State) (c : Cause) (d : Desc) :
    (s.enterFault c d).flt = { faulted := true, cause := c.code, fcmd := d } := rfl
@[simp] theorem enterFault_input (s : State) (c : Cause) (d : Desc) :
    (s.enterFault c d).input = s.input := rfl
@[simp] theorem enterFault_payload (s : State) (c : Cause) (d : Desc) :
    (s.enterFault c d).payload = s.payload := rfl
@[simp] theorem enterFault_draws (s : State) (c : Cause) (d : Desc) :
    (s.enterFault c d).draws = s.draws := rfl

/-! ### `consumeRaw` -/

@[simp] theorem consumeRaw_raw (s : State) : s.consumeRaw.raw = freeRaw s.draws := rfl
@[simp] theorem consumeRaw_buf (s : State) : s.consumeRaw.buf = s.buf := rfl
@[simp] theorem consumeRaw_ctx (s : State) : s.consumeRaw.ctx = s.ctx := rfl
@[simp] theorem consumeRaw_dig (s : State) : s.consumeRaw.dig = s.dig := rfl
@[simp] theorem consumeRaw_blk (s : State) : s.consumeRaw.blk = s.blk := rfl
@[simp] theorem consumeRaw_flt (s : State) : s.consumeRaw.flt = s.flt := rfl
@[simp] theorem consumeRaw_input (s : State) : s.consumeRaw.input = s.input := rfl
@[simp] theorem consumeRaw_payload (s : State) : s.consumeRaw.payload = s.payload := rfl
@[simp] theorem consumeRaw_draws (s : State) : s.consumeRaw.draws = s.draws + 1 := rfl

/-! ### `consumeBuf` -/

@[simp] theorem consumeBuf_raw (s : State) : s.consumeBuf.raw = s.raw := rfl
@[simp] theorem consumeBuf_buf (s : State) : s.consumeBuf.buf = freeBuf s.draws := rfl
@[simp] theorem consumeBuf_ctx (s : State) : s.consumeBuf.ctx = s.ctx := rfl
@[simp] theorem consumeBuf_dig (s : State) : s.consumeBuf.dig = s.dig := rfl
@[simp] theorem consumeBuf_blk (s : State) : s.consumeBuf.blk = s.blk := rfl
@[simp] theorem consumeBuf_flt (s : State) : s.consumeBuf.flt = s.flt := rfl
@[simp] theorem consumeBuf_input (s : State) : s.consumeBuf.input = s.input := rfl
@[simp] theorem consumeBuf_payload (s : State) : s.consumeBuf.payload = s.payload := rfl
@[simp] theorem consumeBuf_draws (s : State) : s.consumeBuf.draws = s.draws + 1 := rfl

/-! ### `putDigest` -/

@[simp] theorem putDigest_raw (s : State) (d : List Byte) : (s.putDigest d).raw = s.raw := rfl
@[simp] theorem putDigest_buf (s : State) (d : List Byte) : (s.putDigest d).buf = s.buf := rfl
@[simp] theorem putDigest_ctx (s : State) (d : List Byte) : (s.putDigest d).ctx = s.ctx := rfl
@[simp] theorem putDigest_dig (s : State) (d : List Byte) :
    (s.putDigest d).dig = { digest := bytesToVector 32 d, dvalid := true } := rfl
@[simp] theorem putDigest_blk (s : State) (d : List Byte) : (s.putDigest d).blk = s.blk := rfl
@[simp] theorem putDigest_flt (s : State) (d : List Byte) : (s.putDigest d).flt = s.flt := rfl
@[simp] theorem putDigest_input (s : State) (d : List Byte) :
    (s.putDigest d).input = s.input := rfl
@[simp] theorem putDigest_payload (s : State) (d : List Byte) :
    (s.putDigest d).payload = s.payload := rfl
@[simp] theorem putDigest_draws (s : State) (d : List Byte) :
    (s.putDigest d).draws = s.draws := rfl

/-! ### `putBlock` -/

@[simp] theorem putBlock_raw (s : State) (b : List Byte) : (s.putBlock b).raw = s.raw := rfl
@[simp] theorem putBlock_buf (s : State) (b : List Byte) : (s.putBlock b).buf = s.buf := rfl
@[simp] theorem putBlock_ctx (s : State) (b : List Byte) : (s.putBlock b).ctx = s.ctx := rfl
@[simp] theorem putBlock_dig (s : State) (b : List Byte) : (s.putBlock b).dig = s.dig := rfl
@[simp] theorem putBlock_blk (s : State) (b : List Byte) :
    (s.putBlock b).blk = { blkout := bytesToVector 16 b, ovalid := true } := rfl
@[simp] theorem putBlock_flt (s : State) (b : List Byte) : (s.putBlock b).flt = s.flt := rfl
@[simp] theorem putBlock_input (s : State) (b : List Byte) : (s.putBlock b).input = s.input := rfl
@[simp] theorem putBlock_payload (s : State) (b : List Byte) :
    (s.putBlock b).payload = s.payload := rfl
@[simp] theorem putBlock_draws (s : State) (b : List Byte) : (s.putBlock b).draws = s.draws := rfl

/-! ### `accept` -/

@[simp] theorem accept_raw (s : State) (p : Payload) (r : List HostEvent) :
    (s.accept p r).raw = s.raw := rfl
@[simp] theorem accept_buf (s : State) (p : Payload) (r : List HostEvent) :
    (s.accept p r).buf = s.buf := rfl
@[simp] theorem accept_ctx (s : State) (p : Payload) (r : List HostEvent) :
    (s.accept p r).ctx = s.ctx := rfl
@[simp] theorem accept_dig (s : State) (p : Payload) (r : List HostEvent) :
    (s.accept p r).dig = s.dig := rfl
@[simp] theorem accept_blk (s : State) (p : Payload) (r : List HostEvent) :
    (s.accept p r).blk = s.blk := rfl
@[simp] theorem accept_flt (s : State) (p : Payload) (r : List HostEvent) :
    (s.accept p r).flt = s.flt := rfl
@[simp] theorem accept_input (s : State) (p : Payload) (r : List HostEvent) :
    (s.accept p r).input = r := rfl
@[simp] theorem accept_payload (s : State) (p : Payload) (r : List HostEvent) :
    (s.accept p r).payload = p := rfl
@[simp] theorem accept_draws (s : State) (p : Payload) (r : List HostEvent) :
    (s.accept p r).draws = s.draws := rfl

/-! ### `dropPayload` -/

@[simp] theorem dropPayload_raw (s : State) : s.dropPayload.raw = s.raw := rfl
@[simp] theorem dropPayload_buf (s : State) : s.dropPayload.buf = s.buf := rfl
@[simp] theorem dropPayload_ctx (s : State) : s.dropPayload.ctx = s.ctx := rfl
@[simp] theorem dropPayload_dig (s : State) : s.dropPayload.dig = s.dig := rfl
@[simp] theorem dropPayload_blk (s : State) : s.dropPayload.blk = s.blk := rfl
@[simp] theorem dropPayload_flt (s : State) : s.dropPayload.flt = s.flt := rfl
@[simp] theorem dropPayload_input (s : State) : s.dropPayload.input = s.input := rfl
@[simp] theorem dropPayload_payload (s : State) : s.dropPayload.payload = .empty := rfl
@[simp] theorem dropPayload_draws (s : State) : s.dropPayload.draws = s.draws := rfl

/-! ### `deriveContext` -/

@[simp] theorem deriveContext_raw (k : List Byte) (s : State) :
    (deriveContext k s).raw = s.raw := rfl
@[simp] theorem deriveContext_buf (k : List Byte) (s : State) :
    (deriveContext k s).buf = s.buf := rfl
@[simp] theorem deriveContext_ctx (k : List Byte) (s : State) :
    (deriveContext k s).ctx = { sb := sBoxTables k, sk := subkeys k, cvalid := true } := rfl
@[simp] theorem deriveContext_dig (k : List Byte) (s : State) :
    (deriveContext k s).dig = s.dig := rfl
@[simp] theorem deriveContext_blk (k : List Byte) (s : State) :
    (deriveContext k s).blk = s.blk := rfl
@[simp] theorem deriveContext_flt (k : List Byte) (s : State) :
    (deriveContext k s).flt = s.flt := rfl
@[simp] theorem deriveContext_input (k : List Byte) (s : State) :
    (deriveContext k s).input = s.input := rfl
@[simp] theorem deriveContext_payload (k : List Byte) (s : State) :
    (deriveContext k s).payload = s.payload := rfl
@[simp] theorem deriveContext_draws (k : List Byte) (s : State) :
    (deriveContext k s).draws = s.draws := rfl

/-! ### `resetEvent` -/

@[simp] theorem resetEvent_raw (s : State) : s.resetEvent.raw = freeRaw s.draws := rfl
@[simp] theorem resetEvent_buf (s : State) : s.resetEvent.buf = freeBuf s.draws := rfl
@[simp] theorem resetEvent_ctx (s : State) : s.resetEvent.ctx = freeContext s.draws := rfl
@[simp] theorem resetEvent_dig (s : State) : s.resetEvent.dig = freeDigest s.draws := rfl
@[simp] theorem resetEvent_blk (s : State) : s.resetEvent.blk = freeBlock s.draws := rfl
@[simp] theorem resetEvent_flt (s : State) :
    s.resetEvent.flt = { faulted := false, cause := 0, fcmd := 0 } := rfl
@[simp] theorem resetEvent_input (s : State) : s.resetEvent.input = s.input := rfl
@[simp] theorem resetEvent_payload (s : State) : s.resetEvent.payload = s.payload := rfl
@[simp] theorem resetEvent_draws (s : State) : s.resetEvent.draws = s.draws + 1 := rfl

/-! ### What holds no value and what is free after it was lost -/

@[simp] theorem freeRaw_rvalid (n : Nat) : (freeRaw n).rvalid = false := rfl
@[simp] theorem freeBuf_bvalid (n : Nat) : (freeBuf n).bvalid = false := rfl
@[simp] theorem freeContext_cvalid (n : Nat) : (freeContext n).cvalid = false := rfl
@[simp] theorem freeDigest_dvalid (n : Nat) : (freeDigest n).dvalid = false := rfl
@[simp] theorem freeBlock_ovalid (n : Nat) : (freeBlock n).ovalid = false := rfl

/-! ### `bufferUpdate`: only the BUF slot and the draw counter -/

@[simp] theorem bufferUpdate_raw (d : List Byte) (s : State) : (bufferUpdate d s).raw = s.raw := rfl
@[simp] theorem bufferUpdate_ctx (d : List Byte) (s : State) : (bufferUpdate d s).ctx = s.ctx := rfl
@[simp] theorem bufferUpdate_dig (d : List Byte) (s : State) : (bufferUpdate d s).dig = s.dig := rfl
@[simp] theorem bufferUpdate_blk (d : List Byte) (s : State) : (bufferUpdate d s).blk = s.blk := rfl
@[simp] theorem bufferUpdate_flt (d : List Byte) (s : State) : (bufferUpdate d s).flt = s.flt := rfl
@[simp] theorem bufferUpdate_input (d : List Byte) (s : State) : (bufferUpdate d s).input = s.input := rfl
@[simp] theorem bufferUpdate_payload (d : List Byte) (s : State) :
    (bufferUpdate d s).payload = s.payload := rfl

/-! ### `bufferFinish`: the BUF slot is consumed, a digest is put out -/

@[simp] theorem bufferFinish_raw (d : List Byte) (s : State) : (bufferFinish d s).raw = s.raw := rfl
@[simp] theorem bufferFinish_buf (d : List Byte) (s : State) :
    (bufferFinish d s).buf = freeBuf (bufferUpdate d s).draws := rfl
@[simp] theorem bufferFinish_ctx (d : List Byte) (s : State) : (bufferFinish d s).ctx = s.ctx := rfl
@[simp] theorem bufferFinish_dig (d : List Byte) (s : State) : (bufferFinish d s).dig =
    { digest := bytesToVector 32 (rawFinish (bufferUpdate d s).buf.bh
        (bufferUpdate d s).buf.bcnt.toNat (bufferUpdate d s).buf.pending), dvalid := true } := rfl
@[simp] theorem bufferFinish_blk (d : List Byte) (s : State) : (bufferFinish d s).blk = s.blk := rfl
@[simp] theorem bufferFinish_flt (d : List Byte) (s : State) : (bufferFinish d s).flt = s.flt := rfl
@[simp] theorem bufferFinish_input (d : List Byte) (s : State) : (bufferFinish d s).input = s.input := rfl
@[simp] theorem bufferFinish_payload (d : List Byte) (s : State) :
    (bufferFinish d s).payload = s.payload := rfl
@[simp] theorem bufferFinish_draws (d : List Byte) (s : State) :
    (bufferFinish d s).draws = (bufferUpdate d s).draws + 1 := rfl

end Sys2Proof.Machine
end

