-- ==== Sys2Proof/Laws/Ops.lean ====
section
/-! SUPPORT. The shared course of a command, said once: when it is refused, when it faults, when it
completes, and that nothing else can happen. -/

namespace Sys2Proof.Machine

@[simp] theorem firstRaised_nil : firstRaised [] = none := rfl

@[simp] theorem firstRaised_true (c : Cause) (ts : List (Bool × Cause)) :
    firstRaised ((true, c) :: ts) = some c := rfl

@[simp] theorem firstRaised_false (c : Cause) (ts : List (Bool × Cause)) :
    firstRaised ((false, c) :: ts) = firstRaised ts := rfl

/-- No cause is raised exactly when every test fails. -/
theorem firstRaised_eq_none {ts : List (Bool × Cause)} :
    firstRaised ts = none ↔ ∀ x ∈ ts, x.1 = false := by
  induction ts with
  | nil => simp
  | cons x ts ih => obtain ⟨b, c⟩ := x; cases b <;> simp [ih]

theorem reachesLimit_eq_true {n : Nat} : reachesLimit n = true ↔ 2 ^ 61 ≤ n := by
  unfold reachesLimit Config.limit; exact decide_eq_true_iff

theorem reachesLimit_eq_false {n : Nat} : reachesLimit n = false ↔ n < 2 ^ 61 := by
  unfold reachesLimit Config.limit; rw [decide_eq_false_iff_not, Nat.not_le]

theorem misaligned_eq_true {n : Nat} : misaligned n = true ↔ n % 64 ≠ 0 := by simp [misaligned]

theorem misaligned_eq_false {n : Nat} : misaligned n = false ↔ n % 64 = 0 := by simp [misaligned]

theorem wrongKeySize_eq_true {n v : Nat} : wrongKeySize n v = true ↔ n ≠ v := by simp [wrongKeySize]

theorem wrongKeySize_eq_false {n v : Nat} : wrongKeySize n v = false ↔ n = v := by simp [wrongKeySize]

section runCommand

variable {i : Instr} {ts : List (Bool × Cause)} {eff : List Byte → State → State} {s t : State}

/-- Without its `LEN` bytes it is no command, in whatever state (R94). -/
theorem runCommand_of_mismatch (hw : i.wellFormed s.payload = false) :
    runCommand i ts eff s = .fault .payloadMismatch := by simp [runCommand, hw]

theorem runCommand_of_faulted (hw : i.wellFormed s.payload = true) (h : s.flt.faulted = true) :
    runCommand i ts eff s = .next s := by simp [runCommand, h, hw]

theorem runCommand_of_raised {c : Cause} (hw : i.wellFormed s.payload = true) (h : s.flt.faulted = false)
    (hr : firstRaised ts = some c) : runCommand i ts eff s = .next (s.enterFault c (encode i)) := by
  simp [runCommand, h, hr, hw]

theorem runCommand_of_pass (hw : i.wellFormed s.payload = true) (h : s.flt.faulted = false)
    (hr : firstRaised ts = none) : runCommand i ts eff s = .next (eff s.payload.bytes s) := by
  simp [runCommand, h, hr, hw]

/-- Everything a command that answers a next state can have done. -/
theorem runCommand_cases (h : runCommand i ts eff s = .next t) :
    i.wellFormed s.payload = true ∧
    ((s.flt.faulted = true ∧ t = s) ∨
    (s.flt.faulted = false ∧ ∃ c, firstRaised ts = some c ∧ t = s.enterFault c (encode i)) ∨
    (s.flt.faulted = false ∧ firstRaised ts = none ∧ t = eff s.payload.bytes s)) := by
  cases hw : i.wellFormed s.payload with
  | false => rw [runCommand_of_mismatch hw] at h; cases h
  | true =>
    refine ⟨rfl, ?_⟩
    cases hf : s.flt.faulted with
    | true => rw [runCommand_of_faulted hw hf] at h; cases h; exact .inl ⟨rfl, rfl⟩
    | false =>
      cases hr : firstRaised ts with
      | some c => rw [runCommand_of_raised hw hf hr] at h; cases h; exact .inr (.inl ⟨rfl, c, rfl, rfl⟩)
      | none => rw [runCommand_of_pass hw hf hr] at h; cases h; exact .inr (.inr ⟨rfl, rfl, rfl⟩)

/-- With its `LEN` bytes a command always answers a next state. -/
theorem runCommand_next (hw : i.wellFormed s.payload = true) : ∃ t, runCommand i ts eff s = .next t := by
  cases hf : s.flt.faulted with
  | true => exact ⟨_, runCommand_of_faulted hw hf⟩
  | false =>
    cases hr : firstRaised ts with
    | some c => exact ⟨_, runCommand_of_raised hw hf hr⟩
    | none => exact ⟨_, runCommand_of_pass hw hf hr⟩

end runCommand

/-- The tests of each command, in the priority order of R224. -/
def testsOf : Instr → State → List (Bool × Cause)
  | .shaInit, _ => []
  | .shaUpdate len, s =>
    [(!s.raw.rvalid, .slotInvalid), (misaligned len.toNat, .lenMisaligned),
     (reachesLimit (s.raw.rcnt.toNat + len.toNat), .limitExceeded)]
  | .shaFinish len, s =>
    [(!s.raw.rvalid, .slotInvalid), (reachesLimit (s.raw.rcnt.toNat + len.toNat), .limitExceeded)]
  | .shaHash len, _ => [(reachesLimit len.toNat, .limitExceeded)]
  | .shabInit, _ => []
  | .shabUpdate len, s =>
    [(!s.buf.bvalid, .slotInvalid),
     (reachesLimit (s.buf.bcnt.toNat + flushedBytes s.buf.blen.toNat len.toNat), .limitExceeded)]
  | .shabFinish len, s =>
    [(!s.buf.bvalid, .slotInvalid),
     (reachesLimit (s.buf.bcnt.toNat + s.buf.blen.toNat + len.toNat), .limitExceeded)]
  | .tfKey128 len, _ => [(wrongKeySize len.toNat Config.keyBytes128, .keySize)]
  | .tfKey192 len, _ => [(wrongKeySize len.toNat Config.keyBytes192, .keySize)]
  | .tfKey256 len, _ => [(wrongKeySize len.toNat Config.keyBytes256, .keySize)]
  | .tfEnc, s => [(!s.ctx.cvalid, .noContext)]
  | .tfDec, s => [(!s.ctx.cvalid, .noContext)]

/-- The effect of each command that completes. -/
def effectOf : Instr → List Byte → State → State
  | .shaInit => fun _ s => { s with raw := { rh := IV, rcnt := 0, rvalid := true } }
  | .shaUpdate _ => fun data s =>
    { s with raw := { s.raw with
        rh := absorb s.raw.rh data
        rcnt := BitVec.ofNat 64 (s.raw.rcnt.toNat + data.length) } }
  | .shaFinish _ => fun data s =>
    (s.putDigest (rawFinish s.raw.rh s.raw.rcnt.toNat data)).consumeRaw
  | .shaHash _ => fun data s => s.putDigest (rawFinish IV 0 data)
  | .shabInit => fun _ s =>
    { s with buf := { s.buf with bh := IV, bcnt := 0, blen := 0, bvalid := true } }
  | .shabUpdate _ => bufferUpdate
  | .shabFinish _ => bufferFinish
  | .tfKey128 _ => deriveContext
  | .tfKey192 _ => deriveContext
  | .tfKey256 _ => deriveContext
  | .tfEnc => fun block s => s.putBlock (encryptBlock s.ctx.sb s.ctx.sk block)
  | .tfDec => fun block s => s.putBlock (decryptBlock s.ctx.sb s.ctx.sk block)

/-- Every command takes the shared course with its own tests and effect. -/
theorem exec_eq_runCommand (i : Instr) (s : State) :
    exec i s = runCommand i (testsOf i s) (effectOf i) s := by cases i <;> rfl

/-- Everything a command that answers a next state can have done. -/
theorem exec_cases {i : Instr} {s t : State} (h : exec i s = .next t) :
    i.wellFormed s.payload = true ∧
    ((s.flt.faulted = true ∧ t = s) ∨
    (s.flt.faulted = false ∧ ∃ c, firstRaised (testsOf i s) = some c ∧ t = s.enterFault c (encode i)) ∨
    (s.flt.faulted = false ∧ firstRaised (testsOf i s) = none ∧ t = effectOf i s.payload.bytes s)) :=
  runCommand_cases (exec_eq_runCommand i s ▸ h)

/-- Where a command stops, and where it does not (R94). -/
theorem exec_next_or_mismatch (i : Instr) (s : State) :
    (i.wellFormed s.payload = true ∧ ∃ t, exec i s = .next t) ∨
    (i.wellFormed s.payload = false ∧ exec i s = .fault .payloadMismatch) := by
  rw [exec_eq_runCommand]
  cases hw : i.wellFormed s.payload with
  | true => exact .inl ⟨rfl, runCommand_next hw⟩
  | false => exact .inr ⟨rfl, runCommand_of_mismatch hw⟩

/-- Everything an illegal descriptor can do. -/
theorem runIllegal_cases {d : Desc} {s t : State} (h : runIllegal d s = .next t) :
    (s.flt.faulted = true ∧ t = s) ∨ (s.flt.faulted = false ∧ t = s.enterFault .illegalCmd d) := by
  unfold runIllegal at h
  cases hf : s.flt.faulted <;> simp [hf] at h <;> simp [h]

/-- A command that completes leaves the fault registers, the events to come and its payload alone. -/
theorem effectOf_rest (i : Instr) (data : List Byte) (s : State) :
    (effectOf i data s).flt = s.flt ∧ (effectOf i data s).input = s.input ∧
      (effectOf i data s).payload = s.payload := by cases i <;> exact ⟨rfl, rfl, rfl⟩

/-- Everything a step that answers a next state can have done. -/
theorem step_cases {s t : State} (h : step s = .next t) :
    (s.input = [] ∧ t = s) ∨
    (∃ rest, s.input = .reset :: rest ∧ t = ({ s with input := rest } : State).resetEvent) ∨
    (∃ c rest, s.input = .command c :: rest ∧ commandEvent c rest s = .next t) := by
  unfold step at h
  cases hi : s.input with
  | nil => simp only [hi, idle] at h; cases h; exact .inl ⟨rfl, rfl⟩
  | cons e rest =>
    cases e with
    | reset => simp only [hi, resetPort] at h; cases h; exact .inr (.inl ⟨rest, rfl, rfl⟩)
    | command c => simp only [hi] at h; exact .inr (.inr ⟨c, rest, rfl, h⟩)

/-- The code of every cause is one of 1 to 6 (R215, R38 (e)). -/
theorem Cause.code_range (c : Cause) : 1 ≤ c.code.toNat ∧ c.code.toNat ≤ 6 := by
  cases c <;> decide

end Sys2Proof.Machine
end

