-- ==== Sys2Proof/Laws/Operands.lean ====
section
/-! SUPPORT. The operand forms: what the arrays, lanes, byte orders and rotations do. -/

namespace Sys2Proof.Machine

@[simp] theorem tabulate_getElem {α : Type} (n : Nat) (f : Nat → α) (i : Nat) (h : i < n) :
    (tabulate n f)[i] = f i := by simp [tabulate]

@[simp] theorem tabulate_toList {α : Type} (n : Nat) (f : Nat → α) :
    (tabulate n f).toList = (List.range n).map f := by simp [tabulate]

theorem bytesToVector_toList {n : Nat} {s : List Byte} (h : s.length = n) :
    (bytesToVector n s).toList = s := by
  apply List.ext_getElem
  · simp [bytesToVector, h]
  · intro i h1 h2
    simp [bytesToVector, byteAt, List.getElem?_eq_getElem h2]

theorem wordOfLanes_getLsbD (a b c d : Byte) (i : Nat) :
    (wordOfLanes a b c d).getLsbD i =
      if i < 8 then a.getLsbD i else if i < 16 then b.getLsbD (i - 8)
      else if i < 24 then c.getLsbD (i - 16) else d.getLsbD (i - 24) := by
  have h : (wordOfLanes a b c d).getLsbD i = (d ++ c ++ b ++ a : BitVec (8 + 8 + 8 + 8)).getLsbD i := rfl
  rw [h]
  simp only [BitVec.getLsbD_append, show i - 8 - 8 = i - 16 by omega, show i - 16 - 8 = i - 24 by omega]
  by_cases h1 : i < 8
  · simp [h1]
  by_cases h2 : i < 16
  · simp [h1, h2, show i - 8 < 8 by omega]
  by_cases h3 : i < 24
  · simp [h1, h2, h3, show ¬ i - 8 < 8 by omega, show i - 16 < 8 by omega]
  · simp [h1, h2, h3, show ¬ i - 8 < 8 by omega, show ¬ i - 16 < 8 by omega]

theorem lane_getLsbD (j : Nat) (x : Word) (i : Nat) :
    (lane j x).getLsbD i = (decide (i < 8) && x.getLsbD (8 * j + i)) := by simp [lane]

@[simp] theorem lane0_wordOfLanes (a b c d : Byte) : lane 0 (wordOfLanes a b c d) = a := by
  apply BitVec.eq_of_getLsbD_eq; intro i hi
  rw [lane_getLsbD, wordOfLanes_getLsbD]; simp [hi]

@[simp] theorem lane1_wordOfLanes (a b c d : Byte) : lane 1 (wordOfLanes a b c d) = b := by
  apply BitVec.eq_of_getLsbD_eq; intro i hi
  rw [lane_getLsbD, wordOfLanes_getLsbD]; simp [hi, show 8 + i < 16 by omega]

@[simp] theorem lane2_wordOfLanes (a b c d : Byte) : lane 2 (wordOfLanes a b c d) = c := by
  apply BitVec.eq_of_getLsbD_eq; intro i hi
  rw [lane_getLsbD, wordOfLanes_getLsbD]; simp [hi, show ¬ 16 + i < 8 by omega, show 16 + i < 24 by omega]

@[simp] theorem lane3_wordOfLanes (a b c d : Byte) : lane 3 (wordOfLanes a b c d) = d := by
  apply BitVec.eq_of_getLsbD_eq; intro i hi
  rw [lane_getLsbD, wordOfLanes_getLsbD]; simp [hi, show ¬ 24 + i < 8 by omega, show ¬ 24 + i < 16 by omega]

/-- A word is made of its lanes. -/
@[simp] theorem wordOfLanes_lanes (x : Word) :
    wordOfLanes (lane 0 x) (lane 1 x) (lane 2 x) (lane 3 x) = x := by
  apply BitVec.eq_of_getLsbD_eq; intro i hi
  simp only [lane_getLsbD, wordOfLanes_getLsbD]
  split
  · simp [*]
  split
  · simp [show i - 8 < 8 by omega, show 8 + (i - 8) = i by omega]
  split
  · simp [show i - 16 < 8 by omega, show 16 + (i - 16) = i by omega]
  · simp [show i - 24 < 8 by omega, show 24 + (i - 24) = i by omega]

theorem rotl_one_getLsbD (x : Word) (i : Nat) (h : i < 32) :
    (rotl x 1).getLsbD i = x.getLsbD ((i + 31) % 32) := by
  simp only [rotl, BitVec.getLsbD_or, BitVec.getLsbD_shiftLeft, BitVec.getLsbD_ushiftRight, h]
  by_cases h0 : i = 0
  · simp [h0]
  · simp [show ¬ i < 1 by omega, show (i + 31) % 32 = i - 1 by omega, BitVec.getLsbD_of_ge x (31 + i) (by omega)]

theorem rotr_one_getLsbD (x : Word) (i : Nat) (h : i < 32) :
    (rotr x 1).getLsbD i = x.getLsbD ((i + 1) % 32) := by
  simp only [rotr, BitVec.getLsbD_or, BitVec.getLsbD_shiftLeft, BitVec.getLsbD_ushiftRight, h]
  by_cases h0 : i = 31
  · simp [h0]
  · simp [show i < 31 by omega, show (i + 1) % 32 = 1 + i by omega]

/-- The one-bit rotations of the cipher rounds undo each other (R197, R199). -/
theorem rotl_rotr_one (x : Word) : rotl (rotr x 1) 1 = x := by
  apply BitVec.eq_of_getLsbD_eq; intro i hi
  rw [rotl_one_getLsbD _ _ hi, rotr_one_getLsbD _ _ (by omega)]
  congr 1; omega

theorem rotr_rotl_one (x : Word) : rotr (rotl x 1) 1 = x := by
  apply BitVec.eq_of_getLsbD_eq; intro i hi
  rw [rotr_one_getLsbD _ _ hi, rotl_one_getLsbD _ _ (by omega)]
  congr 1; omega

@[simp] theorem be32_length (x : Word) : (be32 x).length = 4 := rfl
@[simp] theorem le32_length (x : Word) : (le32 x).length = 4 := rfl
@[simp] theorem be64_length (v : Nat) : (be64 v).length = 8 := rfl
@[simp] theorem zeros_length (n : Nat) : (zeros n).length = n := by simp [zeros]

theorem slice_length (s : List Byte) (i j : Nat) : (slice s i j).length = min (j - i) (s.length - i) := by
  simp [slice]

/-- The product with 0 is 0 (R15). -/
theorem gfmul_zero_right (a : Byte) (P : BitVec 9) : gfmul a 0 P = 0 := by
  simp [gfmul, gfmulLoop]

end Sys2Proof.Machine
end

