-- ==== Sys2Proof/Laws/Sha.lean ====
section
/-! SUPPORT. The block loop and the padding: which bytes they read and how they compose. -/

namespace Sys2Proof.Machine

@[simp] theorem compressBlocks_zero (H : HashWords) (data : List Byte) : compressBlocks 0 H data = H := rfl

@[simp] theorem compressBlocks_succ (n : Nat) (H : HashWords) (data : List Byte) :
    compressBlocks (n + 1) H data = compressBlocks n (compress H (data.take 64)) (data.drop 64) := rfl

/-- The first `n` blocks depend on the first `64 n` bytes only. -/
theorem compressBlocks_append (n : Nat) (H : HashWords) (a b : List Byte) (h : 64 * n ≤ a.length) :
    compressBlocks n H (a ++ b) = compressBlocks n H a := by
  induction n generalizing H a with
  | zero => rfl
  | succ n ih =>
    rw [compressBlocks_succ, compressBlocks_succ, List.take_append_of_le_length (by omega),
      List.drop_append_of_le_length (by omega), ih]
    simp; omega

theorem compressBlocks_add (m n : Nat) (H : HashWords) (data : List Byte) :
    compressBlocks (m + n) H data = compressBlocks n (compressBlocks m H data) (data.drop (64 * m)) := by
  induction m generalizing H data with
  | zero => simp
  | succ m ih =>
    rw [show m + 1 + n = (m + n) + 1 by omega, compressBlocks_succ, ih, compressBlocks_succ,
      List.drop_drop]
    congr 2; omega

@[simp] theorem absorb_nil (H : HashWords) : absorb H [] = H := rfl

/-- One block. -/
theorem absorb_block (H : HashWords) (blk : List Byte) (h : blk.length = 64) :
    absorb H blk = compress H blk := by
  simp [absorb, h, List.take_of_length_le]

/-- Fewer than 64 bytes: no block. -/
theorem absorb_short (H : HashWords) (data : List Byte) (h : data.length < 64) : absorb H data = H := by
  simp [absorb, Nat.div_eq_of_lt h]

/-- Absorbing whole blocks and then more is absorbing the concatenation. -/
theorem absorb_append (H : HashWords) (a b : List Byte) (h : a.length % 64 = 0) :
    absorb (absorb H a) b = absorb H (a ++ b) := by
  unfold absorb
  rw [List.length_append, show (a.length + b.length) / 64 = a.length / 64 + b.length / 64 by omega,
    compressBlocks_add, compressBlocks_append _ _ _ _ (by omega),
    show 64 * (a.length / 64) = a.length by omega, List.drop_left]

/-- Only the whole blocks count. -/
theorem absorb_take (H : HashWords) (data : List Byte) :
    absorb H (data.take (64 * (data.length / 64))) = absorb H data := by
  conv_rhs => rw [← List.take_append_drop (64 * (data.length / 64)) data]
  rw [← absorb_append _ _ _ (by simp; omega), absorb_short _ (data.drop _) (by simp; omega)]

/-- The length of the padding (R127). -/
theorem pad_length (rem : List Byte) (total : Nat) (h : rem.length ≤ 63) :
    (pad rem total).length = if rem.length ≤ 55 then 64 else 128 := by
  simp only [pad, List.length_append, List.length_cons, List.length_nil, zeros_length, be64_length]
  split <;> omega

@[simp] theorem digestBytes_length (H : HashWords) : (digestBytes H).length = 32 := by
  simp only [digestBytes, List.length_flatMap, be32_length]
  simp

@[simp] theorem rawFinish_length (H : HashWords) (cnt : Nat) (data : List Byte) :
    (rawFinish H cnt data).length = 32 := by simp [rawFinish]

/-- `raw_finish` is absorbing the data with its padding (R129, R127). -/
theorem rawFinish_eq (H : HashWords) (cnt : Nat) (data : List Byte) :
    rawFinish H cnt data = digestBytes (absorb H (data ++ [0x80] ++
      zeros ((119 - data.length % 64) % 64) ++ be64 (8 * (cnt + data.length)))) := by
  have hq : slice data 0 (64 * (data.length / 64)) ++
      slice data (64 * (data.length / 64)) data.length = data := by
    simp [slice, List.take_of_length_le]
  have hr : (slice data (64 * (data.length / 64)) data.length).length = data.length % 64 := by
    rw [slice_length]; omega
  have hl : (slice data 0 (64 * (data.length / 64))).length % 64 = 0 := by rw [slice_length]; omega
  simp only [rawFinish, pad, hr]
  rw [absorb_append _ _ _ hl]
  congr 2
  simp only [← List.append_assoc, hq]
  congr 2
  · congr 1; split <;> omega
  · omega

theorem extendSchedule_length (n : Nat) (ws : List Word) :
    (extendSchedule n ws).length = ws.length + n := by
  induction n generalizing ws with
  | zero => simp [extendSchedule]
  | succ n ih => rw [extendSchedule, ih]; simp; omega

/-- Extending the schedule keeps the words it had, behind the new ones. -/
theorem extendSchedule_getD (n : Nat) (ws : List Word) (j : Nat) :
    (extendSchedule n ws).getD (n + j) 0 = ws.getD j 0 := by
  induction n generalizing ws j with
  | zero => simp [extendSchedule]
  | succ n ih => rw [extendSchedule, show n + 1 + j = n + (j + 1) by omega, ih]; simp

/-- The indexed block loop of R124 is the model's. -/
theorem compressLoop_eq (n : Nat) (H : HashWords) (data : List Byte) :
    compressLoop H data n = compressBlocks n H data := by
  induction n with
  | zero => rfl
  | succ n ih =>
    have e : compressLoop H data (n + 1) =
        compress (compressLoop H data n) (slice data (64 * n) (64 * n + 64)) := by
      simp [compressLoop, List.range_succ]
    rw [e, ih, compressBlocks_add n 1]
    simp [slice]

/-- `raw_finish` as R129 writes it is the model's. -/
theorem rawFinishLoop_eq (H : HashWords) (cnt : Nat) (data : List Byte) :
    rawFinishLoop H cnt data = rawFinish H cnt data := by
  unfold rawFinishLoop rawFinish absorb
  simp only [compressLoop_eq]
  have h1 : (slice data 0 (64 * (data.length / 64))).length = 64 * (data.length / 64) := by
    rw [slice_length]; omega
  have h2 : (slice data (64 * (data.length / 64)) data.length).length = data.length % 64 := by
    rw [slice_length]; omega
  rw [h1, h2, show cnt + 64 * (data.length / 64) + data.length % 64 = cnt + data.length by omega]

end Sys2Proof.Machine
end

