-- ==== Sys2Proof/Laws/Buffer.lean ====
section
/-! SUPPORT. The pending buffer and the body of `SHAB.UPDATE`: the closed form (R153). -/

namespace Sys2Proof.Machine

/-- Filling writes the bytes at their place and leaves every other cell alone. -/
theorem fillBuffer_toList (buf : Vector Byte 64) (start : Nat) (bytes : List Byte)
    (h : start + bytes.length ≤ 64) :
    (fillBuffer buf start bytes).toList =
      buf.toList.take start ++ bytes ++ buf.toList.drop (start + bytes.length) := by
  induction bytes generalizing buf start with
  | nil => simp [fillBuffer]
  | cons b rest ih =>
    simp only [List.length_cons] at h
    rw [fillBuffer, ih _ _ (by omega)]
    have hlen : buf.toList.length = 64 := by simp
    have hset : (buf.setIfInBounds start b).toList = buf.toList.set start b := by simp
    rw [hset, List.take_set, List.drop_set, List.take_add_one, List.length_cons]
    simp only [show start + 1 + rest.length = start + (rest.length + 1) by omega]
    have h1 : (List.take start buf.toList ++ buf.toList[start]?.toList).set start b
        = List.take start buf.toList ++ [b] := by
      rw [List.getElem?_eq_getElem (by omega)]
      rw [List.set_append_right _ _ (by simp)]
      simp [show min start 64 = start by omega]
    rw [h1, if_pos (by omega)]
    simp

/-- The valid bytes after filling behind the valid ones. -/
theorem fillBuffer_take (buf : Vector Byte 64) (m : Nat) (bytes : List Byte)
    (h : m + bytes.length ≤ 64) :
    (fillBuffer buf m bytes).toList.take (m + bytes.length) = buf.toList.take m ++ bytes := by
  rw [fillBuffer_toList _ _ _ h, List.take_append_of_le_length (by simp; omega)]
  rw [List.take_of_length_le (by simp)]

@[simp] theorem pending_length (b : BufSlot) : b.pending.length = b.blen.toNat := by
  have h := b.blen.isLt
  rw [BufSlot.pending, List.length_take, Vector.length_toList]; omega

theorem pending_nil {b : BufSlot} (h : b.blen.toNat = 0) : b.pending = [] := by
  simp [BufSlot.pending, h]

/-- What a step of R151 leaves of the work: the flushed bytes, the pending ones and the rest are the
stream it began with, and what it flushed is compressed and counted. -/
structure BufWork.Flushed (w w' : BufWork) (flushed : List Byte) : Prop where
  whole : flushed.length % 64 = 0
  stream : flushed ++ (w'.slot.pending ++ w'.rest) = w.slot.pending ++ w.rest
  bh : w'.slot.bh = absorb w.slot.bh flushed
  bcnt : w'.slot.bcnt = BitVec.ofNat 64 (w.slot.bcnt.toNat + flushed.length)
  bvalid : w'.slot.bvalid = w.slot.bvalid

theorem ofNat64_toNat (x : BitVec 64) : BitVec.ofNat 64 (x.toNat + 0) = x := by simp

/-- Step 1 of R151: afterwards the buffer is empty or the payload is used up. -/
theorem topUp_flushed (w : BufWork) :
    (∃ flushed, w.Flushed (topUp w) flushed) ∧ ((topUp w).slot.blen.toNat = 0 ∨ (topUp w).rest = []) := by
  obtain ⟨b, rest, draws⟩ := w
  have hlt := b.blen.isLt
  have hp := pending_length b
  unfold topUp
  by_cases hm : b.blen.toNat = 0
  · simp only [hm, if_true]
    exact ⟨⟨[], rfl, rfl, rfl, (ofNat64_toNat _).symm, rfl⟩, .inl trivial⟩
  · simp only [hm, if_false]
    have hs (n : Nat) : slice rest 0 n = rest.take n := by simp [slice]
    by_cases hfull : b.blen.toNat + min (64 - b.blen.toNat) rest.length = 64
    · have hn : min (64 - b.blen.toNat) rest.length = 64 - b.blen.toNat := by omega
      have hl : (rest.take (64 - b.blen.toNat)).length = 64 - b.blen.toNat := by
        rw [List.length_take]; exact hn
      rw [hn] at hfull
      simp only [hs, hn, hfull, if_true]
      refine ⟨⟨b.pending ++ rest.take (64 - b.blen.toNat), ?_, ?_, ?_, ?_, rfl⟩, .inl rfl⟩
      · rw [List.length_append, hp, hl]; omega
      · refine (congrArg _ (congrArg (· ++ _) (pending_nil rfl))).trans ?_
        rw [List.nil_append, List.append_assoc, List.take_append_drop]
      · simp only []
        rw [fillBuffer_toList _ _ _ (by omega), hl, List.drop_eq_nil_of_le (by simp; omega),
          List.append_nil]
        rfl
      · rw [List.length_append, hp, hl]
        simp only []
        congr 2; omega
    · have hn : min (64 - b.blen.toNat) rest.length = rest.length := by omega
      rw [hn] at hfull
      simp only [hs, hn, hfull, if_false, List.take_length, List.drop_length]
      refine ⟨⟨[], rfl, ?_, rfl, (ofNat64_toNat _).symm, rfl⟩, .inr trivial⟩
      simp only [List.nil_append, List.append_nil, BufSlot.pending]
      rw [show (BitVec.ofNat 6 (b.blen.toNat + rest.length)).toNat = b.blen.toNat + rest.length by
        rw [BitVec.toNat_ofNat]; omega]
      exact fillBuffer_take _ _ _ (by omega)

/-- Step 2 of R151, when the buffer is empty or nothing is left. -/
theorem straightThrough_flushed (w : BufWork) (h : w.slot.blen.toNat = 0 ∨ w.rest = []) :
    ∃ flushed, w.Flushed (straightThrough w) flushed ∧ (straightThrough w).rest.length < 64 ∧
      ((straightThrough w).slot.blen.toNat = 0 ∨ (straightThrough w).rest = []) := by
  obtain ⟨b, rest, draws⟩ := w
  have hs (n : Nat) : slice rest 0 n = rest.take n := by simp [slice]
  have hl : (rest.take (64 * (rest.length / 64))).length = 64 * (rest.length / 64) := by
    rw [List.length_take]; omega
  refine ⟨rest.take (64 * (rest.length / 64)), ⟨?_, ?_, ?_, ?_, rfl⟩, ?_, ?_⟩
  · rw [hl]; omega
  · simp only [straightThrough]
    rcases h with h | h
    · have e : ({ b with
          bh := absorb b.bh (slice rest 0 (64 * (rest.length / 64))),
          bcnt := BitVec.ofNat 64 (b.bcnt.toNat + 64 * (rest.length / 64)) } : BufSlot).pending = [] :=
        pending_nil h
      rw [e, pending_nil h]; simp
    · simp only at h; subst h; simp; rfl
  · simp only [straightThrough, hs]
  · simp only [straightThrough, hl]
  · simp only [straightThrough, List.length_drop]; omega
  · rcases h with h | h
    · exact .inl h
    · right; simp only at h; subst h; simp [straightThrough]

/-- Step 3 of R151. -/
theorem keepRest_flushed (w : BufWork) (h : w.slot.blen.toNat + w.rest.length < 64) :
    w.Flushed (keepRest w) [] ∧ (keepRest w).rest = [] := by
  refine ⟨⟨rfl, ?_, rfl, (ofNat64_toNat _).symm, rfl⟩, rfl⟩
  simp only [keepRest, List.nil_append, List.append_nil, BufSlot.pending]
  rw [show (BitVec.ofNat 6 (w.slot.blen.toNat + w.rest.length)).toNat =
    w.slot.blen.toNat + w.rest.length by rw [BitVec.toNat_ofNat]; omega]
  exact fillBuffer_take _ _ _ (by omega)

/-- Flushes compose. -/
theorem BufWork.Flushed.trans {w w' w'' : BufWork} {f g : List Byte} (h : w.Flushed w' f)
    (h' : w'.Flushed w'' g) : w.Flushed w'' (f ++ g) := by
  obtain ⟨h1, h2, h3, h4, h5⟩ := h
  obtain ⟨k1, k2, k3, k4, k5⟩ := h'
  refine ⟨?_, ?_, ?_, ?_, k5.trans h5⟩
  · rw [List.length_append]; omega
  · rw [List.append_assoc, k2, h2]
  · rw [k3, h3, absorb_append _ _ _ h1]
  · rw [k4, h4]
    apply BitVec.eq_of_toNat_eq
    simp only [BitVec.toNat_ofNat, List.length_append]; omega

/-- The body of `SHAB.UPDATE` flushes some whole blocks and keeps the rest pending. -/
theorem bufferUpdate_flushed (data : List Byte) (s : State) :
    ∃ flushed, flushed.length % 64 = 0 ∧ flushed ++ (bufferUpdate data s).buf.pending = s.buf.pending ++ data ∧
      (bufferUpdate data s).buf.bh = absorb s.buf.bh flushed ∧
      (bufferUpdate data s).buf.bcnt = BitVec.ofNat 64 (s.buf.bcnt.toNat + flushed.length) ∧
      (bufferUpdate data s).buf.bvalid = s.buf.bvalid := by
  obtain ⟨⟨f, hf⟩, hd⟩ := topUp_flushed { slot := s.buf, rest := data, draws := s.draws }
  obtain ⟨g, hg, hlen, hd'⟩ := straightThrough_flushed _ hd
  have hlt := (straightThrough (topUp { slot := s.buf, rest := data, draws := s.draws })).slot.blen.isLt
  have hk := keepRest_flushed (straightThrough (topUp { slot := s.buf, rest := data, draws := s.draws }))
    (by rcases hd' with h | h
        · omega
        · rw [h, List.length_nil]; omega)
  obtain ⟨h1, h2, h3, h4, h5⟩ := (hf.trans hg).trans hk.1
  refine ⟨_, h1, ?_, h3, h4, h5⟩
  rw [hk.2, List.append_nil (BufSlot.pending _)] at h2
  exact h2

/-- The closed form of the body of `SHAB.UPDATE` (R153): with `stream` the pending bytes and the
payload, all whole blocks of it are compressed and the remainder is pending. -/
theorem bufferUpdate_closed (data : List Byte) (s : State)
    (hcnt : s.buf.bcnt.toNat + flushedBytes s.buf.blen.toNat data.length < 2 ^ 61) :
    (bufferUpdate data s).buf.bh = absorb s.buf.bh (s.buf.pending ++ data) ∧
    (bufferUpdate data s).buf.bcnt.toNat = s.buf.bcnt.toNat + flushedBytes s.buf.blen.toNat data.length ∧
    (bufferUpdate data s).buf.blen.toNat = (s.buf.blen.toNat + data.length) % 64 ∧
    (bufferUpdate data s).buf.pending =
      (s.buf.pending ++ data).drop (flushedBytes s.buf.blen.toNat data.length) ∧
    (bufferUpdate data s).buf.bvalid = s.buf.bvalid := by
  obtain ⟨f, h1, h2, h3, h4, h5⟩ := bufferUpdate_flushed data s
  have hlen := congrArg List.length h2
  have hlt := (bufferUpdate data s).buf.blen.isLt
  simp only [List.length_append, pending_length] at hlen
  unfold flushedBytes at hcnt ⊢
  have hf : f.length = 64 * ((s.buf.blen.toNat + data.length) / 64) := by omega
  refine ⟨?_, ?_, by omega, ?_, h5⟩
  · rw [h3, ← h2, ← absorb_append _ _ _ h1, absorb_short _ (BufSlot.pending _)]
    rw [pending_length]; omega
  · rw [h4, BitVec.toNat_ofNat]; omega
  · rw [← h2, ← hf, List.drop_left]

/-- What `SHAB.UPDATE` leaves is a slot of the invariant's kind (R38 (b)). -/
theorem bufferUpdate_count_mod (data : List Byte) (s : State) (h : s.buf.bcnt.toNat % 64 = 0) :
    (bufferUpdate data s).buf.bcnt.toNat % 64 = 0 := by
  obtain ⟨f, h1, -, -, h4, -⟩ := bufferUpdate_flushed data s
  rw [h4, BitVec.toNat_ofNat]; omega

end Sys2Proof.Machine
end

