-- ==== Sys2Proof/Laws/Encoding.lean ====
section
/-! SUPPORT. The descriptor's two fields together, the rows of the opcode map, and payloads. -/

namespace Sys2Proof

/-- A descriptor is its two fields (R90). -/
theorem makeDesc_fields (d : Desc) : makeDesc (descOp d) (descLen d) = d := by
  apply BitVec.eq_of_getLsbD_eq; intro i hi
  simp only [descOp, descLen, makeDesc, BitVec.getLsbD_append, BitVec.getLsbD_extractLsb']
  by_cases h : i < 64
  · simp [h]
  · simp [h, show i - 64 < 8 by omega, show 64 + (i - 64) = i by omega]

theorem makeDesc_inj {op op' : BitVec 8} {len len' : BitVec 64} :
    makeDesc op len = makeDesc op' len' ↔ op = op' ∧ len = len' := by
  refine ⟨fun h => ?_, fun h => by rw [h.1, h.2]⟩
  have h1 := congrArg descOp h
  have h2 := congrArg descLen h
  simp only [descOp_makeDesc, descLen_makeDesc] at h1 h2
  exact ⟨h1, h2⟩

theorem makeDesc_and (op m : BitVec 8) (len n : BitVec 64) :
    makeDesc op len &&& makeDesc m n = makeDesc (op &&& m) (len &&& n) := by
  apply BitVec.eq_of_getLsbD_eq; intro i hi
  simp only [makeDesc, BitVec.getLsbD_and, BitVec.getLsbD_append]
  split <;> rfl

/-- A row of format L is selected by the opcode alone (R92). -/
theorem selects_opcode (name : String) (op : BitVec 8) (d : Desc) :
    OpcodeRow.selects ⟨name, makeDesc op 0, makeDesc 0xFF 0⟩ d = true ↔ descOp d = op := by
  conv_lhs => rw [← makeDesc_fields d]
  rw [OpcodeRow.selects, beq_iff_eq, makeDesc_and, makeDesc_inj,
    show (0xFF : BitVec 8) = BitVec.allOnes 8 from rfl, BitVec.and_allOnes]
  simp

/-- A row of format Z or B is selected by one descriptor alone (R92). -/
theorem selects_whole (name : String) (op : BitVec 8) (len : BitVec 64) (d : Desc) :
    OpcodeRow.selects ⟨name, makeDesc op len, makeDesc 0xFF (BitVec.allOnes 64)⟩ d = true ↔
      descOp d = op ∧ descLen d = len := by
  conv_lhs => rw [← makeDesc_fields d]
  rw [OpcodeRow.selects, beq_iff_eq, makeDesc_and, makeDesc_inj,
    show (0xFF : BitVec 8) = BitVec.allOnes 8 from rfl, BitVec.and_allOnes, BitVec.and_allOnes]

/-- Payloads are told apart by their bytes. -/
theorem Payload.ext_bytes {p q : Payload} (h : p.bytes = q.bytes) : p = q := by
  obtain ⟨n, b, hb⟩ := p
  obtain ⟨m, b', hb'⟩ := q
  cases h
  have : n = m := BitVec.eq_of_toNat_eq (hb.symm.trans hb')
  subst this; rfl

theorem Payload.empty_of_bytes {p : Payload} (h : p.bytes = []) : p = .empty := Payload.ext_bytes h

end Sys2Proof
end

