-- ==== Sys2Proof/Laws/PerInstr.lean ====
section
/-! SUPPORT. The family `RowMatch`, one lemma per command: the descriptor of a command selects the row
of the opcode map that bears its mnemonic (R92). -/

namespace Sys2Proof.Laws.RowMatch

/-- The encoding of the command selects its own row of the opcode map. -/
def Statement (i : Instr) : Prop :=
  ∃ row ∈ opcodeMap, row.mnemonic = i.mnemonic ∧ row.selects (encode i) = true

theorem shaInit : Statement .shaInit :=
  ⟨⟨"SHA.INIT", makeDesc 0x10 0, makeDesc 0xFF (BitVec.allOnes 64)⟩, by decide, rfl, by decide⟩

theorem shaUpdate (len : BitVec 64) : Statement (.shaUpdate len) :=
  ⟨⟨"SHA.UPDATE", makeDesc 0x11 0, makeDesc 0xFF 0⟩, by decide, rfl,
    (selects_opcode _ _ _).2 (descOp_encode _)⟩

theorem shaFinish (len : BitVec 64) : Statement (.shaFinish len) :=
  ⟨⟨"SHA.FINISH", makeDesc 0x12 0, makeDesc 0xFF 0⟩, by decide, rfl,
    (selects_opcode _ _ _).2 (descOp_encode _)⟩

theorem shaHash (len : BitVec 64) : Statement (.shaHash len) :=
  ⟨⟨"SHA.HASH", makeDesc 0x13 0, makeDesc 0xFF 0⟩, by decide, rfl,
    (selects_opcode _ _ _).2 (descOp_encode _)⟩

theorem shabInit : Statement .shabInit :=
  ⟨⟨"SHAB.INIT", makeDesc 0x20 0, makeDesc 0xFF (BitVec.allOnes 64)⟩, by decide, rfl, by decide⟩

theorem shabUpdate (len : BitVec 64) : Statement (.shabUpdate len) :=
  ⟨⟨"SHAB.UPDATE", makeDesc 0x21 0, makeDesc 0xFF 0⟩, by decide, rfl,
    (selects_opcode _ _ _).2 (descOp_encode _)⟩

theorem shabFinish (len : BitVec 64) : Statement (.shabFinish len) :=
  ⟨⟨"SHAB.FINISH", makeDesc 0x22 0, makeDesc 0xFF 0⟩, by decide, rfl,
    (selects_opcode _ _ _).2 (descOp_encode _)⟩

theorem tfKey128 (len : BitVec 64) : Statement (.tfKey128 len) :=
  ⟨⟨"TF.KEY128", makeDesc 0x40 0, makeDesc 0xFF 0⟩, by decide, rfl,
    (selects_opcode _ _ _).2 (descOp_encode _)⟩

theorem tfKey192 (len : BitVec 64) : Statement (.tfKey192 len) :=
  ⟨⟨"TF.KEY192", makeDesc 0x41 0, makeDesc 0xFF 0⟩, by decide, rfl,
    (selects_opcode _ _ _).2 (descOp_encode _)⟩

theorem tfKey256 (len : BitVec 64) : Statement (.tfKey256 len) :=
  ⟨⟨"TF.KEY256", makeDesc 0x42 0, makeDesc 0xFF 0⟩, by decide, rfl,
    (selects_opcode _ _ _).2 (descOp_encode _)⟩

theorem tfEnc : Statement .tfEnc :=
  ⟨⟨"TF.ENC", makeDesc 0x48 16, makeDesc 0xFF (BitVec.allOnes 64)⟩, by decide, rfl, by decide⟩

theorem tfDec : Statement .tfDec :=
  ⟨⟨"TF.DEC", makeDesc 0x49 16, makeDesc 0xFF (BitVec.allOnes 64)⟩, by decide, rfl, by decide⟩

end Sys2Proof.Laws.RowMatch
end

