-- ==== Sys2Proof/Laws/Run.lean ====
section
/-! SUPPORT. One host command as one step, and runs over several: what the step leaves in each of the
four ways a command can go. -/

namespace Sys2Proof.Machine

@[simp] theorem runEvents_zero (s : State) : runEvents 0 s = .next s := rfl

theorem runEvents_succ (n : Nat) (s : State) : runEvents (n + 1) s =
    match step s with
    | .next t => runEvents n t
    | .fault r => .fault r
    | .refused r => .refused r := rfl

theorem run_of_next (M : Host.Core) (n : Nat) (s t : M.State) (h : M.step s = .next t) :
    M.run (n + 1) s = M.run n t := by rw [Host.Core.run, h]

theorem run_of_fault (M : Host.Core) (n : Nat) (s : M.State) (r : M.Fault) (h : M.step s = .fault r) :
    M.run (n + 1) s = .fault r := by rw [Host.Core.run, h]

theorem run_of_refused (M : Host.Core) (n : Nat) (s : M.State) (r : M.Refusal)
    (h : M.step s = .refused r) : M.run (n + 1) s = .refused r := by rw [Host.Core.run, h]

/-- It is the host's own run of the machine. -/
theorem runEvents_eq_run (n : Nat) (s : State) : runEvents n s = Host.Core.run Sys2Proof.core n s := by
  induction n generalizing s with
  | zero => rfl
  | succ n ih =>
    rw [runEvents_succ]
    cases h : step s with
    | next t => exact (ih t).trans (run_of_next Sys2Proof.core n s t h).symm
    | fault r => exact (run_of_fault Sys2Proof.core n s r h).symm
    | refused r => exact (run_of_refused Sys2Proof.core n s r h).symm

theorem runEvents_succ_of_next {n : Nat} {s t : State} (h : step s = .next t) :
    runEvents (n + 1) s = runEvents n t := by
  rw [runEvents_succ, h]

/-- A run that answers a next state takes its first step and goes on from there. -/
theorem runEvents_succ_cases {n : Nat} {s t : State} (h : runEvents (n + 1) s = .next t) :
    ∃ u, step s = .next u ∧ runEvents n u = .next t := by
  cases hs : step s with
  | next u => exact ⟨u, rfl, by rw [← h, runEvents_succ_of_next hs]⟩
  | fault r =>
    rw [runEvents_succ, hs] at h; cases h
  | refused r =>
    rw [runEvents_succ, hs] at h; cases h

theorem runEvents_add {m n : Nat} {s t : State} (h : runEvents m s = .next t) :
    runEvents (m + n) s = runEvents n t := by
  induction m generalizing s with
  | zero => cases h; simp
  | succ m ih =>
    obtain ⟨u, hu, hr⟩ := runEvents_succ_cases h
    rw [show m + 1 + n = (m + n) + 1 by omega, runEvents_succ_of_next hu, ih hr]

theorem encode_of_decode {d : Desc} {i : Instr} (h : decode d = .ok i) : encode i = d := by
  obtain ⟨h1, h2⟩ := encode_of_decodeFields h
  rw [encode, h1, h2, makeDesc_fields]

/-- The tests of a command look at the slots and the context only, not at its payload. -/
@[simp] theorem testsOf_accept (i : Instr) (s : State) (p : Payload) (rest : List HostEvent) :
    testsOf i (s.accept p rest) = testsOf i s := by cases i <;> rfl

/-- A legal command is presented with its `LEN` bytes (R94). -/
theorem Command.wellFormed_of_decode {c : Command} {i : Instr} (h : decode c.desc = .ok i) :
    i.wellFormed c.payload = true := presents_of_decode h c.payload ▸ c.whole

@[simp] theorem Command.ofInstr_desc (i : Instr) (p : Payload) (h : i.wellFormed p = true) :
    (Command.ofInstr i p h).desc = encode i := rfl

@[simp] theorem Command.ofInstr_payload (i : Instr) (p : Payload) (h : i.wellFormed p = true) :
    (Command.ofInstr i p h).payload = p := rfl

@[simp] theorem Command.withData_desc (op : FormatL) (p : Payload) :
    (Command.withData op p).desc = encode (op.instr p.len) := rfl

@[simp] theorem Command.withData_payload (op : FormatL) (p : Payload) :
    (Command.withData op p).payload = p := rfl

/-- A pair is a command exactly when it is one that the host can present (R94). -/
theorem Command.ofPair_eq_some {d : Desc} {p : Payload} {c : Command} :
    Command.ofPair d p = some c ↔ c.desc = d ∧ c.payload = p := by
  unfold Command.ofPair
  constructor
  · intro h; split at h <;> cases h; exact ⟨rfl, rfl⟩
  · rintro ⟨rfl, rfl⟩; rw [dif_pos c.whole]

/-- A command that passes its tests has its effect. -/
theorem commandEvent_of_pass {c : Command} {i : Instr} {s : State} {rest : List HostEvent}
    (hd : decode c.desc = .ok i) (hf : s.flt.faulted = false) (ht : firstRaised (testsOf i s) = none) :
    commandEvent c rest s =
      .next (effectOf i c.payload.bytes (s.accept c.payload rest)).dropPayload := by
  rw [commandEvent, execDesc, hd]
  simp only []
  rw [exec_eq_runCommand, runCommand_of_pass (s := s.accept c.payload rest) (c.wellFormed_of_decode hd) hf
    (by rw [testsOf_accept]; exact ht)]
  rfl

/-- A command whose first failing test raises a cause enters the fault. -/
theorem commandEvent_of_raised {c : Command} {i : Instr} {s : State} {rest : List HostEvent} {cause : Cause}
    (hd : decode c.desc = .ok i) (hf : s.flt.faulted = false)
    (ht : firstRaised (testsOf i s) = some cause) :
    commandEvent c rest s = .next { s with
      flt := { faulted := true, cause := cause.code, fcmd := encode i }, input := rest, payload := .empty } := by
  rw [commandEvent, execDesc, hd]
  simp only []
  rw [exec_eq_runCommand, runCommand_of_raised (s := s.accept c.payload rest) (c.wellFormed_of_decode hd) hf
    (by rw [testsOf_accept]; exact ht)]
  rfl

/-- A faulted core refuses any command. -/
theorem commandEvent_of_faulted {c : Command} {s : State} {rest : List HostEvent}
    (hf : s.flt.faulted = true) :
    commandEvent c rest s = .next { s with input := rest, payload := .empty } := by
  have h : (s.accept c.payload rest).flt.faulted = true := hf
  rw [commandEvent, execDesc]
  cases hd : decode c.desc with
  | ok i =>
    simp only []
    rw [exec_eq_runCommand, runCommand_of_faulted (c.wellFormed_of_decode hd) h]; rfl
  | error r => simp only [runIllegal, h, if_true]; rfl

/-- An illegal command enters the fault of R95. -/
theorem commandEvent_of_illegal {c : Command} {s : State} {rest : List HostEvent} {r : DecodeReject}
    (hd : decode c.desc = .error r) (hf : s.flt.faulted = false) :
    commandEvent c rest s = .next { s with
      flt := { faulted := true, cause := Cause.illegalCmd.code, fcmd := c.desc }, input := rest,
      payload := .empty } := by
  have h : (s.accept c.payload rest).flt.faulted = false := hf
  rw [commandEvent, execDesc, hd]
  simp only [runIllegal, h, Bool.false_eq_true, if_false]; rfl

theorem step_command {s : State} {c : Command} {rest : List HostEvent}
    (h : s.input = .command c :: rest) : step s = commandEvent c rest s := by simp [step, h]

theorem step_reset {s : State} {rest : List HostEvent} (h : s.input = .reset :: rest) :
    step s = .next ({ s with input := rest } : State).resetEvent := by simp [step, h, resetPort]

/-- The step of presenting a command that passes its tests. -/
theorem step_of_pass {c : Command} {i : Instr} {s : State} {rest : List HostEvent}
    (h : s.input = .command c :: rest) (hd : decode c.desc = .ok i) (hf : s.flt.faulted = false)
    (ht : firstRaised (testsOf i s) = none) :
    step s = .next (effectOf i c.payload.bytes (s.accept c.payload rest)).dropPayload := by
  rw [step_command h, commandEvent_of_pass hd hf ht]

/-- Every command is answered by a next state, in one of three ways. -/
theorem commandEvent_cases (c : Command) (rest : List HostEvent) (s : State) :
    ∃ t, commandEvent c rest s = .next t ∧
    ((s.flt.faulted = true ∧ t = { s with input := rest, payload := .empty }) ∨
    (s.flt.faulted = false ∧ ∃ cause : Cause, t = { s with
      flt := { faulted := true, cause := cause.code, fcmd := c.desc }, input := rest, payload := .empty }) ∨
    (s.flt.faulted = false ∧ ∃ i, decode c.desc = .ok i ∧ firstRaised (testsOf i s) = none ∧
      t = (effectOf i c.payload.bytes (s.accept c.payload rest)).dropPayload)) := by
  cases hf : s.flt.faulted with
  | true => exact ⟨_, commandEvent_of_faulted hf, .inl ⟨rfl, rfl⟩⟩
  | false =>
    cases hd : decode c.desc with
    | error r => exact ⟨_, commandEvent_of_illegal hd hf, .inr (.inl ⟨rfl, _, rfl⟩)⟩
    | ok i =>
      cases ht : firstRaised (testsOf i s) with
      | some cause =>
        exact ⟨_, commandEvent_of_raised hd hf ht, .inr (.inl ⟨rfl, cause, by rw [encode_of_decode hd]⟩)⟩
      | none => exact ⟨_, commandEvent_of_pass hd hf ht, .inr (.inr ⟨rfl, i, rfl, ht, rfl⟩)⟩

/-- Everything a command can have done, when a next state is answered. -/
theorem commandEvent_next {c : Command} {rest : List HostEvent} {s t : State}
    (h : commandEvent c rest s = .next t) :
    (s.flt.faulted = true ∧ t = { s with input := rest, payload := .empty }) ∨
    (s.flt.faulted = false ∧ ∃ cause : Cause, t = { s with
      flt := { faulted := true, cause := cause.code, fcmd := c.desc }, input := rest, payload := .empty }) ∨
    (s.flt.faulted = false ∧ ∃ i, decode c.desc = .ok i ∧ firstRaised (testsOf i s) = none ∧
      t = (effectOf i c.payload.bytes (s.accept c.payload rest)).dropPayload) := by
  obtain ⟨u, hu, hc⟩ := commandEvent_cases c rest s
  rw [h] at hu; cases hu; exact hc

/-- Every step answers a next state. -/
theorem step_next (s : State) : ∃ t, step s = .next t := by
  unfold step
  cases s.input with
  | nil => exact ⟨s, rfl⟩
  | cons e rest =>
    cases e with
    | reset => exact ⟨_, rfl⟩
    | command c => obtain ⟨t, ht, -⟩ := commandEvent_cases c rest s; exact ⟨t, ht⟩

/-- So does every run. -/
theorem runEvents_next (n : Nat) (s : State) : ∃ t, runEvents n s = .next t := by
  induction n generalizing s with
  | zero => exact ⟨s, rfl⟩
  | succ n ih =>
    obtain ⟨t, ht⟩ := step_next s
    obtain ⟨u, hu⟩ := ih t
    exact ⟨u, by rw [runEvents_succ_of_next ht, hu]⟩

theorem wellFormed_iff {i : Instr} {p : Payload} : i.wellFormed p = true ↔ p.len = i.payloadLen := by
  simp [Instr.wellFormed]

/-- A command whose first failing test raises `c` enters the fault. -/
theorem exec_of_raised {i : Instr} {s : State} {c : Cause} (hw : s.payload.len = i.payloadLen)
    (hf : s.flt.faulted = false) (h : firstRaised (testsOf i s) = some c) :
    exec i s = .next (s.enterFault c (encode i)) :=
  (exec_eq_runCommand i s).trans (runCommand_of_raised (wellFormed_iff.2 hw) hf h)

/-- A command that passes its tests, with `LEN` payload bytes, has its effect. -/
theorem exec_of_pass {i : Instr} {s : State} (hw : s.payload.len = i.payloadLen)
    (hf : s.flt.faulted = false) (h : firstRaised (testsOf i s) = none) :
    exec i s = .next (effectOf i s.payload.bytes s) :=
  (exec_eq_runCommand i s).trans (runCommand_of_pass (wellFormed_iff.2 hw) hf h)

theorem BufSlot.live_of_valid {b : BufSlot} (h : b.bvalid = true) :
    b.live = some (b.bh, b.bcnt, b.pending) := by simp [BufSlot.live, h]

theorem RawSlot.live_of_valid {r : RawSlot} (h : r.rvalid = true) : r.live = some (r.rh, r.rcnt) := by
  simp [RawSlot.live, h]

theorem BufSlot.live_eq_valid {b b' : BufSlot} (h : b.live = b'.live) : b.bvalid = b'.bvalid := by
  unfold BufSlot.live at h; cases h1 : b.bvalid <;> cases h2 : b'.bvalid <;> simp_all

theorem RawSlot.live_eq_valid {r r' : RawSlot} (h : r.live = r'.live) : r.rvalid = r'.rvalid := by
  unfold RawSlot.live at h; cases h1 : r.rvalid <;> cases h2 : r'.rvalid <;> simp_all

theorem CipherContext.live_eq_valid {c c' : CipherContext} (h : c.live = c'.live) :
    c.cvalid = c'.cvalid := by
  unfold CipherContext.live at h; cases h1 : c.cvalid <;> cases h2 : c'.cvalid <;> simp_all

end Sys2Proof.Machine
end

