-- ==== Sys2Proof/Laws/Twofish.lean ====
section
/-! SUPPORT. The cipher: byte order of a block, whitening, the rounds and their inverses. -/

namespace Sys2Proof.Machine

theorem le32_LE32 (s : List Byte) (i : Nat) (h : i + 4 ≤ s.length) :
    le32 (LE32 s i) = (s.drop i).take 4 := by
  apply List.ext_getElem
  · simp; omega
  · intro j h1 h2
    simp only [le32_length] at h1
    simp only [le32, LE32, lane0_wordOfLanes, lane1_wordOfLanes, lane2_wordOfLanes, lane3_wordOfLanes,
      byteAt, List.getElem_take, List.getElem_drop, List.getD_eq_getElem?_getD]
    match j, h1 with
    | 0, _ => simp [List.getElem?_eq_getElem (show i < s.length by omega)]
    | 1, _ => simp [List.getElem?_eq_getElem (show i + 1 < s.length by omega)]
    | 2, _ => simp [List.getElem?_eq_getElem (show i + 2 < s.length by omega)]
    | 3, _ => simp [List.getElem?_eq_getElem (show i + 3 < s.length by omega)]

/-- A block read and written in one byte order is the block (R51). -/
theorem storeBlock_loadBlock (b : List Byte) (h : b.length = 16) : storeBlock (loadBlock b) = b := by
  simp only [storeBlock, loadBlock]
  rw [le32_LE32 _ _ (by omega), le32_LE32 _ _ (by omega), le32_LE32 _ _ (by omega),
    le32_LE32 _ _ (by omega)]
  obtain ⟨a, rfl⟩ : ∃ a : List.Vector Byte 16, a.toList = b := ⟨⟨b, h⟩, rfl⟩
  have e (n : Nat) : (a.toList.drop n).drop 4 = a.toList.drop (n + 4) := by rw [List.drop_drop]
  have l : (a.toList.drop 12).length ≤ 4 := by simp
  rw [List.take_of_length_le l, List.append_assoc, List.append_assoc, ← e 8, List.take_append_drop,
    ← e 4, List.take_append_drop, ← e 0, List.drop_zero, List.take_append_drop]

theorem LE32_le32 (x : Word) (a b : List Byte) (i : Nat) (h : a.length = i) :
    LE32 (a ++ (le32 x ++ b)) i = x := by
  subst h
  simp only [LE32, byteAt, List.getD_eq_getElem?_getD]
  simp [le32]

/-- Four words written and read are the words (R51). -/
theorem loadBlock_storeBlock (C : Quad) : loadBlock (storeBlock C) = C := by
  obtain ⟨c0, c1, c2, c3⟩ := C
  simp only [loadBlock, storeBlock, Quad.mk.injEq]
  refine ⟨?_, ?_, ?_, ?_⟩
  · rw [List.append_assoc, List.append_assoc]; exact LE32_le32 c0 [] _ 0 rfl
  · rw [List.append_assoc, List.append_assoc]; exact LE32_le32 c1 (le32 c0) _ 4 rfl
  · rw [List.append_assoc]; exact LE32_le32 c2 (le32 c0 ++ le32 c1) _ 8 rfl
  · exact (congrArg (LE32 · 12) (by rw [List.append_nil])).trans
      (LE32_le32 c3 (le32 c0 ++ le32 c1 ++ le32 c2) [] 12 rfl)

@[simp] theorem storeBlock_length (C : Quad) : (storeBlock C).length = 16 := rfl

@[simp] theorem encryptBlock_length (sb : Vector (Vector Word 256) 4) (sk : Vector Word 40)
    (b : List Byte) : (encryptBlock sb sk b).length = 16 := rfl

@[simp] theorem decryptBlock_length (sb : Vector (Vector Word 256) 4) (sk : Vector Word 40)
    (b : List Byte) : (decryptBlock sb sk b).length = 16 := rfl

/-- Whitening with the same subkeys twice does nothing. -/
theorem whiten_whiten (sk : Vector Word 40) (i : Nat) (R : Quad) : whiten sk i (whiten sk i R) = R := by
  simp [whiten]

theorem swapHalves_swapHalves (R : Quad) : swapHalves (swapHalves R) = R := rfl

/-- A decryption round undoes the encryption round with the same index (R199). -/
theorem decRound_encRound (sb : Vector (Vector Word 256) 4) (sk : Vector Word 40) (R : Quad) (r : Nat) :
    decRound sb sk (encRound sb sk R r) r = R := by
  simp [decRound, encRound, rotl_rotr_one, rotr_rotl_one]

/-- An encryption round undoes the decryption round with the same index (R199). -/
theorem encRound_decRound (sb : Vector (Vector Word 256) 4) (sk : Vector Word 40) (R : Quad) (r : Nat) :
    encRound sb sk (decRound sb sk R r) r = R := by
  simp [decRound, encRound, rotl_rotr_one, rotr_rotl_one]

theorem rho_eq_wordOfLanes : ∀ n < 40, rho n =
    wordOfLanes (BitVec.ofNat 8 n) (BitVec.ofNat 8 n) (BitVec.ofNat 8 n) (BitVec.ofNat 8 n) := by decide

theorem keyMe_eq (key : List Byte) :
    keyMe key = (List.range (key.length / 8)).map fun n => LE32 key (8 * n) := by
  unfold keyMe keyWords
  apply List.map_congr_left
  intro i hi
  rw [List.mem_range] at hi
  simp [List.getD_eq_getElem?_getD, show 2 * i < 2 * (key.length / 8) by omega]
  congr 1; omega

theorem keyMo_eq (key : List Byte) :
    keyMo key = (List.range (key.length / 8)).map fun n => LE32 key (8 * n + 4) := by
  unfold keyMo keyWords
  apply List.map_congr_left
  intro i hi
  rw [List.mem_range] at hi
  simp [List.getD_eq_getElem?_getD, show 2 * i + 1 < 2 * (key.length / 8) by omega]
  congr 1; omega

theorem listLS_eq (key : List Byte) :
    listLS key = (List.range (key.length / 8)).map fun n => sWord key (key.length / 8 - 1 - n) := by
  unfold listLS sVector
  apply List.ext_getElem
  · simp
  · intro i h1 h2; simp

theorem subkey_subkeys (key : List Byte) (n : Nat) (h : n < 40) :
    subkey (subkeys key) n = subkeyOf (keyMe key) (keyMo key) n := by
  unfold subkey subkeys
  rw [Vector.getElem?_eq_getElem h]; simp

theorem tableEntry_sBoxTables (key : List Byte) (j : Fin 4) (x : Byte) :
    tableEntry (sBoxTables key) j x = sBoxEntry (listLS key) j x.toNat := by
  unfold tableEntry sBoxTables
  simp [tabulate_getElem]

/-- No lane of the cascade looks at another lane (R168). -/
theorem cascade_lanes (y : Lanes) (L : List Word) : cascade y L =
    ⟨(cascade ⟨y.y0, y.y0, y.y0, y.y0⟩ L).y0, (cascade ⟨y.y1, y.y1, y.y1, y.y1⟩ L).y1,
     (cascade ⟨y.y2, y.y2, y.y2, y.y2⟩ L).y2, (cascade ⟨y.y3, y.y3, y.y3, y.y3⟩ L).y3⟩ := by
  unfold cascade Lanes.xorWord
  by_cases h4 : L.length = 4
  · simp [h4]
  · by_cases h3 : 3 ≤ L.length <;> simp [h4, h3]

theorem foldl_range_succ {α : Type} (f : α → Nat → α) (n : Nat) (R : α) :
    (List.range (n + 1)).foldl f R = f ((List.range n).foldl f R) n := by simp [List.range_succ]

/-- The encryption rounds undo the decryption rounds. -/
theorem encRounds_decRounds (sb : Vector (Vector Word 256) 4) (sk : Vector Word 40) (n : Nat) (R : Quad) :
    (List.range n).foldl (encRound sb sk) ((List.range n).reverse.foldl (decRound sb sk) R) = R := by
  induction n generalizing R with
  | zero => rfl
  | succ n ih =>
    rw [foldl_range_succ, List.range_succ, List.reverse_append]
    simp only [List.reverse_cons, List.reverse_nil, List.nil_append, List.cons_append, List.foldl_cons]
    rw [ih, encRound_decRound]

/-- The decryption rounds undo the encryption rounds. -/
theorem decRounds_encRounds (sb : Vector (Vector Word 256) 4) (sk : Vector Word 40) (n : Nat) (R : Quad) :
    (List.range n).reverse.foldl (decRound sb sk) ((List.range n).foldl (encRound sb sk) R) = R := by
  induction n generalizing R with
  | zero => rfl
  | succ n ih =>
    rw [foldl_range_succ, List.range_succ, List.reverse_append]
    simp only [List.reverse_cons, List.reverse_nil, List.nil_append, List.cons_append, List.foldl_cons]
    rw [decRound_encRound, ih]

/-- `TF.DEC`'s data path undoes `TF.ENC`'s, with any tables and subkeys (R201). -/
theorem decryptBlock_encryptBlock (sb : Vector (Vector Word 256) 4) (sk : Vector Word 40) (b : List Byte)
    (h : b.length = 16) : decryptBlock sb sk (encryptBlock sb sk b) = b := by
  simp only [decryptBlock, encryptBlock]
  rw [loadBlock_storeBlock, whiten_whiten, swapHalves_swapHalves, decRounds_encRounds, whiten_whiten,
    storeBlock_loadBlock b h]

/-- `TF.ENC`'s data path undoes `TF.DEC`'s (R201): the two are inverse permutations of the blocks. -/
theorem encryptBlock_decryptBlock (sb : Vector (Vector Word 256) 4) (sk : Vector Word 40) (b : List Byte)
    (h : b.length = 16) : encryptBlock sb sk (decryptBlock sb sk b) = b := by
  simp only [decryptBlock, encryptBlock]
  rw [loadBlock_storeBlock, whiten_whiten, encRounds_decRounds, swapHalves_swapHalves, whiten_whiten,
    storeBlock_loadBlock b h]

@[simp] theorem sVector_length (key : List Byte) : (sVector key).length = key.length / 8 := by simp [sVector]

/-- Word `i` of the S-vector. -/
theorem sVector_getD (key : List Byte) (i : Nat) (h : i < key.length / 8) :
    (sVector key).getD i 0 = sWord key i := by
  simp [sVector, List.getD_eq_getElem?_getD, h]

end Sys2Proof.Machine
end

