-- ==== Sys2Proof/Tests/Slice0.lean ====
section
/-! SUPPORT. Tests of the model on the spec's own examples (95_test_vectors.md and the Example lines of
the rules), the smoke test of `WellFormed`, and, for every obligation with hypotheses, witnesses that
meet them. Every expected value is the spec's. -/

namespace Sys2Proof.Tests

section

-- One proof at a time: a test evaluated by the kernel holds a thread, and each thread reserves its stack.
set_option Elab.async false

open Sys2Proof Sys2Proof.Machine

/-- `n` bytes written as one hexadecimal number, the first byte leftmost. -/
def hexBytes (n v : Nat) : List Byte := (List.range n).map fun i => BitVec.ofNat 8 (v / 256 ^ (n - 1 - i))

/-- `rep(b, n)`. -/
def rep (b : Byte) (n : Nat) : List Byte := List.replicate n b

/-- The outcome is a next state with the property. -/
def nextHas (o : Host.Outcome State Fault Refusal) (p : State → Bool) : Bool :=
  match o with
  | .next t => p t
  | .fault _ => false
  | .refused _ => false

theorem exists_of_nextHas {o : Host.Outcome State Fault Refusal} {p : State → Bool}
    (h : nextHas o p = true) : ∃ t, o = .next t ∧ p t = true := by
  cases o with
  | next t => exact ⟨t, rfl, h⟩
  | fault r => cases h
  | refused r => cases h

/-- The bytes as a payload. -/
abbrev pay (bytes : List Byte) (h : bytes.length < 2 ^ 64 := by decide) : Payload := .ofBytes bytes h

/-- The host presents the descriptor with the bytes, which must be its `LEN` bytes (R94). -/
def cmd (d : Desc) (bytes : List Byte) (h : bytes.length < 2 ^ 64 := by decide)
    (hw : presents d (pay bytes h) = true := by decide) : HostEvent :=
  .command { desc := d, payload := pay bytes h, whole := hw }

/-- One step from `s` with the event `e` presented. -/
def stepOn (s : State) (e : HostEvent) : Host.Outcome State Fault Refusal := step { s with input := [e] }

/-- After reset, with a live RAW accumulator that has taken `cnt` bytes. -/
def rawAt (cnt : BitVec 64) : State := { State.reset with raw := { rh := IV, rcnt := cnt, rvalid := true } }

/-- After reset, with a live BUF accumulator: `cnt` bytes flushed, `len` bytes 0x61 pending. -/
def bufAt (cnt : BitVec 64) (len : BitVec 6) : State :=
  { State.reset with buf := {
      bh := IV, bcnt := cnt, bbuf := Vector.replicate 64 0x61, blen := len, bvalid := true } }

/-- After reset, with the context of a key. -/
def keyed (key : List Byte) : State :=
  { State.reset with ctx := { sb := sBoxTables key, sk := subkeys key, cvalid := true } }

/-- A core faulted by `SHA.UPDATE "abc"` (60_exceptions.md R222). -/
def faultedCore : State := { State.reset with
  flt := { faulted := true, cause := 2, fcmd := 0x110000000000000003 } }

/-- The official 192- and 256-bit keys (95_test_vectors.md 2.3.1). -/
def key192 : List Byte := hexBytes 24 0x0123456789ABCDEFFEDCBA98765432100011223344556677
def key256 : List Byte := hexBytes 32 0x0123456789ABCDEFFEDCBA987654321000112233445566778899AABBCCDDEEFF

/-! ### Well-formedness: an ill-formed term for each format, refused -/

theorem test_wellFormed_formatZ : Instr.shaInit.wellFormed (pay [0]) = false ∧
    Instr.shabInit.wellFormed .empty = true := by decide

theorem test_wellFormed_formatL : (Instr.shaHash 3).wellFormed (pay [1, 2]) = false ∧
    (Instr.shaHash 3).wellFormed (pay [1, 2, 3, 4]) = false ∧
    (Instr.shaHash 3).wellFormed (pay [1, 2, 3]) = true := by decide

theorem test_wellFormed_formatB : Instr.tfEnc.wellFormed (pay (rep 0 15)) = false ∧
    Instr.tfDec.wellFormed (pay (rep 0 17)) = false ∧ Instr.tfDec.wellFormed (pay (rep 0 16)) = true := by decide

/-- A pair with another payload than `LEN` bytes is no command; an illegal descriptor takes any (R94, R95). -/
theorem test_wellFormed_command : Command.ofPair 0x130000000000000003 (pay [1, 2]) = none ∧
    Command.ofPair 0x100000000000000000 (pay [1]) = none ∧
    (Command.ofPair 0x130000000000000002 (pay [1, 2])).isSome = true ∧
    (Command.ofPair 0xFF0000000000000003 (pay [1, 2])).isSome = true := by decide

/-! ### Decoding: one word per command, written out from the table of R92 -/

theorem test_decode_shaInit : decode
    0b00010000_00000000_00000000_00000000_00000000_00000000_00000000_00000000_00000000#72
      = .ok .shaInit := by decide

theorem test_decode_shaUpdate : decode
    0b00010001_00000000_00000000_00000000_00000001_00000000_00000000_00000000_00000000#72
      = .ok (.shaUpdate 4294967296) := by decide

theorem test_decode_shaFinish : decode
    0b00010010_00000000_00000000_00000000_00000000_00000000_00000000_00000000_00000011#72
      = .ok (.shaFinish 3) := by decide

theorem test_decode_shaHash : decode
    0b00010011_00000000_00000000_00000000_00000000_00000000_00001111_01000010_01000000#72
      = .ok (.shaHash 1000000) := by decide

theorem test_decode_shabInit : decode
    0b00100000_00000000_00000000_00000000_00000000_00000000_00000000_00000000_00000000#72
      = .ok .shabInit := by decide

theorem test_decode_shabUpdate : decode
    0b00100001_00000000_00000000_00000000_00000000_00000000_00000000_00000000_00001010#72
      = .ok (.shabUpdate 10) := by decide

theorem test_decode_shabFinish : decode
    0b00100010_00000000_00000000_00000000_00000000_00000000_00000000_00000000_00000000#72
      = .ok (.shabFinish 0) := by decide

theorem test_decode_tfKey128 : decode
    0b01000000_00000000_00000000_00000000_00000000_00000000_00000000_00000000_00010000#72
      = .ok (.tfKey128 16) := by decide

theorem test_decode_tfKey192 : decode
    0b01000001_00000000_00000000_00000000_00000000_00000000_00000000_00000000_00011000#72
      = .ok (.tfKey192 24) := by decide

theorem test_decode_tfKey256 : decode
    0b01000010_00000000_00000000_00000000_00000000_00000000_00000000_00000000_00100000#72
      = .ok (.tfKey256 32) := by decide

theorem test_decode_tfEnc : decode
    0b01001000_00000000_00000000_00000000_00000000_00000000_00000000_00000000_00010000#72
      = .ok .tfEnc := by decide

theorem test_decode_tfDec : decode
    0b01001001_00000000_00000000_00000000_00000000_00000000_00000000_00000000_00010000#72
      = .ok .tfDec := by decide

/-- 95_test_vectors.md 2.5.3. -/
theorem test_decode_illegal :
    decode 0x000000000000000000 = .error (.unknownOpcode 0x00) ∧
    decode 0xFFFFFFFFFFFFFFFFFF = .error (.unknownOpcode 0xFF) ∧
    decode 0x430000000000000020 = .error (.unknownOpcode 0x43) ∧
    decode 0x4A0000000000000010 = .error (.unknownOpcode 0x4A) ∧
    decode 0x100000000000000001 = .error (.formatZLength 0x10 1) ∧
    decode 0x208000000000000000 = .error (.formatZLength 0x20 0x8000000000000000) ∧
    decode 0x48000000000000000F = .error (.formatBLength 0x48 15) ∧
    decode 0x490000000000000020 = .error (.formatBLength 0x49 32) := by decide

/-- 95_test_vectors.md 2.5.1, the column of 9 bytes (R96). -/
theorem test_descBytes : descBytes 0x1300000000000F4240 = [0x13, 0, 0, 0, 0, 0, 0x0F, 0x42, 0x40] ∧
    descOfBytes [0x41, 0, 0, 0, 0, 0, 0, 0, 0x18] = some 0x410000000000000018 ∧
    descOfBytes [0x41, 0, 0, 0, 0, 0, 0, 0] = none := by decide

theorem test_decodeTableWord : decodeTableWord 72 0x110000000000000040 = some (.shaUpdate 64) ∧
    decodeTableWord 72 0xFF0000000000000000 = none := by decide

/-- `withFetchWord` presents the word as the very next command, which runs. -/
theorem test_withFetchWord :
    nextHas (step (State.reset.withFetchWord 72 0x200000000000000000)) (fun t => t.status == 2) = true ∧
    nextHas (step (State.reset.withFetchWord 72 0x110000000000000040))
      (fun t => t.faultReg == 0x11000000000000004002) = true := by decide +kernel

/-- 95_test_vectors.md 2.5.1: assembler lines and a pseudo-command (R98, R99). -/
theorem test_assemble :
    assemble (.shaFinish (some (.ascii [0x61, 0x62, 0x63]))) = .ok (0x120000000000000003, pay [0x61, 0x62, 0x63]) ∧
    assemble (.shaFinish none) = .ok (0x120000000000000000, .empty) ∧
    assemble (.tfKey (.rep 0 24)) = .ok (0x410000000000000018, pay (rep 0 24)) ∧
    assemble (.tfEnc (.append (.rep 0 8) (.hex [1]))) = .error .blockLength := by decide

/-! ### ROMs and operators -/

/-- The printed table of `Q0` (20_memory.md R61). -/
theorem test_Q0_table : (List.range 256).map (fun x => Q0 (BitVec.ofNat 8 x)) =
    [0xA9, 0x67, 0xB3, 0xE8, 0x04, 0xFD, 0xA3, 0x76, 0x9A, 0x92, 0x80, 0x78, 0xE4, 0xDD, 0xD1, 0x38] ++
    [0x0D, 0xC6, 0x35, 0x98, 0x18, 0xF7, 0xEC, 0x6C, 0x43, 0x75, 0x37, 0x26, 0xFA, 0x13, 0x94, 0x48] ++
    [0xF2, 0xD0, 0x8B, 0x30, 0x84, 0x54, 0xDF, 0x23, 0x19, 0x5B, 0x3D, 0x59, 0xF3, 0xAE, 0xA2, 0x82] ++
    [0x63, 0x01, 0x83, 0x2E, 0xD9, 0x51, 0x9B, 0x7C, 0xA6, 0xEB, 0xA5, 0xBE, 0x16, 0x0C, 0xE3, 0x61] ++
    [0xC0, 0x8C, 0x3A, 0xF5, 0x73, 0x2C, 0x25, 0x0B, 0xBB, 0x4E, 0x89, 0x6B, 0x53, 0x6A, 0xB4, 0xF1] ++
    [0xE1, 0xE6, 0xBD, 0x45, 0xE2, 0xF4, 0xB6, 0x66, 0xCC, 0x95, 0x03, 0x56, 0xD4, 0x1C, 0x1E, 0xD7] ++
    [0xFB, 0xC3, 0x8E, 0xB5, 0xE9, 0xCF, 0xBF, 0xBA, 0xEA, 0x77, 0x39, 0xAF, 0x33, 0xC9, 0x62, 0x71] ++
    [0x81, 0x79, 0x09, 0xAD, 0x24, 0xCD, 0xF9, 0xD8, 0xE5, 0xC5, 0xB9, 0x4D, 0x44, 0x08, 0x86, 0xE7] ++
    [0xA1, 0x1D, 0xAA, 0xED, 0x06, 0x70, 0xB2, 0xD2, 0x41, 0x7B, 0xA0, 0x11, 0x31, 0xC2, 0x27, 0x90] ++
    [0x20, 0xF6, 0x60, 0xFF, 0x96, 0x5C, 0xB1, 0xAB, 0x9E, 0x9C, 0x52, 0x1B, 0x5F, 0x93, 0x0A, 0xEF] ++
    [0x91, 0x85, 0x49, 0xEE, 0x2D, 0x4F, 0x8F, 0x3B, 0x47, 0x87, 0x6D, 0x46, 0xD6, 0x3E, 0x69, 0x64] ++
    [0x2A, 0xCE, 0xCB, 0x2F, 0xFC, 0x97, 0x05, 0x7A, 0xAC, 0x7F, 0xD5, 0x1A, 0x4B, 0x0E, 0xA7, 0x5A] ++
    [0x28, 0x14, 0x3F, 0x29, 0x88, 0x3C, 0x4C, 0x02, 0xB8, 0xDA, 0xB0, 0x17, 0x55, 0x1F, 0x8A, 0x7D] ++
    [0x57, 0xC7, 0x8D, 0x74, 0xB7, 0xC4, 0x9F, 0x72, 0x7E, 0x15, 0x22, 0x12, 0x58, 0x07, 0x99, 0x34] ++
    [0x6E, 0x50, 0xDE, 0x68, 0x65, 0xBC, 0xDB, 0xF8, 0xC8, 0xA8, 0x2B, 0x40, 0xDC, 0xFE, 0x32, 0xA4] ++
    [0xCA, 0x10, 0x21, 0xF0, 0xD3, 0x5D, 0x0F, 0x00, 0x6F, 0x9D, 0x36, 0x42, 0x4A, 0x5E, 0xC1, 0xE0] := by decide +kernel

/-- The printed table of `Q1` (20_memory.md R61). -/
theorem test_Q1_table : (List.range 256).map (fun x => Q1 (BitVec.ofNat 8 x)) =
    [0x75, 0xF3, 0xC6, 0xF4, 0xDB, 0x7B, 0xFB, 0xC8, 0x4A, 0xD3, 0xE6, 0x6B, 0x45, 0x7D, 0xE8, 0x4B] ++
    [0xD6, 0x32, 0xD8, 0xFD, 0x37, 0x71, 0xF1, 0xE1, 0x30, 0x0F, 0xF8, 0x1B, 0x87, 0xFA, 0x06, 0x3F] ++
    [0x5E, 0xBA, 0xAE, 0x5B, 0x8A, 0x00, 0xBC, 0x9D, 0x6D, 0xC1, 0xB1, 0x0E, 0x80, 0x5D, 0xD2, 0xD5] ++
    [0xA0, 0x84, 0x07, 0x14, 0xB5, 0x90, 0x2C, 0xA3, 0xB2, 0x73, 0x4C, 0x54, 0x92, 0x74, 0x36, 0x51] ++
    [0x38, 0xB0, 0xBD, 0x5A, 0xFC, 0x60, 0x62, 0x96, 0x6C, 0x42, 0xF7, 0x10, 0x7C, 0x28, 0x27, 0x8C] ++
    [0x13, 0x95, 0x9C, 0xC7, 0x24, 0x46, 0x3B, 0x70, 0xCA, 0xE3, 0x85, 0xCB, 0x11, 0xD0, 0x93, 0xB8] ++
    [0xA6, 0x83, 0x20, 0xFF, 0x9F, 0x77, 0xC3, 0xCC, 0x03, 0x6F, 0x08, 0xBF, 0x40, 0xE7, 0x2B, 0xE2] ++
    [0x79, 0x0C, 0xAA, 0x82, 0x41, 0x3A, 0xEA, 0xB9, 0xE4, 0x9A, 0xA4, 0x97, 0x7E, 0xDA, 0x7A, 0x17] ++
    [0x66, 0x94, 0xA1, 0x1D, 0x3D, 0xF0, 0xDE, 0xB3, 0x0B, 0x72, 0xA7, 0x1C, 0xEF, 0xD1, 0x53, 0x3E] ++
    [0x8F, 0x33, 0x26, 0x5F, 0xEC, 0x76, 0x2A, 0x49, 0x81, 0x88, 0xEE, 0x21, 0xC4, 0x1A, 0xEB, 0xD9] ++
    [0xC5, 0x39, 0x99, 0xCD, 0xAD, 0x31, 0x8B, 0x01, 0x18, 0x23, 0xDD, 0x1F, 0x4E, 0x2D, 0xF9, 0x48] ++
    [0x4F, 0xF2, 0x65, 0x8E, 0x78, 0x5C, 0x58, 0x19, 0x8D, 0xE5, 0x98, 0x57, 0x67, 0x7F, 0x05, 0x64] ++
    [0xAF, 0x63, 0xB6, 0xFE, 0xF5, 0xB7, 0x3C, 0xA5, 0xCE, 0xE9, 0x68, 0x44, 0xE0, 0x4D, 0x43, 0x69] ++
    [0x29, 0x2E, 0xAC, 0x15, 0x59, 0xA8, 0x0A, 0x9E, 0x6E, 0x47, 0xDF, 0x34, 0x35, 0x6A, 0xCF, 0xDC] ++
    [0x22, 0xC9, 0xC0, 0x9B, 0x89, 0xD4, 0xED, 0xAB, 0x12, 0xA2, 0x0D, 0x52, 0xBB, 0x02, 0x2F, 0xA9] ++
    [0xD7, 0x61, 0x1E, 0xB4, 0x50, 0x04, 0xF6, 0xC2, 0x16, 0x25, 0x86, 0x56, 0x55, 0x09, 0xBE, 0x91] := by decide +kernel

/-- 95_test_vectors.md 2.2.1. -/
theorem test_gfmul :
    gfmul 0x02 0x80 polyMDS = 0x69 ∧ gfmul 0x02 0x80 polyRS = 0x4D ∧ gfmul 0x5B 0x02 polyMDS = 0xB6 ∧
    gfmul 0xEF 0xEF polyMDS = 0xF9 ∧ gfmul 0xA4 0x02 polyRS = 0x05 ∧ gfmul 0xFF 0xFF polyMDS = 0x90 ∧
    gfmul 0xFF 0xFF polyRS = 0xF6 ∧ gfmul 0x00 0x57 polyMDS = 0x00 ∧ gfmul 0x01 0x57 polyRS = 0x57 := by
  decide +kernel

/-- 95_test_vectors.md 2.1.1. -/
theorem test_wordFunctions :
    ssig0 0x12345678 = 0xe7fce6ee ∧ ssig1 0x12345678 = 0xa1f78649 ∧
    bsig0 0x12345678 = 0x66146474 ∧ bsig1 0x12345678 = 0x3561abda ∧
    ssig0 0xffffffff = 0x1fffffff ∧ ssig1 0x00000001 = 0x0000a000 ∧
    Ch 0xf0f0f0f0 0xff00ff00 0xffff0000 = 0xff0ff000 ∧ Maj 0xf0f0f0f0 0xff00ff00 0xffff0000 = 0xfff0f000 := by
  decide +kernel

/-- R11. -/
theorem test_byteOrder : BE32 [1, 2, 3, 4, 5] 1 = 0x02030405 ∧ LE32 [1, 2, 3, 4, 5] 1 = 0x05040302 ∧
    be32 0x01020304 = [1, 2, 3, 4] ∧ le32 0x01020304 = [4, 3, 2, 1] ∧
    be64 0x1b8 = [0, 0, 0, 0, 0, 0, 1, 0xb8] := by decide +kernel

/-! ### SHA-256 -/

/-- The padded block of "abc" and its schedule (40_sha256_compress.md R127, R121; 95 2.1.3). -/
theorem test_pad_abc : pad [0x61, 0x62, 0x63] 3 =
    [0x61, 0x62, 0x63, 0x80] ++ rep 0 52 ++ [0, 0, 0, 0, 0, 0, 0, 0x18] := by decide +kernel

theorem test_schedule_abc : [16, 17, 18, 19, 31, 63].map (fun t => (schedule (pad [0x61, 0x62, 0x63] 3)).getD t 0) =
    [0x61626380, 0x000f0000, 0x7da86405, 0x600003c6, 0xd3b7973b, 0x12b1edeb] := by decide +kernel

/-- Padding at the boundary (R127; 95 2.1.5). -/
theorem test_pad_boundary :
    pad (rep 0x61 55) 55 = rep 0x61 55 ++ [0x80] ++ [0, 0, 0, 0, 0, 0, 0x01, 0xb8] ∧
    pad (rep 0x61 56) 56 = rep 0x61 56 ++ [0x80] ++ rep 0 7 ++ rep 0 56 ++ [0, 0, 0, 0, 0, 0, 0x01, 0xc0] ∧
    pad (rep 0x61 63) 63 = rep 0x61 63 ++ [0x80] ++ rep 0 56 ++ [0, 0, 0, 0, 0, 0, 0x01, 0xf8] := by
  decide +kernel

/-- Round 0 of the "abc" block (R123's example). -/
theorem test_shaRound_abc : shaRound (K 0) 0x61626380 (workOf IV) =
    { a := 0x5d6aebcd, b := 0x6a09e667, c := 0xbb67ae85, d := 0x3c6ef372,
      e := 0xfa2a4622, f := 0x510e527f, g := 0x9b05688c, h := 0x1f83d9ab } := by decide +kernel

/-- R123's second example. -/
theorem test_compress_zeros : compress IV (zeros 64) =
    #v[0xda5698be, 0x17b9b469, 0x62335799, 0x779fbeca, 0x8ce5d491, 0xc0d26243, 0xbafef9ea, 0x1837a9d8] := by
  decide +kernel

/-! ### Twofish key schedule -/

/-- 95_test_vectors.md 2.2.2. -/
theorem test_sVector :
    sVector key256 = [0xB89FF6F2, 0xB255BC4B, 0x45661061, 0x8E4447F7] ∧
    sVector (hexBytes 16 0x00000000000000010000000000000000) = [0x0319E59E, 0x00000000] ∧
    keyMe key256 = [0x67452301, 0x98BADCFE, 0x33221100, 0xBBAA9988] ∧
    keyMo key256 = [0xEFCDAB89, 0x10325476, 0x77665544, 0xFFEEDDCC] := by decide +kernel

/-- 95_test_vectors.md 2.2.3; R169's example. -/
theorem test_hFun :
    hFun 0x01010101 [0, 0] = 0x53E3C3AA ∧ hFun 0 [0, 0, 0] = 0x9395F7F0 ∧ hFun 0 [0, 0, 0, 0] = 0xD4750C54 ∧
    hFun 0 (keyMe key256) = 0x8D6C6AE0 ∧ hFun 0x01010101 (keyMo key256) = 0xDFD15AFE ∧
    hFun 0 (keyMe key192) = 0xB590DDC0 ∧ mdscol 0 0x75 = 0xBCBC3275 := by decide +kernel

theorem test_sBoxTables :
    tableEntry (sBoxTables key192) 0 0x01 = 0x88889B26 ∧ tableEntry (sBoxTables key192) 1 0xFF = 0xF67F0404 ∧
    tableEntry (sBoxTables key256) 2 0x00 = 0x139113EF ∧ tableEntry (sBoxTables key256) 3 0xFF = 0x416B5441 ∧
    tableEntry (sBoxTables (zeros 16)) 3 0x01 = 0xC3BDFCC3 := by decide +kernel

/-- 95_test_vectors.md 2.2.4. -/
theorem test_subkeys :
    [0, 1, 7, 8, 39].map (subkey (subkeys (zeros 16))) = [0x52C54DDE, 0x11F0626D, 0xCFE14BE4, 0xF98FFEF9, 0x696EA672] ∧
    [0, 3, 39].map (subkey (subkeys key192)) = [0x38394A24, 0x219BFEB4, 0x6A1AD61E] ∧
    [0, 3, 39].map (subkey (subkeys key256)) = [0x5EC769BF, 0x16750474, 0xF0D54DCD] := by decide +kernel

/-- One round each way (R197's example; R199). -/
theorem test_rounds :
    let c := (keyed (zeros 16)).ctx
    encRound c.sb c.sk ⟨0x52C54DDE, 0x11F0626D, 0x7CAC9D4A, 0x4D1B4AAA⟩ 0 =
      ⟨0xC38DCAA4, 0x7A0A91B6, 0x52C54DDE, 0x11F0626D⟩ ∧
    decRound c.sb c.sk ⟨0x55A538DE, 0x5C5A4DB6, 0xC38DCAA4, 0x7A0A91B6⟩ 1 =
      ⟨0xC38DCAA4, 0x7A0A91B6, 0x52C54DDE, 0x11F0626D⟩ := by decide +kernel

/-! ### One step of every command -/

/-- R125's example. -/
theorem test_step_shaInit : nextHas (stepOn (rawAt 64) (cmd 0x100000000000000000 []))
    (fun t => t.raw == ⟨IV, 0, true⟩ && t.status == 0x01) = true := by decide +kernel

/-- R126's example. -/
theorem test_step_shaUpdate : nextHas (stepOn (rawAt 0) (cmd 0x110000000000000040 (zeros 64)))
    (fun t => t.raw == ⟨#v[0xda5698be, 0x17b9b469, 0x62335799, 0x779fbeca, 0x8ce5d491, 0xc0d26243, 0xbafef9ea,
      0x1837a9d8], 64, true⟩) = true := by decide +kernel

/-- 95_test_vectors.md 2.6.1 row 8. -/
theorem test_step_shaUpdate_misaligned : nextHas (stepOn (rawAt 0) (cmd 0x110000000000000003 [0x61, 0x62, 0x63]))
    (fun t => t.status == 0x21 && t.faultReg == 0x11000000000000000304) = true := by decide +kernel

/-- R128's example: SHA-256 of "abc". -/
theorem test_step_shaFinish : nextHas (stepOn (rawAt 0) (cmd 0x120000000000000003 [0x61, 0x62, 0x63]))
    (fun t => t.status == 0x08 && t.dig.digest.toList ==
      hexBytes 32 0xba7816bf8f01cfea414140de5dae2223b00361a396177a9cb410ff61f20015ad) = true := by decide +kernel

/-- 95_test_vectors.md 2.1.5, n = 64: a leading whole block. -/
theorem test_step_shaHash : nextHas (stepOn (rawAt 64) (cmd 0x130000000000000040 (rep 0x61 64)))
    (fun t => t.status == 0x09 && t.dig.digest.toList ==
      hexBytes 32 0xffe054fe7ae0cb6dc65c3af9b61d5209f439851db43d0ba5997337df154668eb) = true := by decide +kernel

/-- R141's example: the empty message. -/
theorem test_step_shaHash_empty : nextHas (stepOn State.reset (cmd 0x130000000000000000 []))
    (fun t => t.dig.digest.toList ==
      hexBytes 32 0xe3b0c44298fc1c149afbf4c8996fb92427ae41e4649b934ca495991b7852b855) = true := by decide +kernel

/-- R150's example. -/
theorem test_step_shabInit : nextHas (stepOn (bufAt 64 5) (cmd 0x200000000000000000 []))
    (fun t => t.buf.live == some (IV, 0, []) && t.status == 0x02) = true := by decide +kernel

/-- R151's example: 60 bytes pending, 10 more. -/
theorem test_step_shabUpdate : nextHas (stepOn (bufAt 0 60) (cmd 0x21000000000000000A (rep 0x61 10)))
    (fun t => t.buf.live == some (#v[0xdf5bb81c, 0xe81e0626, 0xfb45a894, 0x4fd40f31, 0xb25e6816, 0xd6d499c1,
      0xab904929, 0x00635e66], 64, rep 0x61 6)) = true := by decide +kernel

/-- 95_test_vectors.md 2.4.2: `BLEN + LEN = 64`; the buffer never rests at 64. -/
theorem test_step_shabUpdate_full : nextHas (stepOn (bufAt 0 63) (cmd 0x210000000000000001 [0x61]))
    (fun t => t.buf.live == some (#v[0xdf5bb81c, 0xe81e0626, 0xfb45a894, 0x4fd40f31, 0xb25e6816, 0xd6d499c1,
      0xab904929, 0x00635e66], 64, [])) = true := by decide +kernel

/-- 95_test_vectors.md 2.1.5, n = 56: 50 bytes pending, 6 more. -/
theorem test_step_shabFinish : nextHas (stepOn (bufAt 0 50) (cmd 0x220000000000000006 (rep 0x61 6)))
    (fun t => t.status == 0x08 && t.dig.digest.toList ==
      hexBytes 32 0xb35439a4ac6f0948b6d6f9e3c6af0f5f590ce20f1bde7090ef7970686ec6738a) = true := by decide +kernel

/-- R175's example. -/
theorem test_step_tfKey128 : nextHas (stepOn State.reset (cmd 0x400000000000000010 (zeros 16)))
    (fun t => t.status == 0x04 && subkey t.ctx.sk 9 == 0x9C5B3C17 &&
      tableEntry t.ctx.sb 0 0xFF == 0x6E6ECF2B) = true := by decide +kernel

/-- 95_test_vectors.md 2.6.1 row 10. -/
theorem test_step_tfKey128_keySize : nextHas (stepOn State.reset (cmd 0x400000000000000018 (zeros 24)))
    (fun t => t.status == 0x20 && t.faultReg == 0x40000000000000001806) = true := by decide +kernel

/-- R176's example. -/
theorem test_step_tfKey192 : nextHas (stepOn State.reset (cmd 0x410000000000000018 key192))
    (fun t => t.status == 0x04 && subkey t.ctx.sk 1 == 0xC36D1175 &&
      tableEntry t.ctx.sb 2 0x00 == 0x00000000) = true := by decide +kernel

/-- R177's example. -/
theorem test_step_tfKey256 : nextHas (stepOn State.reset (cmd 0x420000000000000020 key256))
    (fun t => t.status == 0x04 && subkey t.ctx.sk 2 == 0x76CD39B1 &&
      tableEntry t.ctx.sb 1 0x01 == 0xBC93CDCD) = true := by decide +kernel

/-- The official 128-bit vector (95_test_vectors.md 2.3.1). -/
theorem test_step_tfEnc : nextHas (stepOn (keyed (zeros 16)) (cmd 0x480000000000000010 (zeros 16)))
    (fun t => t.status == 0x14 && t.blk.blkout.toList == hexBytes 16 0x9F589F5CF6122C32B6BFEC2F2AE8C35A) = true := by
  decide +kernel

/-- 95_test_vectors.md 2.6.1 row 6. -/
theorem test_step_tfEnc_noContext : nextHas (stepOn State.reset (cmd 0x480000000000000010 (zeros 16)))
    (fun t => t.status == 0x20 && t.faultReg == 0x48000000000000001003) = true := by decide +kernel

/-- The official 256-bit vector, decrypted (95_test_vectors.md 2.3.1). -/
theorem test_step_tfDec : nextHas (stepOn (keyed key256)
      (cmd 0x490000000000000010 (hexBytes 16 0x37527BE0052334B89F0CFCCAE87CFA20)))
    (fun t => t.status == 0x14 && t.blk.blkout.toList == zeros 16) = true := by decide +kernel

/-- A refused illegal descriptor does not overwrite `CAUSE` (95_test_vectors.md 2.6.3). -/
theorem test_step_refused : nextHas (stepOn faultedCore (cmd 0xFF0000000000000000 []))
    (fun t => t.faultReg == 0x11000000000000000302) = true := by decide +kernel

/-- The reset event (95_test_vectors.md 2.6.3). -/
theorem test_step_reset : nextHas (stepOn faultedCore .reset)
    (fun t => t.status == 0 && t.faultReg == 0) = true := by decide +kernel

/-! ### Witnesses: every hypothesis of every obligation is met by a concrete state -/

/-- A live RAW and BUF slot and a context, all within R38. -/
def live : State := { keyed (zeros 16) with
  raw := { rh := IV, rcnt := 64, rvalid := true }
  buf := { bh := IV, bcnt := 0x1FFFFFFFFFFFFFC0, bbuf := Vector.replicate 64 0x61, blen := 63, bvalid := true } }

theorem witness_EveryStepKeepsInvariant : ∃ s t : State, s.Inv ∧ step s = .next t ∧ t.raw.rcnt = 128 := by
  let s : State := { live with input := [cmd 0x110000000000000040 (zeros 64)] }
  have hI : s.Inv := {
    raw := by decide
    buf := by decide
    context := fun _ => ⟨zeros 16, .inl rfl, rfl, rfl⟩
    clean := by decide
    recorded := by decide
    payload := rfl }
  obtain ⟨t, ht, hp⟩ := exists_of_nextHas
    (show nextHas (step s) (fun t => t.raw.rcnt == 128) = true by decide +kernel)
  exact ⟨s, t, hI, ht, by simpa using hp⟩

theorem witness_ResetEventClearsFlagsAndFault_reset : ∃ (s : State) (rest : List HostEvent),
    s.input = .reset :: rest ∧ s.flt.faulted = true :=
  ⟨{ faultedCore with input := [.reset] }, [], rfl, rfl⟩

theorem witness_ResetEventClearsFlagsAndFault_idle : ∃ s : State, s.input = [] := ⟨State.reset, rfl⟩

theorem witness_ResetEventClearsFlagsAndFault_command : ∃ (s t : State) (c : Command)
    (rest : List HostEvent), s.input = .command c :: rest ∧ step s = .next t ∧ s.flt.faulted = true :=
  ⟨{ faultedCore with input := [cmd 0x100000000000000000 []] }, _, _, _, rfl, rfl, rfl⟩

/-- A command of every clause, and a message at the limit. -/
theorem witness_LifecyclesAfterResetEvent : (∀ op ∈ [FormatL.shaUpdate, .shaFinish, .shabUpdate, .shabFinish],
      ∃ (c : Command), decode c.desc = .ok (op.instr 0)) ∧
    (∃ c : Command, decode c.desc = .ok .tfEnc) ∧ (∃ c : Command, decode c.desc = .ok .tfDec) ∧
    ∃ msg : Payload, msg.len.toNat = 2 ^ 61 - 1 :=
  ⟨fun op _ => ⟨.withData op .empty, decode_encode _⟩, ⟨.zeros (encode .tfEnc), decode_encode _⟩,
    ⟨.zeros (encode .tfDec), decode_encode _⟩, ⟨.zeros 0x1FFFFFFFFFFFFFFF, by decide⟩⟩

theorem witness_EncodeOfDecodeIsTheDescriptor : ∃ (d : Desc) (i : Instr), decode d = .ok i :=
  ⟨0x480000000000000010, .tfEnc, by decide⟩

theorem witness_OpcodeMapSelectsTheCommand : ∃ (d : Desc) (row : OpcodeRow), row ∈ opcodeMap ∧ row.selects d = true :=
  ⟨0x11FFFFFFFFFFFFFFFF, ⟨"SHA.UPDATE", 0x110000000000000000, 0xFF0000000000000000⟩, by decide, by decide⟩

/-- One illegal descriptor for each of R95 (a), (b), (c), the last two next to the legal length, each
presented with a payload of another length than its `LEN`. -/
theorem witness_IllegalDescriptorFaults : ∀ d ∈ ([0x140000000000000000, 0x100000000000000001,
      0x48000000000000000F, 0x490000000000000011] : List Desc),
    ∃ (r : DecodeReject) (c : Command) (s : State) (rest : List HostEvent), decode d = .error r ∧
      c.desc = d ∧ c.payload = pay [1, 2] ∧ s.flt.faulted = false ∧ s.input = .command c :: rest := by
  intro d hd
  have h : ∀ d ∈ ([0x140000000000000000, 0x100000000000000001, 0x48000000000000000F,
      0x490000000000000011] : List Desc), ∃ r, decode d = .error r := by
    simp only [List.forall_mem_cons, List.not_mem_nil, false_imp_iff, implies_true, and_true]
    exact ⟨⟨_, rfl⟩, ⟨_, rfl⟩, ⟨_, rfl⟩, ⟨_, rfl⟩⟩
  obtain ⟨r, hr⟩ := h d hd
  let c : Command := { desc := d, payload := pay [1, 2], whole := presents_of_illegal hr _ }
  exact ⟨r, c, { State.reset with input := [.command c] }, [], hr, rfl, rfl, rfl, rfl⟩

theorem witness_AssembledLinesAreWellFormed_line : ∃ (line : AsmLine) (d : Desc) (p : Payload),
    assemble line = .ok (d, p) ∧ ∀ d, line ≠ .rawDesc d := by
  refine ⟨.shaUpdate (.rep 0 64), _, _, rfl, ?_⟩
  intro d h
  cases h

/-- Operands at and beside every length the assembler distinguishes. -/
theorem witness_AssembledLinesAreWellFormed_length :
    ∀ n ∈ [15, 16, 17, 23, 24, 25, 31, 32, 33, 2 ^ 64 - 1, 2 ^ 64], (ByteExpr.rep 0 n).eval.length = n :=
  fun n _ => by rw [ByteExpr.eval, List.length_replicate]

/-- Every form of a term, the quoted codes next to the quote character, and counts of one digit and more. -/
theorem witness_OperandTextIsRead : ∃ m ∈ operandLines, m.1.length = 10 ∧
    ∀ u ∈ [TextTerm.hex [], .ascii [33, 35, 0, 127], .ascii [], .rep 0x61 [0], .rep 0xFF [1, 0, 0],
      .repPow 0x00 [3]], u.writable = true :=
  ⟨_, List.mem_cons_self, rfl, by decide⟩

/-- A line without a command, one with a command, one that is no line and one that does not assemble. -/
theorem witness_ProgramTextIsReadLineByLine :
    (∀ l ∈ [[';', 'c'], ['S', 'H', 'A', '.', 'I', 'N', 'I', 'T'], ['?'],
      ['T', 'F', '.', 'E', 'N', 'C', ' ', '"', '"']], '\n' ∉ l) ∧
    parseLine [';', 'c'] = .ok none ∧
    parseLine ['S', 'H', 'A', '.', 'I', 'N', 'I', 'T'] = .ok (some .shaInit) ∧
    assemble .shaInit = .ok (0x100000000000000000, .empty) ∧
    parseLine ['?'] = .error .badText ∧
    parseLine ['T', 'F', '.', 'E', 'N', 'C', ' ', '"', '"'] = .ok (some (.tfEnc (.ascii []))) ∧
    assemble (.tfEnc (.ascii [])) = .error .blockLength ∧
    assembleText [';', 'c'] = .ok [] ∧ assembleText ['?'] = .error .badText := by decide +kernel

/-- The plain line of R98, as a whole program without an end of line and with one. -/
theorem test_text_plain :
    assembleText ['S', 'H', 'A', '.', 'I', 'N', 'I', 'T'] = .ok [(0x100000000000000000, .empty)] ∧
    assembleText ['S', 'H', 'A', '.', 'I', 'N', 'I', 'T', '\n'] = .ok [(0x100000000000000000, .empty)] := by
  decide +kernel

/-- 95_test_vectors.md 2.7: `TF.KEY rep(0x00, 24)` is descriptor 410000000000000018 (R99). -/
theorem test_text_key : assembleText
      (['T', 'F', '.', 'K', 'E', 'Y', ' ', 'r', 'e', 'p', '(', '0', 'x', '0', '0', ',', ' ', '2', '4', ')'])
    = .ok [(0x410000000000000018, pay (rep 0x00 24))] := by decide +kernel

/-- R98, R99: `2^e` counts, a comment, a FINISH without operand, and a raw descriptor. -/
theorem test_text_lines : assembleText
      (['S', 'H', 'A', 'B', '.', 'U', 'P', 'D', 'A', 'T', 'E', ' ', 'r', 'e', 'p', '(', '0', 'x', '6', '1',
      ',', '2', '^', '3', ')', '\n'] ++
       ['S', 'H', 'A', 'B', '.', 'F', 'I', 'N', 'I', 'S', 'H', ' ', ';', ' ', 'e', 'n', 'd', '\n'] ++
       ['.', 'd', 'e', 's', 'c', ' ', '0', 'x', '1', '4', '0', '0', '0', '0', '0', '0', '0', '0', '0', '0',
      '0', '0', '0', '0', '0', '1'])
    = .ok [(0x210000000000000008, pay (rep 0x61 8)), (0x220000000000000000, .empty),
        (0x140000000000000001, .empty)] := by decide +kernel

/-- R98: digits come in pairs, and a format Z command stands alone. -/
theorem test_text_refused :
    parseLine (['S', 'H', 'A', '.', 'H', 'A', 'S', 'H', ' ', 'x', '"', '0', '0', ' ', '1', '"']) = .error .badText ∧
    parseLine (['S', 'H', 'A', '.', 'I', 'N', 'I', 'T', ' ', 'x', '"', '"']) = .error .badText := by decide +kernel

theorem witness_StepRunsTheDecodedCommand : ∃ (s : State) (c : Command)
    (rest : List HostEvent) (i : Instr), s.input = .command c :: rest ∧ decode c.desc = .ok i :=
  ⟨{ State.reset with input := [cmd 0x130000000000000001 [0x61]] }, _, _, .shaHash 1, rfl, by decide⟩

theorem witness_EveryEventIsAnswered : ∃ (s : State) (e : HostEvent) (rest : List HostEvent),
    s.input = e :: rest ∧ s.payload = .empty :=
  ⟨{ State.reset with input := [cmd 0x130000000000000001 [0x61]] }, _, _, rfl, rfl⟩

/-- The stop that the statement describes happens, with one byte too few and with one too many: where the
command would complete, where it would fault, and on a faulted core. -/
theorem witness_OnlyPayloadMismatchStops : ∀ p ∈ [pay [], pay [0x61, 0x62]],
    exec (.shaHash 1) { State.reset with payload := p } = .fault .payloadMismatch ∧
    exec (.shaUpdate 1) { State.reset with payload := p } = .fault .payloadMismatch ∧
    exec (.shaHash 1) { faultedCore with payload := p } = .fault .payloadMismatch := by
  simp only [List.forall_mem_cons, List.not_mem_nil, false_imp_iff, implies_true, and_true]
  exact ⟨⟨rfl, rfl, rfl⟩, rfl, rfl, rfl⟩

/-- With the one byte it does not stop. -/
theorem witness_OnlyPayloadMismatchStops_completes :
    (pay [0x61]).bytes.length = (Instr.shaHash 1).payloadLen.toNat ∧
    ∃ (d : Desc) (r : DecodeReject), decode d = .error r :=
  ⟨by decide, 0x140000000000000000, _, rfl⟩

theorem witness_ResponseTellsHowACommandEnded_done : ∃ (s t : State) (c : Command)
    (rest : List HostEvent), s.input = .command c :: rest ∧ step s = .next t ∧ responseOf s t = .done :=
  ⟨{ State.reset with input := [cmd 0x100000000000000000 []] }, _, _, _, rfl, rfl, rfl⟩

theorem witness_ResponseTellsHowACommandEnded_fault : ∃ (s t : State) (c : Command)
    (rest : List HostEvent), s.input = .command c :: rest ∧ step s = .next t ∧ responseOf s t = .fault :=
  ⟨{ State.reset with input := [cmd 0x140000000000000000 []] }, _, _, _, rfl, rfl, rfl⟩

theorem witness_ResponseTellsHowACommandEnded_refused : ∃ (s t : State) (c : Command)
    (rest : List HostEvent), s.input = .command c :: rest ∧ step s = .next t ∧ responseOf s t = .refused :=
  ⟨{ faultedCore with input := [cmd 0x100000000000000000 []] }, _, _, _, rfl, rfl, rfl⟩

theorem witness_FaultsChangeOnlyTheFaultRegisters : ∃ s t : State,
    step s = .next t ∧ s.flt.faulted = false ∧ t.flt.faulted = true :=
  ⟨{ State.reset with input := [cmd 0x110000000000000040 (zeros 64)] }, _, rfl, rfl, rfl⟩

theorem witness_FaultedCoreRefusesEveryCommand : ∃ (n : Nat) (s : State), s.flt.faulted = true ∧
    s.payload = .empty ∧ (∀ e ∈ s.input.take n, e ≠ .reset) ∧ s.input.drop n = [.reset] :=
  ⟨2, { faultedCore with input := [cmd 0xFF0000000000000000 [], cmd 0x100000000000000000 [], .reset] },
    rfl, rfl, by decide, rfl⟩

theorem witness_FaultedCoreRefusesEveryCommand_reset : ∃ (s : State) (rest : List HostEvent),
    s.flt.faulted = true ∧ s.input = .reset :: rest :=
  ⟨{ faultedCore with input := [.reset] }, [], rfl, rfl⟩

/-- Every cause is raised by some command in some state, each at the edge of its condition where it has one
(95_test_vectors.md 2.6.1, 2.6.2); the payload is the command's. -/
theorem witness_CausesAreRaisedInPriorityOrder :
    let raised (d : Desc) (s : State) (cause : Cause) : Prop :=
      ∃ c : Command, c.desc = d ∧ execDesc d { s with payload := c.payload } =
        .next (State.enterFault { s with payload := c.payload } cause d)
    raised 0x000000000000000000 State.reset .illegalCmd ∧
    raised 0x110000000000000001 State.reset .slotInvalid ∧
    raised 0x490000000000000010 State.reset .noContext ∧
    raised 0x112000000000000001 (rawAt 0) .lenMisaligned ∧
    raised 0x112000000000000000 (rawAt 0) .limitExceeded ∧
    raised 0x420000000000000000 State.reset .keySize :=
  ⟨⟨.zeros _, rfl, rfl⟩, ⟨.zeros _, rfl, rfl⟩, ⟨.zeros _, rfl, rfl⟩, ⟨.zeros _, rfl, rfl⟩, ⟨.zeros _, rfl, rfl⟩,
    ⟨.zeros _, rfl, rfl⟩⟩

theorem witness_CausesAreRaisedInPriorityOrder_faulted : ∃ (c : Command) (s : State), s.payload = c.payload ∧
    s.flt.faulted = true := ⟨.zeros 0x100000000000000000, faultedCore, rfl, rfl⟩

/-- Every flag is set, and the two slot flags are cleared, by some command. -/
theorem witness_FlagsChangeOnlyAsTheStatusTableSays :
    nextHas (stepOn State.reset (cmd 0x100000000000000000 [])) (fun t => t.raw.rvalid) = true ∧
    nextHas (stepOn (rawAt 0) (cmd 0x120000000000000000 [])) (fun t => !t.raw.rvalid && t.dig.dvalid) = true ∧
    nextHas (stepOn State.reset (cmd 0x200000000000000000 [])) (fun t => t.buf.bvalid) = true ∧
    nextHas (stepOn (bufAt 0 0) (cmd 0x220000000000000000 [])) (fun t => !t.buf.bvalid && t.dig.dvalid) = true ∧
    nextHas (stepOn State.reset (cmd 0x400000000000000010 (zeros 16))) (fun t => t.ctx.cvalid) = true ∧
    nextHas (stepOn (keyed (zeros 16)) (cmd 0x480000000000000010 (zeros 16))) (fun t => t.blk.ovalid) = true ∧
    nextHas (stepOn faultedCore (cmd 0x480000000000000010 (zeros 16))) (fun t => t.flt.faulted) = true := by
  decide +kernel

/-- Every clause's hypothesis is met by some command. -/
theorem witness_CommandsWriteOnlyWhatTheTableMarks :
    nextHas (exec .shaInit State.reset) (fun t => t.raw != State.reset.raw) = true ∧
    nextHas (exec .shabInit State.reset) (fun t => t.buf != State.reset.buf) = true ∧
    nextHas (exec (.shabUpdate 1) { bufAt 0 1 with payload := pay [0x62] })
      (fun t => t.buf.bbuf != (bufAt 0 1).buf.bbuf) = true ∧
    nextHas (exec (.tfKey128 16) { State.reset with payload := .zeros 16 })
      (fun t => t.ctx.cvalid != State.reset.ctx.cvalid) = true ∧
    nextHas (exec (.shaHash 0) State.reset) (fun t => t.dig.dvalid != State.reset.dig.dvalid) = true ∧
    nextHas (exec .tfDec { keyed (zeros 16) with payload := .zeros 16 })
      (fun t => t.blk.ovalid != State.reset.blk.ovalid) = true ∧
    nextHas (exec .tfDec { State.reset with payload := .zeros 16 })
      (fun t => t.flt != State.reset.flt) = true := by decide +kernel

/-- Two different states that say the same. -/
theorem witness_UnspecifiedElementsAreNeverRead : ∃ s s' : State, s.observe = s'.observe ∧
    s.input = s'.input ∧ s.payload = s'.payload ∧ s ≠ s' ∧ s.input ≠ [] := by
  refine ⟨{ State.reset with input := [cmd 0x100000000000000000 []] },
    { State.reset with input := [cmd 0x100000000000000000 []],
                       raw := { rh := IV, rcnt := 64, rvalid := false } }, rfl, rfl, rfl, ?_, by simp⟩
  intro h
  have h' := congrArg (fun s : State => s.raw.rcnt) h
  exact absurd h' (by decide)

theorem witness_SlotsAreIndependent : ∃ (s t : State) (es : List HostEvent), s.payload = .empty ∧
    (∀ e ∈ es, e ≠ .reset) ∧ runEvents es.length { s with input := es } = .next t ∧
    t.flt.faulted = false ∧ es.length = 4 ∧
    (es.filter (HostEvent.isCommandThat Instr.namesBuf)).length = 2 ∧
    (es.filter (HostEvent.isCommandThat Instr.namesRaw)).length = 2 ∧
    ∀ e ∈ es, e.isCommandThat Instr.writesDigest = true → e.isCommandThat Instr.namesBuf = true := by
  let es : List HostEvent := [cmd 0x200000000000000000 [], cmd 0x100000000000000000 [],
    cmd 0x110000000000000000 [], cmd 0x220000000000000000 []]
  obtain ⟨t, ht, hp⟩ := exists_of_nextHas (show nextHas (runEvents es.length { State.reset with input := es })
    (fun t => !t.flt.faulted) = true by decide +kernel)
  exact ⟨State.reset, t, es, rfl, by decide, ht, by simpa using hp, rfl, by decide, by decide, by decide⟩

/-- Remainders at both sides of the boundary and the largest total. -/
theorem witness_PaddingEndsWithTheBitLength : ∀ r ∈ [0, 55, 56, 63],
    (rep 0x61 r).length ≤ 63 ∧ (2 ^ 61 - 1 : Nat) < 2 ^ 61 := by decide

theorem witness_ShaInitCreatesAnEmptyAccumulator : ∃ s : State, s.flt.faulted = false ∧ s.payload = .empty ∧
    s.raw.rvalid = true := ⟨rawAt 64, rfl, rfl, rfl⟩

theorem witness_ShaUpdateAbsorbsWholeBlocks_invalid : ∃ s : State, s.flt.faulted = false ∧
    s.payload.len = 1 ∧ s.raw.rvalid = false := ⟨{ State.reset with payload := pay [0x61] }, rfl, rfl, rfl⟩

theorem witness_ShaUpdateAbsorbsWholeBlocks_misaligned : ∀ n ∈ [63, 65],
    let s : State := { rawAt 0 with payload := .zeros (BitVec.ofNat 64 n) }
    s.flt.faulted = false ∧ s.payload.len.toNat = n ∧ s.raw.rvalid = true ∧ n % 64 ≠ 0 := by decide

theorem witness_ShaUpdateAbsorbsWholeBlocks_limit : ∃ (len : BitVec 64) (s : State), s.flt.faulted = false ∧
    s.payload.len = len ∧ s.raw.rvalid = true ∧ len.toNat % 64 = 0 ∧ s.raw.rcnt.toNat + len.toNat = 2 ^ 61 :=
  ⟨64, { rawAt 0x1FFFFFFFFFFFFFC0 with payload := .zeros 64 }, rfl, rfl, rfl, by decide, by decide⟩

theorem witness_ShaUpdateAbsorbsWholeBlocks_completes : ∃ (len : BitVec 64) (s : State), s.flt.faulted = false ∧
    s.payload.len = len ∧ s.raw.rvalid = true ∧ len.toNat % 64 = 0 ∧
    s.raw.rcnt.toNat + len.toNat = 2 ^ 61 - 64 :=
  ⟨64, { rawAt 0x1FFFFFFFFFFFFF80 with payload := .zeros 64 }, rfl, rfl, rfl, by decide, by decide⟩

theorem witness_ShaFinishPutsOutTheDigest_invalid : ∃ s : State, s.flt.faulted = false ∧
    s.payload.len = 1 ∧ s.raw.rvalid = false := ⟨{ State.reset with payload := pay [0x61] }, rfl, rfl, rfl⟩

theorem witness_ShaFinishPutsOutTheDigest_limit : ∃ (len : BitVec 64) (s : State), s.flt.faulted = false ∧
    s.payload.len = len ∧ s.raw.rvalid = true ∧ s.raw.rcnt.toNat + len.toNat = 2 ^ 61 :=
  ⟨64, { rawAt 0x1FFFFFFFFFFFFFC0 with payload := .zeros 64 }, rfl, rfl, rfl, by decide⟩

theorem witness_ShaFinishPutsOutTheDigest_completes : ∃ (len : BitVec 64) (s : State), s.flt.faulted = false ∧
    s.payload.len = len ∧ s.raw.rvalid = true ∧ s.raw.rcnt.toNat + len.toNat = 2 ^ 61 - 1 :=
  ⟨63, { rawAt 0x1FFFFFFFFFFFFFC0 with payload := .zeros 63 }, rfl, rfl, rfl, by decide⟩

theorem witness_ShaHashIsTheDigestOfItsPayload_limit : ∃ (len : BitVec 64) (s : State),
    s.flt.faulted = false ∧ s.payload.len = len ∧ len.toNat = 2 ^ 61 :=
  ⟨0x2000000000000000, { State.reset with payload := .zeros 0x2000000000000000 }, rfl, rfl, by decide⟩

theorem witness_ShaHashIsTheDigestOfItsPayload_completes : ∀ n ∈ [0, 55, 56, 64, 2 ^ 61 - 1],
    let s : State := { State.reset with payload := .zeros (BitVec.ofNat 64 n) }
    s.flt.faulted = false ∧ s.payload.len.toNat = n ∧ n < 2 ^ 61 := by decide

theorem witness_RawFinishIsTheDigestOfThePaddedMessage : ∃ msg : List Byte, msg.length = 119 ∧
    msg.length < 2 ^ 61 := ⟨zeros 119, by decide, by decide⟩

theorem witness_RawSequenceGivesTheMessageDigest : ∃ (s : State) (chunks : List Payload) (last : Payload),
    s.flt.faulted = false ∧ (∀ c ∈ chunks, c.len.toNat % 64 = 0) ∧ chunks.length = 2 ∧
    (chunks.flatMap (·.bytes) ++ last.bytes).length < 2 ^ 61 :=
  ⟨rawAt 64, [.zeros 128, .empty], .zeros 65, rfl, by decide, rfl, by decide +kernel⟩

theorem witness_ShabInitCreatesAnEmptyAccumulator : ∃ s : State, s.flt.faulted = false ∧ s.payload = .empty ∧
    s.buf.bvalid = true := ⟨bufAt 64 5, rfl, rfl, rfl⟩

theorem witness_ShabUpdateAbsorbsTheStream_invalid : ∃ s : State, s.flt.faulted = false ∧
    s.payload.len = 1 ∧ s.buf.bvalid = false := ⟨{ State.reset with payload := pay [0x61] }, rfl, rfl, rfl⟩

theorem witness_ShabUpdateAbsorbsTheStream_limit : ∃ (len : BitVec 64) (s : State), s.flt.faulted = false ∧
    s.payload.len = len ∧ s.buf.bvalid = true ∧
    s.buf.bcnt.toNat + 64 * ((s.buf.blen.toNat + len.toNat) / 64) = 2 ^ 61 :=
  ⟨1, { bufAt 0x1FFFFFFFFFFFFFC0 63 with payload := pay [0x62] }, rfl, rfl, rfl, by decide⟩

/-- Just below the ceiling, the buffer left, filled exactly, and overrun. -/
theorem witness_ShabUpdateAbsorbsTheStream_completes : ∀ n ∈ [0, 63, 64, 126],
    let s : State := { bufAt 0x1FFFFFFFFFFFFF80 1 with payload := .zeros (BitVec.ofNat 64 n) }
    let len := BitVec.ofNat 64 n
    s.flt.faulted = false ∧ s.payload.len = len ∧ s.buf.bvalid = true ∧
    s.buf.bcnt.toNat + 64 * ((s.buf.blen.toNat + len.toNat) / 64) < 2 ^ 61 := by decide

theorem witness_ShabFinishPutsOutTheDigest_invalid : ∃ s : State, s.flt.faulted = false ∧
    s.payload.len = 1 ∧ s.buf.bvalid = false := ⟨{ State.reset with payload := pay [0x61] }, rfl, rfl, rfl⟩

theorem witness_ShabFinishPutsOutTheDigest_limit : ∃ (len : BitVec 64) (s : State), s.flt.faulted = false ∧
    s.payload.len = len ∧ s.buf.bvalid = true ∧ s.buf.bcnt.toNat + s.buf.blen.toNat + len.toNat = 2 ^ 61 :=
  ⟨1, { bufAt 0x1FFFFFFFFFFFFFC0 63 with payload := pay [0x62] }, rfl, rfl, rfl, by decide⟩

theorem witness_ShabFinishPutsOutTheDigest_completes : ∃ (len : BitVec 64) (s : State), s.flt.faulted = false ∧
    s.payload.len = len ∧ s.buf.bvalid = true ∧
    s.buf.bcnt.toNat + s.buf.blen.toNat + len.toNat = 2 ^ 61 - 1 :=
  ⟨1, { bufAt 0x1FFFFFFFFFFFFFC0 62 with payload := pay [0x62] }, rfl, rfl, rfl, by decide⟩

theorem witness_IncrementalEquivalence : ∃ (s : State) (chunks : List Payload) (last msg : Payload),
    s.flt.faulted = false ∧ msg.bytes = chunks.flatMap (·.bytes) ++ last.bytes ∧ msg.len.toNat < 2 ^ 61 ∧
    chunks.length = 3 :=
  ⟨live, [pay [0x61], .empty, .zeros 100], .zeros 30, ⟨131, 0x61 :: zeros 130, by decide +kernel⟩, rfl,
    by decide +kernel, by decide, rfl⟩

theorem witness_FinishConsumesTheSlot_raw : ∃ (s t : State) (len : BitVec 64),
    s.flt.faulted = false ∧ t.flt.faulted = false ∧ exec (.shaFinish len) s = .next t := by
  obtain ⟨t, ht, hp⟩ := exists_of_nextHas (show nextHas (exec (.shaFinish 0) (rawAt 0))
    (fun t => !t.flt.faulted) = true by decide +kernel)
  exact ⟨rawAt 0, t, 0, rfl, by simpa using hp, ht⟩

theorem witness_FinishConsumesTheSlot_buf : ∃ (s t : State) (len : BitVec 64),
    s.flt.faulted = false ∧ t.flt.faulted = false ∧ exec (.shabFinish len) s = .next t := by
  obtain ⟨t, ht, hp⟩ := exists_of_nextHas (show nextHas (exec (.shabFinish 0) (bufAt 0 0))
    (fun t => !t.flt.faulted) = true by decide +kernel)
  exact ⟨bufAt 0 0, t, 0, rfl, by simpa using hp, ht⟩

theorem witness_EmptyUpdateChangesNothing : ∃ s : State, s.flt.faulted = false ∧ s.raw.rvalid = true ∧
    s.raw.rcnt.toNat < 2 ^ 61 ∧ s.buf.bvalid = true ∧ s.buf.bcnt.toNat < 2 ^ 61 ∧ s.payload = .empty :=
  ⟨live, rfl, rfl, by decide, rfl, by decide, rfl⟩

/-- Both sides of the ceiling, for UPDATE and for FINISH (95_test_vectors.md 2.6.2). -/
theorem witness_BufferedCeilingCountsFlushedBytes : ∀ n ∈ [0, 1],
    let s : State := { bufAt 0x1FFFFFFFFFFFFFC0 63 with payload := .zeros (BitVec.ofNat 64 n) }
    s.flt.faulted = false ∧ s.payload.len = BitVec.ofNat 64 n ∧ s.buf.bvalid = true ∧
    s.buf.bcnt.toNat % 64 = 0 := by decide

/-- With no premise on `BCNT`, flushed bytes and true total differ: at the highest `BCNT` below the ceiling
an UPDATE with 63 bytes pending and none to add completes, though the total is past it. -/
theorem witness_BufferedCeilingCountsFlushedBytes_pending :
    nextHas (exec (.shabUpdate 0) (bufAt 0x1FFFFFFFFFFFFFFF 63)) (fun t => !t.flt.faulted) = true ∧
    nextHas (exec (.shabFinish 0) (bufAt 0x1FFFFFFFFFFFFFFF 63)) (fun t => t.flt.faulted) = true := by
  decide +kernel

/-- Each variant with its own length and with the two beside it. -/
theorem witness_KeyCommandsReplaceTheContext : ∀ V ∈ [16, 24, 32], ∀ n ∈ [V - 1, V, V + 1],
    let s : State := { State.reset with payload := .zeros (BitVec.ofNat 64 n) }
    s.flt.faulted = false ∧ s.payload.len.toNat = n ∧ s.payload.bytes.length = n := by decide

theorem witness_SubkeyPairsAreHadamardSums : key192.length = 24 ∧ key256.length = 32 ∧
    (zeros 16).length = 16 ∧ 0 < 20 ∧ 19 < 20 := by decide

theorem witness_TableLookupIsTheHFunction : key192.length = 24 ∧ key256.length = 32 ∧
    (zeros 16).length = 16 := by decide

theorem witness_ContextIsAPureFunctionOfTheKey : State.reset.flt.faulted = false ∧ live.flt.faulted = false ∧
    (Payload.zeros 16).len = 16 ∧ (pay key192).len = 24 ∧ (pay key256).len = 32 :=
  ⟨rfl, rfl, by decide, by decide, by decide⟩

theorem witness_TfEncEncryptsTheBlock : ∃ s t : State, s.flt.faulted = false ∧ s.payload.len = 16 ∧
    s.ctx.cvalid = false ∧ t.flt.faulted = false ∧ t.payload.len = 16 ∧ t.ctx.cvalid = true :=
  ⟨{ State.reset with payload := .zeros 16 }, { live with payload := .zeros 16 }, rfl, rfl, rfl, rfl, rfl, rfl⟩

theorem witness_TfDecDecryptsTheBlock : ∃ s t : State, s.flt.faulted = false ∧ s.payload.len = 16 ∧
    s.ctx.cvalid = false ∧ t.flt.faulted = false ∧ t.payload.len = 16 ∧ t.ctx.cvalid = true :=
  ⟨{ State.reset with payload := .zeros 16 }, { live with payload := .zeros 16 }, rfl, rfl, rfl, rfl, rfl, rfl⟩

theorem witness_CipherRoundTrip : ∃ (s : State) (c c' : Command), s.flt.faulted = false ∧
    s.ctx.cvalid = true ∧ decode c.desc = .ok .tfEnc ∧ decode c'.desc = .ok .tfDec :=
  ⟨live, .zeros (encode .tfEnc), .zeros (encode .tfDec), rfl, rfl, decode_encode _, decode_encode _⟩

theorem witness_BlocksAreIndependent : ∃ (s : State) (cs : List Command) (last : Command),
    s.flt.faulted = false ∧ s.ctx.cvalid = true ∧
    (∀ c ∈ cs, decode c.desc = .ok .tfEnc ∨ decode c.desc = .ok .tfDec) ∧
    decode last.desc = .ok .tfEnc ∧ cs.length = 2 :=
  ⟨live, [.zeros (encode .tfDec), .zeros (encode .tfEnc)], .zeros (encode .tfEnc), rfl, rfl, by decide,
    decode_encode _, rfl⟩

theorem witness_ByteOrderConversionsAreInverse : (∃ (s : List Byte) (i : Nat), i + 4 ≤ s.length) ∧
    (2 ^ 64 - 1 : Nat) < 2 ^ 64 := ⟨⟨[1, 2, 3, 4, 5], 1, by decide⟩, by decide⟩

/-- The shift counts and bit numbers at both ends of their ranges. -/
theorem witness_WordFunctionsMoveBits : ∀ n ∈ [1, 31], ∀ i ∈ [0, 31], 0 < n ∧ n < 32 ∧ i < 32 := by decide

theorem witness_CascadeLanesArePermutations : ∀ k ∈ [2, 3, 4],
    (List.replicate k (0 : Word)).length = 2 ∨ (List.replicate k (0 : Word)).length = 3 ∨
    (List.replicate k (0 : Word)).length = 4 := by decide

theorem witness_SVectorIsLinearInTheKey : ∀ n ∈ [16, 24, 32], ((zeros n).length = 16 ∨ (zeros n).length = 24 ∨
    (zeros n).length = 32) ∧ (rep 1 n).length = (zeros n).length ∧ n / 8 - 1 < (zeros n).length / 8 ∧
    n - 1 < n ∧ 3 < 4 := by decide

/-- Pairs that are commands and pairs that are not: the length below, at and above `LEN`. -/
theorem witness_OnlyWholeCommandsArePresented : ∀ n ∈ [15, 16, 17],
    (Command.ofPair 0x480000000000000010 (.zeros (BitVec.ofNat 64 n))).isSome = (n == 16) ∧
    (Command.ofPair 0x130000000000000010 (.zeros (BitVec.ofNat 64 n))).isSome = (n == 16) ∧
    (Command.ofPair 0x140000000000000010 (.zeros (BitVec.ofNat 64 n))).isSome = true := by decide

theorem witness_ByteTablesArePermutations : ∃ x y : Byte, Q0 x = Q0 y ∧ Q1 x = Q1 y := ⟨0xFF, 0xFF, rfl, rfl⟩

end

end Sys2Proof.Tests
end

/-! PROOFS. The statements of 00_scope.md: byte-order conversions (R11, R50, R51), word functions (R10,
R120), the field product (R15), and the step of a legal command (R19, R94, R100). -/

namespace Sys2Proof.Machine

/-! ### A step runs the decoded command -/

/-- A legal command is run by `exec` on the accepted state and then retired. -/
theorem commandEvent_of_decode {c : Command} {i : Instr} (hd : decode c.desc = .ok i)
    (rest : List HostEvent) (s : State) :
    commandEvent c rest s = retire (exec i (s.accept c.payload rest)) := by
  simp only [commandEvent, execDesc, hd]

/-- Settles O13: a step is `commandEvent`, which retires what `exec` answers. -/
theorem stepRunsTheDecodedCommand : Obligations.StepRunsTheDecodedCommand := by
  intro s c rest i hin hd
  rw [step_command hin, commandEvent_of_decode hd, State.accept]
  cases exec i { s with payload := c.payload, input := rest } with
  | next t => rfl
  | fault r => rfl
  | refused r => rfl

/-! ### Byte order -/

/-- A byte behind the first part of a string is a byte of the rest. -/
theorem byteAt_append_length_add (a l : List Byte) (k : Nat) :
    byteAt (a ++ l) (a.length + k) = byteAt l k := by
  simp [byteAt, List.getD_eq_getElem?_getD, List.getElem?_append_right]

theorem BE32_append_length (a l : List Byte) : BE32 (a ++ l) a.length = BE32 l 0 := by
  simp only [BE32, byteAt_append_length_add, Nat.zero_add]
  rw [← byteAt_append_length_add a l 0, Nat.add_zero]

theorem BE32_be32 (x : Word) (a b : List Byte) : BE32 (a ++ (be32 x ++ b)) a.length = x := by
  rw [BE32_append_length]
  exact wordOfLanes_lanes x

theorem be32_eq_reverse_le32 (x : Word) : be32 x = (le32 x).reverse := rfl

/-- Four bytes of a string, written out; `le32_LE32` says the same of the word read from them. -/
theorem slice_four {s : List Byte} {i : Nat} (h : i + 4 ≤ s.length) :
    slice s i (i + 4) = [byteAt s i, byteAt s (i + 1), byteAt s (i + 2), byteAt s (i + 3)] := by
  rw [slice, Nat.add_sub_cancel_left, ← le32_LE32 s i h]
  simp [le32, LE32]

theorem be32_BE32 {s : List Byte} {i : Nat} (h : i + 4 ≤ s.length) : be32 (BE32 s i) = slice s i (i + 4) := by
  rw [slice_four h]
  simp [be32, BE32]

theorem lane_toNat (j : Nat) (x : Word) : (lane j x).toNat = x.toNat / 2 ^ (8 * j) % 256 := by
  simp [lane, BitVec.extractLsb'_toNat, Nat.shiftRight_eq_div_pow]

theorem bigEndian_be32 (x : Word) : bigEndian (be32 x) = x.toNat := by
  have hx : x.toNat < 2 ^ 32 := x.isLt
  simp only [bigEndian, be32, lane_toNat, List.foldl_cons, List.foldl_nil]
  omega

theorem bigEndian_be64 {v : Nat} (h : v < 2 ^ 64) : bigEndian (be64 v) = v := by
  simp only [bigEndian, be64, BitVec.extractLsb'_toNat, BitVec.toNat_ofNat, Nat.mod_eq_of_lt h,
    Nat.shiftRight_eq_div_pow, List.foldl_cons, List.foldl_nil]
  omega

/-- Settles O51, one conversion after the other. -/
theorem byteOrderConversionsAreInverse : Obligations.ByteOrderConversionsAreInverse := by
  refine ⟨fun x a b => ?_, fun s i h => ⟨be32_BE32 h, ?_⟩, fun x => ⟨bigEndian_be32 x, ?_⟩,
    fun v h => bigEndian_be64 h⟩
  · rw [List.append_assoc, List.append_assoc]
    exact ⟨BE32_be32 x a b, LE32_le32 x a b _ rfl⟩
  · rw [le32_LE32 s i h, slice, Nat.add_sub_cancel_left]
  · rw [← be32_eq_reverse_le32, bigEndian_be32]

/-! ### Word functions -/

/-- Bit `i` comes from `n` places above, around the top of the word (R10). -/
theorem rotr_getLsbD (x : Word) {n i : Nat} (hn : n < 32) (hi : i < 32) :
    (rotr x n).getLsbD i = x.getLsbD ((i + n) % 32) := by
  rw [Nat.add_comm i n]
  simp only [rotr, BitVec.getLsbD_or, BitVec.getLsbD_shiftLeft, BitVec.getLsbD_ushiftRight, hi]
  by_cases h : n + i < 32
  · simp [show i < 32 - n by omega, Nat.mod_eq_of_lt h]
  · simp [show ¬ i < 32 - n by omega, show (n + i) % 32 = i - (32 - n) by omega,
      BitVec.getLsbD_of_ge x (n + i) (by omega)]

/-- Bit `i` goes to `n` places above, around the top of the word (R10). -/
theorem rotl_getLsbD_add_mod (x : Word) {n i : Nat} (hn : n < 32) (hi : i < 32) :
    (rotl x n).getLsbD ((i + n) % 32) = x.getLsbD i := by
  simp only [rotl, BitVec.getLsbD_or, BitVec.getLsbD_shiftLeft, BitVec.getLsbD_ushiftRight]
  by_cases h : i + n < 32
  · simp [Nat.mod_eq_of_lt h, h, BitVec.getLsbD_of_ge x (32 - n + (i + n)) (by omega)]
  · have e : (i + n) % 32 = i + n - 32 := by omega
    simp [e, show i + n - 32 < n by omega, show 32 - n + (i + n - 32) = i by omega]

/-- Settles O52: bit by bit, from what a rotation and a shift do to a bit. -/
theorem wordFunctionsMoveBits : Obligations.WordFunctionsMoveBits := by
  refine ⟨fun x n i _ hn hi => ⟨rotr_getLsbD x hn hi, rotl_getLsbD_add_mod x hn hi⟩, fun x y z i hi => ?_⟩
  refine ⟨?ssig0, ?ssig1, ?bsig0, ?bsig1, ?ch, ?maj⟩
  case ssig0 =>
    simp only [ssig0, BitVec.getLsbD_xor, rotr_getLsbD, BitVec.getLsbD_ushiftRight, hi, Nat.reduceLT,
      Nat.add_comm 3]
  case ssig1 =>
    simp only [ssig1, BitVec.getLsbD_xor, rotr_getLsbD, BitVec.getLsbD_ushiftRight, hi, Nat.reduceLT,
      Nat.add_comm 10]
  case bsig0 => simp only [bsig0, BitVec.getLsbD_xor, rotr_getLsbD, hi, Nat.reduceLT]
  case bsig1 => simp only [bsig1, BitVec.getLsbD_xor, rotr_getLsbD, hi, Nat.reduceLT]
  case ch =>
    simp only [Ch, BitVec.getLsbD_xor, BitVec.getLsbD_and, BitVec.getLsbD_not, hi]
    cases x.getLsbD i <;> simp
  case maj =>
    simp only [Maj, BitVec.getLsbD_xor, BitVec.getLsbD_and]
    cases x.getLsbD i <;> cases y.getLsbD i <;> simp

/-! ### The field product

The low 8 bits of `gfmulLoop`'s 9-bit factor are doubled modulo `P` by themselves, so the product is the
sum of the doublings of the first factor at the bits of the second; each law of the product is an
induction on that sum. -/

/-- A byte doubled as a polynomial, reduced by `P` where the bit shifted out is 1 (R15). -/
def gfDouble (P : BitVec 9) (a : Byte) : Byte :=
  if a.getLsbD 7 then (a <<< 1) ^^^ P.setWidth 8 else a <<< 1

/-- The sum of `a`, doubled `i` times, over the bits `i < n` of `b` that are 1. -/
def gfSum (P : BitVec 9) : Nat → Byte → Byte → Byte
  | 0, _, _ => 0
  | n + 1, a, b => (if b.getLsbD 0 then a else 0) ^^^ gfSum P n (gfDouble P a) (b >>> 1)

/-- The low 8 bits of `gfmulLoop`'s doubled factor are their own double: the bit it tests is their bit 7. -/
theorem setWidth_double (P a : BitVec 9) :
    BitVec.setWidth 8 (if (a <<< 1).getLsbD 8 then a <<< 1 ^^^ P else a <<< 1) = gfDouble P (a.setWidth 8) := by
  have hshift : (a <<< 1).setWidth 8 = a.setWidth 8 <<< 1 := by simp [BitVec.setWidth_shiftLeft_of_le]
  have htop : (a <<< 1).getLsbD 8 = (a.setWidth 8).getLsbD 7 := by simp
  rw [gfDouble, ← htop, apply_ite (BitVec.setWidth 8), BitVec.setWidth_xor, hshift]

/-- What the loop adds to its result is `gfSum` of the low 8 bits of its factor. -/
theorem gfmulLoop_setWidth (P : BitVec 9) (n : Nat) (a : BitVec 9) (b : Byte) (r : BitVec 9) :
    (gfmulLoop P n a b r).setWidth 8 = r.setWidth 8 ^^^ gfSum P n (a.setWidth 8) b := by
  induction n generalizing a b r with
  | zero => simp [gfmulLoop, gfSum]
  | succ n ih =>
    rw [gfmulLoop, ih, setWidth_double, gfSum]
    cases b.getLsbD 0 <;> simp [BitVec.setWidth_xor, BitVec.xor_assoc]

theorem gfmul_eq_gfSum (a b : Byte) (P : BitVec 9) : gfmul a b P = gfSum P 8 a b := by
  rw [gfmul, gfmulLoop_setWidth]
  simp

theorem xor_xor_xor_comm {w : Nat} (a b c d : BitVec w) :
    (a ^^^ b) ^^^ (c ^^^ d) = (a ^^^ c) ^^^ (b ^^^ d) := by
  ac_rfl

theorem gfDouble_xor (P : BitVec 9) (a a' : Byte) :
    gfDouble P (a ^^^ a') = gfDouble P a ^^^ gfDouble P a' := by
  simp only [gfDouble, BitVec.getLsbD_xor, BitVec.shiftLeft_xor_distrib]
  generalize a <<< 1 = c, a' <<< 1 = c', P.setWidth 8 = p
  cases a.getLsbD 7 <;> cases a'.getLsbD 7
  case false.false => rfl
  case false.true => exact BitVec.xor_assoc ..
  case true.false =>
    change c ^^^ c' ^^^ p = c ^^^ p ^^^ c'
    ac_rfl
  case true.true =>
    change c ^^^ c' = (c ^^^ p) ^^^ (c' ^^^ p)
    rw [xor_xor_xor_comm, BitVec.xor_self, BitVec.xor_zero]

theorem gfDouble_zero (P : BitVec 9) : gfDouble P 0 = 0 := by simp [gfDouble]

theorem gfDouble_one (P : BitVec 9) : gfDouble P 1 = 2 := rfl

theorem gfSum_xor_left (P : BitVec 9) (n : Nat) (a a' b : Byte) :
    gfSum P n (a ^^^ a') b = gfSum P n a b ^^^ gfSum P n a' b := by
  induction n generalizing a a' b with
  | zero => simp [gfSum]
  | succ n ih =>
    simp only [gfSum, gfDouble_xor, ih]
    cases b.getLsbD 0
    · simp
    · exact xor_xor_xor_comm ..

theorem gfSum_xor_right (P : BitVec 9) (n : Nat) (a b b' : Byte) :
    gfSum P n a (b ^^^ b') = gfSum P n a b ^^^ gfSum P n a b' := by
  induction n generalizing a b b' with
  | zero => simp [gfSum]
  | succ n ih =>
    rw [gfSum, gfSum, gfSum, BitVec.ushiftRight_xor_distrib, ih, xor_xor_xor_comm, BitVec.getLsbD_xor]
    cases b.getLsbD 0 <;> cases b'.getLsbD 0 <;> simp

/-- Doubling the first factor doubles the product. -/
theorem gfSum_gfDouble (P : BitVec 9) (n : Nat) (a b : Byte) :
    gfSum P n (gfDouble P a) b = gfDouble P (gfSum P n a b) := by
  induction n generalizing a b with
  | zero => exact (gfDouble_zero P).symm
  | succ n ih =>
    rw [gfSum, gfSum, ih, gfDouble_xor, apply_ite (gfDouble P), gfDouble_zero]

/-- A power of `x` below `x^7` is doubled without reduction. -/
theorem gfDouble_twoPow (P : BitVec 9) {k : Nat} (h : k < 7) :
    gfDouble P (BitVec.twoPow 8 k) = BitVec.twoPow 8 (k + 1) := by
  have htop : (BitVec.twoPow 8 k).getLsbD 7 = false := by simp; omega
  rw [gfDouble, htop, BitVec.twoPow_eq, BitVec.twoPow_eq, BitVec.shiftLeft_add]
  rfl

/-- A byte is its bit 0 and the byte of its other bits. -/
theorem bit_zero_xor_shift (b : Byte) : (if b.getLsbD 0 then (1 : Byte) else 0) ^^^ (b >>> 1) <<< 1 = b := by
  apply BitVec.eq_of_getLsbD_eq; intro i hi
  cases i with
  | zero => cases b.getLsbD 0 <;> simp
  | succ i => cases b.getLsbD 0 <;> simp [hi, Nat.add_comm 1 i]

/-- The sum for a power of `x` needs no reduction: it is the second factor shifted. -/
theorem gfSum_twoPow (P : BitVec 9) (n k : Nat) (b : Byte) (h : n + k = 8) :
    gfSum P n (BitVec.twoPow 8 k) b = b <<< k := by
  induction n generalizing k b with
  | zero => rw [show k = 8 by omega, BitVec.shiftLeft_eq_zero (Nat.le_refl 8)]; rfl
  | succ n ih =>
    have hrest : gfSum P n (gfDouble P (BitVec.twoPow 8 k)) (b >>> 1) = (b >>> 1) <<< (k + 1) := by
      by_cases hk : k < 7
      · rw [gfDouble_twoPow P hk, ih (k + 1) (b >>> 1) (by omega)]
      · rw [show n = 0 by omega, BitVec.shiftLeft_eq_zero (by omega)]; rfl
    have hbit : (if b.getLsbD 0 then BitVec.twoPow 8 k else 0) =
        (if b.getLsbD 0 then (1 : Byte) else 0) <<< k := by
      rw [BitVec.twoPow_eq]; cases b.getLsbD 0 <;> simp
    rw [gfSum, hrest, hbit, Nat.add_comm k 1, BitVec.shiftLeft_add, ← BitVec.shiftLeft_xor_distrib,
      bit_zero_xor_shift]

theorem gfmul_one_left (P : BitVec 9) (b : Byte) : gfmul 1 b P = b := by
  rw [gfmul_eq_gfSum]
  exact (gfSum_twoPow P 8 0 b rfl).trans (BitVec.shiftLeft_zero b)

/-- The product with 2 is one doubling. -/
theorem gfmul_two_left (P : BitVec 9) (b : Byte) : gfmul 2 b P = gfDouble P b := by
  rw [gfmul_eq_gfSum, ← gfDouble_one P, gfSum_gfDouble, ← gfmul_eq_gfSum, gfmul_one_left]

/-- Settles O53: the product is the sum of the doublings of one factor at the bits of the other. -/
theorem fieldProductIsBilinearModuloP : Obligations.FieldProductIsBilinearModuloP := by
  intro P a a' b b'
  refine ⟨?_, ?_, gfmul_one_left P b, gfmul_two_left P b, ?_⟩
  · simp only [gfmul_eq_gfSum, gfSum_xor_left]
  · simp only [gfmul_eq_gfSum, gfSum_xor_right]
  · rw [gfmul_two_left, gfmul_two_left, gfmul_eq_gfSum, gfmul_eq_gfSum, gfSum_gfDouble]

end Sys2Proof.Machine

/-! PROOFS. The statements of 10_state.md: the state after reset (R40), the status registers (R33, R34), who
writes what (R33, R39), the invariant between commands (R38), and that no unspecified element is read
(R41). -/

namespace Sys2Proof.Machine

theorem step_idle {s : State} (h : s.input = []) : step s = .next s := by simp [step, h, idle]

/-- Absorbing bytes into the BUF slot neither makes nor consumes an accumulator (R151). -/
@[simp] theorem bufferUpdate_bvalid (data : List Byte) (s : State) :
    (bufferUpdate data s).buf.bvalid = s.buf.bvalid := by
  obtain ⟨flushed, -, -, -, -, hv⟩ := bufferUpdate_flushed data s
  exact hv

/-! ### When a command passes its tests -/

theorem shaUpdate_passes {len : BitVec 64} {s : State} : firstRaised (testsOf (.shaUpdate len) s) = none ↔
    s.raw.rvalid = true ∧ len.toNat % 64 = 0 ∧ s.raw.rcnt.toNat + len.toNat < 2 ^ 61 := by
  simp [firstRaised_eq_none, testsOf, misaligned_eq_false, reachesLimit_eq_false]

theorem shaFinish_passes {len : BitVec 64} {s : State} : firstRaised (testsOf (.shaFinish len) s) = none ↔
    s.raw.rvalid = true ∧ s.raw.rcnt.toNat + len.toNat < 2 ^ 61 := by
  simp [firstRaised_eq_none, testsOf, reachesLimit_eq_false]

theorem shabUpdate_passes {len : BitVec 64} {s : State} : firstRaised (testsOf (.shabUpdate len) s) = none ↔
    s.buf.bvalid = true ∧ s.buf.bcnt.toNat + flushedBytes s.buf.blen.toNat len.toNat < 2 ^ 61 := by
  simp [firstRaised_eq_none, testsOf, reachesLimit_eq_false]

theorem shabFinish_passes {len : BitVec 64} {s : State} : firstRaised (testsOf (.shabFinish len) s) = none ↔
    s.buf.bvalid = true ∧ s.buf.bcnt.toNat + s.buf.blen.toNat + len.toNat < 2 ^ 61 := by
  simp [firstRaised_eq_none, testsOf, reachesLimit_eq_false]

theorem tfKey128_passes {len : BitVec 64} {s : State} :
    firstRaised (testsOf (.tfKey128 len) s) = none ↔ len.toNat = 16 := by
  simp [firstRaised_eq_none, testsOf, wrongKeySize_eq_false, Config.keyBytes128]

theorem tfKey192_passes {len : BitVec 64} {s : State} :
    firstRaised (testsOf (.tfKey192 len) s) = none ↔ len.toNat = 24 := by
  simp [firstRaised_eq_none, testsOf, wrongKeySize_eq_false, Config.keyBytes192]

theorem tfKey256_passes {len : BitVec 64} {s : State} :
    firstRaised (testsOf (.tfKey256 len) s) = none ↔ len.toNat = 32 := by
  simp [firstRaised_eq_none, testsOf, wrongKeySize_eq_false, Config.keyBytes256]

theorem tfEnc_passes {s : State} : firstRaised (testsOf .tfEnc s) = none ↔ s.ctx.cvalid = true := by
  simp [firstRaised_eq_none, testsOf]

theorem tfDec_passes {s : State} : firstRaised (testsOf .tfDec s) = none ↔ s.ctx.cvalid = true := by
  simp [firstRaised_eq_none, testsOf]

theorem flushedBytes_le (m n : Nat) : flushedBytes m n ≤ m + n := by unfold flushedBytes; omega

/-- A legal command is presented with as many bytes as its `LEN` says (R94). -/
theorem Command.length_of_decode {c : Command} {i : Instr} (hd : decode c.desc = .ok i) :
    c.payload.bytes.length = i.payloadLen.toNat := by
  rw [c.payload.whole, wellFormed_iff.1 (c.wellFormed_of_decode hd)]

/-! ### The state after reset (R40) and the status registers (R33, R34) -/

/-- Settles O1, by computing the state after reset. -/
theorem resetStateHasEveryFlagClear : Obligations.ResetStateHasEveryFlagClear :=
  ⟨rfl, rfl, rfl, rfl, rfl, rfl, rfl, rfl, rfl, rfl⟩

theorem faultReg_cause (s : State) : s.faultReg.extractLsb' 0 8 = s.flt.cause :=
  BitVec.extractLsb'_append_eq_right

theorem faultReg_fcmd (s : State) : s.faultReg.extractLsb' 8 72 = s.flt.fcmd :=
  BitVec.extractLsb'_append_eq_left

/-- `STATUS` grown bit by bit, so that the library's lemmas on `concat` read its bits. -/
theorem status_eq_concat (s : State) : s.status =
    ((((((0#2).concat s.flt.faulted).concat s.blk.ovalid).concat s.dig.dvalid).concat
      s.ctx.cvalid).concat s.buf.bvalid).concat s.raw.rvalid := rfl

theorem status_getLsbD (s : State) (n : Nat) : s.status.getLsbD n =
    [s.raw.rvalid, s.buf.bvalid, s.ctx.cvalid, s.dig.dvalid, s.blk.ovalid, s.flt.faulted].getD n false := by
  rw [status_eq_concat]
  match n with
  | 0 | 1 | 2 | 3 | 4 | 5 | _ + 6 => simp

/-- Settles O21: each register is its fields side by side. -/
theorem statusRegistersShowFlagsAndFault : Obligations.StatusRegistersShowFlagsAndFault := by
  intro s
  refine ⟨status_getLsbD s 0, status_getLsbD s 1, status_getLsbD s 2, status_getLsbD s 3,
    status_getLsbD s 4, status_getLsbD s 5, status_getLsbD s 6, status_getLsbD s 7,
    faultReg_cause s, faultReg_fcmd s, rfl, rfl, ?_, rfl⟩
  exact BitVec.toNat_setWidth_of_le (by decide)

/-! ### Who writes what (R39) -/

section Frame

variable {i : Instr} {data : List Byte} {s : State}

theorem effectOf_writes_raw (h : (effectOf i data s).raw ≠ s.raw) :
    ∃ len, i = .shaInit ∨ i = .shaUpdate len ∨ i = .shaFinish len := by
  cases i with
  | shaInit => exact ⟨0, .inl rfl⟩
  | shaUpdate len => exact ⟨len, .inr (.inl rfl)⟩
  | shaFinish len => exact ⟨len, .inr (.inr rfl)⟩
  | _ => exact absurd rfl h

theorem effectOf_writes_buf (h : (effectOf i data s).buf ≠ s.buf) :
    ∃ len, i = .shabInit ∨ i = .shabUpdate len ∨ i = .shabFinish len := by
  cases i with
  | shabInit => exact ⟨0, .inl rfl⟩
  | shabUpdate len => exact ⟨len, .inr (.inl rfl)⟩
  | shabFinish len => exact ⟨len, .inr (.inr rfl)⟩
  | _ => exact absurd rfl h

/-- `SHAB.INIT` leaves `BBUF` as it is (R150). -/
theorem effectOf_writes_bbuf (h : (effectOf i data s).buf.bbuf ≠ s.buf.bbuf) :
    ∃ len, i = .shabUpdate len ∨ i = .shabFinish len := by
  obtain ⟨len, rfl | rfl | rfl⟩ := effectOf_writes_buf (ne_of_apply_ne BufSlot.bbuf h)
  · exact absurd rfl h
  · exact ⟨len, .inl rfl⟩
  · exact ⟨len, .inr rfl⟩

theorem effectOf_writes_ctx (h : (effectOf i data s).ctx ≠ s.ctx) :
    ∃ len, i = .tfKey128 len ∨ i = .tfKey192 len ∨ i = .tfKey256 len := by
  cases i with
  | tfKey128 len => exact ⟨len, .inl rfl⟩
  | tfKey192 len => exact ⟨len, .inr (.inl rfl)⟩
  | tfKey256 len => exact ⟨len, .inr (.inr rfl)⟩
  | _ => exact absurd rfl h

theorem effectOf_writes_dig (h : (effectOf i data s).dig ≠ s.dig) :
    ∃ len, i = .shaFinish len ∨ i = .shabFinish len ∨ i = .shaHash len := by
  cases i with
  | shaFinish len => exact ⟨len, .inl rfl⟩
  | shabFinish len => exact ⟨len, .inr (.inl rfl)⟩
  | shaHash len => exact ⟨len, .inr (.inr rfl)⟩
  | _ => exact absurd rfl h

theorem effectOf_writes_blk (h : (effectOf i data s).blk ≠ s.blk) : i = .tfEnc ∨ i = .tfDec := by
  cases i with
  | tfEnc => exact .inl rfl
  | tfDec => exact .inr rfl
  | _ => exact absurd rfl h

end Frame

/-- Settles O23: a refused command changes nothing, a fault the fault registers only, and a command that
completes what its effect writes. -/
theorem commandsWriteOnlyWhatTheTableMarks : Obligations.CommandsWriteOnlyWhatTheTableMarks := by
  intro i s t h
  obtain ⟨-, ⟨-, rfl⟩ | ⟨-, cause, -, rfl⟩ | ⟨-, -, rfl⟩⟩ := exec_cases h
  case inl => simp
  case inr.inl => simp [State.enterFault]
  case inr.inr =>
    obtain ⟨hflt, hin, hp⟩ := effectOf_rest i s.payload.bytes s
    exact ⟨effectOf_writes_raw, effectOf_writes_buf, effectOf_writes_bbuf, effectOf_writes_ctx,
      effectOf_writes_dig, effectOf_writes_blk, hin, hp, absurd hflt⟩

/-! ### Who sets and who clears a flag (R33) -/

/-- A register whose flag has changed has changed. -/
theorem ne_of_flag_set {α : Type} (flag : α → Bool) {a b : α} (ha : flag a = false) (hb : flag b = true) :
    b ≠ a := by
  rintro rfl
  exact Bool.false_ne_true (ha.symm.trans hb)

section Flags

variable {i : Instr} {data : List Byte} (s : State)

theorem effectOf_sets_rvalid (h : s.raw.rvalid = false) (h' : (effectOf i data s).raw.rvalid = true) :
    i = .shaInit := by
  obtain ⟨len, rfl | rfl | rfl⟩ := effectOf_writes_raw (ne_of_flag_set RawSlot.rvalid h h')
  · rfl
  · exact absurd (h.symm.trans h') Bool.false_ne_true
  · nomatch h'

theorem effectOf_clears_rvalid (h : s.raw.rvalid = true) (h' : (effectOf i data s).raw.rvalid = false) :
    ∃ len, i = .shaFinish len := by
  obtain ⟨len, rfl | rfl | rfl⟩ := effectOf_writes_raw (ne_of_flag_set RawSlot.rvalid h' h).symm
  · nomatch h'
  · exact absurd (h'.symm.trans h) Bool.false_ne_true
  · exact ⟨len, rfl⟩

theorem effectOf_sets_bvalid (h : s.buf.bvalid = false) (h' : (effectOf i data s).buf.bvalid = true) :
    i = .shabInit := by
  obtain ⟨len, rfl | rfl | rfl⟩ := effectOf_writes_buf (ne_of_flag_set BufSlot.bvalid h h')
  · rfl
  · rw [effectOf, bufferUpdate_bvalid] at h'
    exact absurd (h.symm.trans h') Bool.false_ne_true
  · nomatch h'

theorem effectOf_clears_bvalid (h : s.buf.bvalid = true) (h' : (effectOf i data s).buf.bvalid = false) :
    ∃ len, i = .shabFinish len := by
  obtain ⟨len, rfl | rfl | rfl⟩ := effectOf_writes_buf (ne_of_flag_set BufSlot.bvalid h' h).symm
  · nomatch h'
  · rw [effectOf, bufferUpdate_bvalid] at h'
    exact absurd (h'.symm.trans h) Bool.false_ne_true
  · exact ⟨len, rfl⟩

theorem effectOf_sets_cvalid (h : s.ctx.cvalid = false) (h' : (effectOf i data s).ctx.cvalid = true) :
    ∃ len, i = .tfKey128 len ∨ i = .tfKey192 len ∨ i = .tfKey256 len :=
  effectOf_writes_ctx (ne_of_flag_set CipherContext.cvalid h h')

theorem effectOf_sets_dvalid (h : s.dig.dvalid = false) (h' : (effectOf i data s).dig.dvalid = true) :
    ∃ len, i = .shaFinish len ∨ i = .shabFinish len ∨ i = .shaHash len :=
  effectOf_writes_dig (ne_of_flag_set DigestReg.dvalid h h')

theorem effectOf_sets_ovalid (h : s.blk.ovalid = false) (h' : (effectOf i data s).blk.ovalid = true) :
    i = .tfEnc ∨ i = .tfDec :=
  effectOf_writes_blk (ne_of_flag_set BlockReg.ovalid h h')

/-- Every command that writes the context makes it one. -/
theorem effectOf_keeps_cvalid (h : s.ctx.cvalid = true) : (effectOf i data s).ctx.cvalid = true := by
  cases i with
  | tfKey128 len | tfKey192 len | tfKey256 len => rfl
  | _ => exact h

/-- Every command that writes `DIGEST` puts out a digest. -/
theorem effectOf_keeps_dvalid (h : s.dig.dvalid = true) : (effectOf i data s).dig.dvalid = true := by
  cases i with
  | shaFinish len | shabFinish len | shaHash len => rfl
  | _ => exact h

/-- Every command that writes `BLKOUT` puts out a block. -/
theorem effectOf_keeps_ovalid (h : s.blk.ovalid = true) : (effectOf i data s).blk.ovalid = true := by
  cases i with
  | tfEnc | tfDec => rfl
  | _ => exact h

end Flags

/-- Settles O22: a command that is refused or raises a cause moves no flag but `FAULTED`, and one that
completes moves those of the elements that its effect writes. -/
theorem flagsChangeOnlyAsTheStatusTableSays : Obligations.FlagsChangeOnlyAsTheStatusTableSays := by
  intro s t c rest hin h
  rw [step_command hin] at h
  obtain ⟨-, rfl⟩ | ⟨-, cause, rfl⟩ | ⟨-, i, hd, -, rfl⟩ := commandEvent_next h
  case inl => simp +contextual
  case inr.inl => simp +contextual
  case inr.inr =>
    let u := s.accept c.payload rest
    obtain ⟨hflt, -, -⟩ := effectOf_rest i c.payload.bytes u
    simp only [hd, Except.ok.injEq]
    exact ⟨effectOf_sets_rvalid u, effectOf_clears_rvalid u, effectOf_sets_bvalid u,
      effectOf_clears_bvalid u, effectOf_sets_cvalid u, effectOf_keeps_cvalid u, effectOf_sets_dvalid u,
      effectOf_keeps_dvalid u, effectOf_sets_ovalid u, effectOf_keeps_ovalid u,
      fun hf => (congrArg FaultRegs.faulted hflt).trans hf⟩

/-! ### The invariant between commands (R38) -/

/-- R38 (a). -/
def RawSlot.Aligned (r : RawSlot) : Prop :=
  r.rvalid = true → r.rcnt.toNat % 64 = 0 ∧ r.rcnt.toNat < 2 ^ 61

/-- R38 (b), without the bound on `BLEN`, which its six bits always meet. -/
def BufSlot.Aligned (b : BufSlot) : Prop :=
  b.bvalid = true → b.bcnt.toNat % 64 = 0 ∧ b.bcnt.toNat < 2 ^ 61

theorem State.Inv.buf_aligned {s : State} (hI : s.Inv) : s.buf.Aligned := by
  intro hv
  obtain ⟨hmod, hlt, -⟩ := hI.buf hv
  exact ⟨hmod, hlt⟩

theorem BufSlot.Aligned.inv {b : BufSlot} (h : b.Aligned) (hv : b.bvalid = true) :
    b.bcnt.toNat % 64 = 0 ∧ b.bcnt.toNat < 2 ^ 61 ∧ b.blen.toNat ≤ 63 := by
  obtain ⟨hmod, hlt⟩ := h hv
  exact ⟨hmod, hlt, Nat.le_of_lt_succ b.blen.isLt⟩

/-- Settles O2: every flag is 0, so no clause asks anything of the data words. -/
theorem resetStateMeetsInvariant : Obligations.ResetStateMeetsInvariant where
  raw h := nomatch h
  buf h := nomatch h
  context h := nomatch h
  clean _ := ⟨rfl, rfl⟩
  recorded h := nomatch h
  payload := rfl

section Effect

variable {i : Instr} {data : List Byte} {s : State}

/-- `SHA.UPDATE` adds a multiple of 64 that stays below the ceiling (R219, R220). -/
theorem effectOf_raw_aligned (hlen : data.length = i.payloadLen.toNat)
    (ht : firstRaised (testsOf i s) = none) (h : s.raw.Aligned) : (effectOf i data s).raw.Aligned := by
  cases i with
  | shaInit => exact fun _ => ⟨rfl, Nat.two_pow_pos 61⟩
  | shaUpdate len =>
    obtain ⟨hv, hmod, hlt⟩ := shaUpdate_passes.1 ht
    obtain ⟨hcnt, -⟩ := h hv
    intro _
    simp only [effectOf, hlen, Instr.payloadLen, BitVec.toNat_ofNat]
    omega
  | shaFinish len => exact fun hv => nomatch hv
  | _ => exact h

/-- `SHAB.UPDATE` adds the bytes it flushes, a multiple of 64 that stays below the ceiling (R151, R220). -/
theorem effectOf_buf_aligned (hlen : data.length = i.payloadLen.toNat)
    (ht : firstRaised (testsOf i s) = none) (h : s.buf.Aligned) : (effectOf i data s).buf.Aligned := by
  cases i with
  | shabInit => exact fun _ => ⟨rfl, Nat.two_pow_pos 61⟩
  | shabUpdate len =>
    obtain ⟨hv, hlt⟩ := shabUpdate_passes.1 ht
    obtain ⟨hmod, -⟩ := h hv
    rw [show len.toNat = data.length from hlen.symm] at hlt
    obtain ⟨-, hcnt, -⟩ := bufferUpdate_closed data s hlt
    exact fun _ => ⟨bufferUpdate_count_mod data s hmod, hcnt ▸ hlt⟩
  | shabFinish len => exact fun hv => nomatch hv
  | _ => exact h

/-- A key command that passes its test has a key of its size (R174). -/
theorem effectOf_contextDerived (hlen : data.length = i.payloadLen.toNat)
    (ht : firstRaised (testsOf i s) = none) (h : s.ctx.cvalid = true → s.contextDerived) :
    (effectOf i data s).ctx.cvalid = true → (effectOf i data s).contextDerived := by
  cases i with
  | tfKey128 len => exact fun _ => ⟨data, .inl (hlen.trans (tfKey128_passes.1 ht)), rfl, rfl⟩
  | tfKey192 len => exact fun _ => ⟨data, .inr (.inl (hlen.trans (tfKey192_passes.1 ht))), rfl, rfl⟩
  | tfKey256 len => exact fun _ => ⟨data, .inr (.inr (hlen.trans (tfKey256_passes.1 ht))), rfl, rfl⟩
  | _ => exact h

end Effect

/-- A command that completes keeps the invariant, once its payload is gone. -/
theorem effectOf_keeps_inv {i : Instr} {p : Payload} {rest : List HostEvent} {s : State} (hI : s.Inv)
    (hlen : p.bytes.length = i.payloadLen.toNat) (ht : firstRaised (testsOf i s) = none) :
    (effectOf i p.bytes (s.accept p rest)).dropPayload.Inv := by
  have ht' : firstRaised (testsOf i (s.accept p rest)) = none := by rw [testsOf_accept, ht]
  obtain ⟨hflt, -, -⟩ := effectOf_rest i p.bytes (s.accept p rest)
  exact {
    raw := effectOf_raw_aligned hlen ht' hI.raw
    buf := (effectOf_buf_aligned hlen ht' hI.buf_aligned).inv
    context := effectOf_contextDerived hlen ht' hI.context
    clean := by rw [dropPayload_flt, hflt]; exact hI.clean
    recorded := by rw [dropPayload_flt, hflt]; exact hI.recorded
    payload := rfl }

theorem commandEvent_keeps_inv {c : Command} {rest : List HostEvent} {s t : State} (hI : s.Inv)
    (h : commandEvent c rest s = .next t) : t.Inv := by
  obtain ⟨-, rfl⟩ | ⟨-, cause, rfl⟩ | ⟨-, i, hd, ht, rfl⟩ := commandEvent_next h
  case inl => exact ⟨hI.raw, hI.buf, hI.context, hI.clean, hI.recorded, rfl⟩
  case inr.inl => exact ⟨hI.raw, hI.buf, hI.context, (nomatch ·), fun _ => cause.code_range, rfl⟩
  case inr.inr => exact effectOf_keeps_inv hI (Command.length_of_decode hd) ht

/-- After a reset event no flag is 1, so the invariant asks nothing of the free values. -/
theorem resetEvent_inv {s : State} (h : s.payload = .empty) : s.resetEvent.Inv where
  raw hv := nomatch hv
  buf hv := nomatch hv
  context hv := nomatch hv
  clean _ := ⟨rfl, rfl⟩
  recorded hf := nomatch hf
  payload := h

/-- Settles O3, by what a step can do: nothing, a reset, or a command. -/
theorem everyStepKeepsInvariant : Obligations.EveryStepKeepsInvariant := by
  intro s t hI h
  obtain ⟨-, rfl⟩ | ⟨rest, -, rfl⟩ | ⟨c, rest, -, hc⟩ := step_cases h
  case inl => exact hI
  case inr.inl => exact resetEvent_inv hI.payload
  case inr.inr => exact commandEvent_keeps_inv hI hc

/-! ### Two states that say the same (R41) -/

theorem RawSlot.live_eq_of_valid {r r' : RawSlot} (h : r.live = r'.live) (hv : r.rvalid = true) :
    r.rh = r'.rh ∧ r.rcnt = r'.rcnt := by
  have hv' : r'.rvalid = true := RawSlot.live_eq_valid h ▸ hv
  simpa [RawSlot.live_of_valid, hv, hv'] using h

theorem BufSlot.live_eq_of_valid {b b' : BufSlot} (h : b.live = b'.live) (hv : b.bvalid = true) :
    b.bh = b'.bh ∧ b.bcnt = b'.bcnt ∧ b.pending = b'.pending := by
  have hv' : b'.bvalid = true := BufSlot.live_eq_valid h ▸ hv
  simpa [BufSlot.live_of_valid, hv, hv'] using h

theorem CipherContext.live_eq_of_valid {c c' : CipherContext} (h : c.live = c'.live)
    (hv : c.cvalid = true) : c.sb = c'.sb ∧ c.sk = c'.sk := by
  have hv' : c'.cvalid = true := CipherContext.live_eq_valid h ▸ hv
  simpa [CipherContext.live, hv, hv'] using h

/-- The number of pending bytes is seen in them (R26). -/
theorem BufSlot.blen_eq_of_pending_eq {b b' : BufSlot} (h : b.pending = b'.pending) :
    b.blen.toNat = b'.blen.toNat := by
  rw [← pending_length, h, pending_length]

/-- Two states agree: they say the same (R41), with the same events to come and the same payload. -/
structure State.Agrees (s s' : State) : Prop where
  raw : s.raw.live = s'.raw.live
  buf : s.buf.live = s'.buf.live
  ctx : s.ctx.live = s'.ctx.live
  dig : s.dig.live = s'.dig.live
  blk : s.blk.live = s'.blk.live
  flt : s.flt = s'.flt
  input : s.input = s'.input
  payload : s.payload = s'.payload

theorem State.agrees_iff {s s' : State} :
    s.Agrees s' ↔ s.observe = s'.observe ∧ s.input = s'.input ∧ s.payload = s'.payload := by
  constructor
  · rintro ⟨hraw, hbuf, hctx, hdig, hblk, hflt, hin, hp⟩
    exact ⟨by simp only [State.observe, hraw, hbuf, hctx, hdig, hblk, hflt], hin, hp⟩
  · rintro ⟨ho, hin, hp⟩
    simp only [State.observe, Observed.mk.injEq] at ho
    obtain ⟨hraw, hbuf, hctx, hdig, hblk, hflt⟩ := ho
    exact ⟨hraw, hbuf, hctx, hdig, hblk, hflt, hin, hp⟩

theorem State.Agrees.accept {s s' : State} (h : s.Agrees s') (p : Payload) (rest : List HostEvent) :
    (s.accept p rest).Agrees (s'.accept p rest) := { h with input := rfl, payload := rfl }

theorem State.Agrees.dropPayload {s s' : State} (h : s.Agrees s') : s.dropPayload.Agrees s'.dropPayload :=
  { h with payload := rfl }

theorem State.Agrees.resetEvent {s s' : State} (h : s.Agrees s') : s.resetEvent.Agrees s'.resetEvent where
  raw := rfl
  buf := rfl
  ctx := rfl
  dig := rfl
  blk := rfl
  flt := rfl
  input := h.input
  payload := h.payload

/-- The first cause raised is the same: a test reads a counter behind the test of its slot's flag only, and
a flag that is 0 raises its cause first. -/
theorem State.Agrees.firstRaised_eq {s s' : State} (h : s.Agrees s') (i : Instr) :
    firstRaised (testsOf i s) = firstRaised (testsOf i s') := by
  have hraw := RawSlot.live_eq_valid h.raw
  have hbuf := BufSlot.live_eq_valid h.buf
  have hctx := CipherContext.live_eq_valid h.ctx
  cases i with
  | shaUpdate len | shaFinish len =>
    cases hv : s.raw.rvalid with
    | false => simp [testsOf, ← hraw, hv]
    | true =>
      obtain ⟨-, hcnt⟩ := RawSlot.live_eq_of_valid h.raw hv
      simp only [testsOf, hraw, hcnt]
  | shabUpdate len | shabFinish len =>
    cases hv : s.buf.bvalid with
    | false => simp [testsOf, ← hbuf, hv]
    | true =>
      obtain ⟨-, hcnt, hpend⟩ := BufSlot.live_eq_of_valid h.buf hv
      simp only [testsOf, hbuf, hcnt, BufSlot.blen_eq_of_pending_eq hpend]
  | tfEnc | tfDec => simp only [testsOf, hctx]
  | _ => rfl

/-- What a buffer update leaves is a function of the accumulator and the payload: R153 names nothing
else. -/
theorem bufferUpdate_live_eq {s s' : State} (data : List Byte) (h : s.buf.live = s'.buf.live)
    (hv : s.buf.bvalid = true)
    (hlt : s.buf.bcnt.toNat + flushedBytes s.buf.blen.toNat data.length < 2 ^ 61) :
    (bufferUpdate data s).buf.live = (bufferUpdate data s').buf.live := by
  have hv' : s'.buf.bvalid = true := BufSlot.live_eq_valid h ▸ hv
  obtain ⟨hbh, hbcnt, hpend⟩ := BufSlot.live_eq_of_valid h hv
  have hblen := BufSlot.blen_eq_of_pending_eq hpend
  obtain ⟨hH, hC, -, hP, hV⟩ := bufferUpdate_closed data s hlt
  rw [hbcnt, hblen] at hlt
  obtain ⟨hH', hC', -, hP', hV'⟩ := bufferUpdate_closed data s' hlt
  have hcnt : (bufferUpdate data s).buf.bcnt = (bufferUpdate data s').buf.bcnt := by
    apply BitVec.eq_of_toNat_eq
    rw [hC, hC', hbcnt, hblen]
  rw [BufSlot.live_of_valid (hV.trans hv), BufSlot.live_of_valid (hV'.trans hv'), hcnt, hH, hH', hP, hP',
    hbh, hblen, hpend]

/-- A command that passes its tests reads live elements only. -/
theorem State.Agrees.effectOf {s s' : State} (h : s.Agrees s') {i : Instr} {data : List Byte}
    (hlen : data.length = i.payloadLen.toNat) (ht : firstRaised (testsOf i s) = none) :
    (effectOf i data s).Agrees (effectOf i data s') := by
  cases i with
  | shaInit => exact { h with raw := rfl }
  | shaUpdate len =>
    obtain ⟨hv, -, -⟩ := shaUpdate_passes.1 ht
    obtain ⟨hrh, hcnt⟩ := RawSlot.live_eq_of_valid h.raw hv
    have hv' : s'.raw.rvalid = true := RawSlot.live_eq_valid h.raw ▸ hv
    refine { h with raw := ?_ }
    simp only [Machine.effectOf, RawSlot.live, hrh, hcnt, hv, hv']
  | shaFinish len =>
    obtain ⟨hv, -⟩ := shaFinish_passes.1 ht
    obtain ⟨hrh, hcnt⟩ := RawSlot.live_eq_of_valid h.raw hv
    refine { h with raw := rfl, dig := ?_ }
    simp only [Machine.effectOf, consumeRaw_dig, putDigest_dig, hrh, hcnt]
  | shaHash len => exact { h with dig := rfl }
  | shabInit => exact { h with buf := rfl }
  | shabUpdate len =>
    obtain ⟨hv, hlt⟩ := shabUpdate_passes.1 ht
    rw [show len.toNat = data.length from hlen.symm] at hlt
    exact { h with buf := bufferUpdate_live_eq data h.buf hv hlt }
  | shabFinish len =>
    obtain ⟨hv, hlt⟩ := shabFinish_passes.1 ht
    rw [show len.toNat = data.length from hlen.symm] at hlt
    have hflush := flushedBytes_le s.buf.blen.toNat data.length
    have hlive := bufferUpdate_live_eq data h.buf hv (by omega)
    obtain ⟨hbh, hbcnt, hpend⟩ := BufSlot.live_eq_of_valid hlive ((bufferUpdate_bvalid data s).trans hv)
    refine { h with buf := rfl, dig := ?_ }
    simp only [Machine.effectOf, bufferFinish_dig, hbh, hbcnt, hpend]
  | tfKey128 len | tfKey192 len | tfKey256 len => exact { h with ctx := rfl }
  | tfEnc =>
    obtain ⟨hsb, hsk⟩ := CipherContext.live_eq_of_valid h.ctx (tfEnc_passes.1 ht)
    refine { h with blk := ?_ }
    simp only [Machine.effectOf, putBlock_blk, hsb, hsk]
  | tfDec =>
    obtain ⟨hsb, hsk⟩ := CipherContext.live_eq_of_valid h.ctx (tfDec_passes.1 ht)
    refine { h with blk := ?_ }
    simp only [Machine.effectOf, putBlock_blk, hsb, hsk]

/-- A command leaves two states that agree in agreement, whether it is refused, raises a cause or
completes. -/
theorem State.Agrees.commandEvent {s s' t t' : State} (h : s.Agrees s') {c : Command}
    {rest : List HostEvent} (hs : commandEvent c rest s = .next t)
    (hs' : commandEvent c rest s' = .next t') : t.Agrees t' := by
  cases hf : s.flt.faulted with
  | true =>
    rw [commandEvent_of_faulted hf] at hs
    rw [commandEvent_of_faulted (h.flt ▸ hf)] at hs'
    cases hs; cases hs'
    exact { h with input := rfl, payload := rfl }
  | false =>
    have hf' : s'.flt.faulted = false := h.flt ▸ hf
    cases hd : decode c.desc with
    | error r =>
      rw [commandEvent_of_illegal hd hf] at hs
      rw [commandEvent_of_illegal hd hf'] at hs'
      cases hs; cases hs'
      exact { h with flt := rfl, input := rfl, payload := rfl }
    | ok i =>
      cases ht : firstRaised (testsOf i s) with
      | some cause =>
        rw [commandEvent_of_raised hd hf ht] at hs
        rw [commandEvent_of_raised hd hf' (h.firstRaised_eq i ▸ ht)] at hs'
        cases hs; cases hs'
        exact { h with flt := rfl, input := rfl, payload := rfl }
      | none =>
        rw [commandEvent_of_pass hd hf ht] at hs
        rw [commandEvent_of_pass hd hf' (h.firstRaised_eq i ▸ ht)] at hs'
        cases hs; cases hs'
        exact ((h.accept c.payload rest).effectOf (Command.length_of_decode hd)
          ((testsOf_accept i s c.payload rest).symm ▸ ht)).dropPayload

/-- Every step leaves two states that agree in agreement: both have the same event to take. -/
theorem State.Agrees.step {s s' t t' : State} (h : s.Agrees s') (hs : step s = .next t)
    (hs' : step s' = .next t') : t.Agrees t' := by
  obtain ⟨hin, rfl⟩ | ⟨rest, hin, rfl⟩ | ⟨c, rest, hin, hc⟩ := step_cases hs
  case inl =>
    rw [step_idle (h.input ▸ hin)] at hs'
    cases hs'
    exact h
  case inr.inl =>
    rw [step_reset (h.input ▸ hin)] at hs'
    cases hs'
    exact State.Agrees.resetEvent { h with input := rfl }
  case inr.inr =>
    rw [step_command (h.input ▸ hin)] at hs'
    exact h.commandEvent hc hs'

theorem State.Agrees.runEvents {n : Nat} {s s' t t' : State} (h : s.Agrees s')
    (hs : runEvents n s = .next t) (hs' : runEvents n s' = .next t') : t.Agrees t' := by
  induction n generalizing s s' with
  | zero => cases hs; cases hs'; exact h
  | succ n ih =>
    obtain ⟨u, hu, hr⟩ := runEvents_succ_cases hs
    obtain ⟨u', hu', hr'⟩ := runEvents_succ_cases hs'
    exact ih (h.step hu hu') hr hr'

/-- Settles O24: both runs answer next states, and every step keeps the agreement. -/
theorem unspecifiedElementsAreNeverRead : Obligations.UnspecifiedElementsAreNeverRead := by
  intro n s s' ho hin hp
  obtain ⟨t, ht⟩ := runEvents_next n s
  obtain ⟨t', ht'⟩ := runEvents_next n s'
  rw [ht, ht']
  exact State.agrees_iff.1 ((State.agrees_iff.2 ⟨ho, hin, hp⟩).runEvents ht ht')

end Sys2Proof.Machine

/-! PROOFS. The statement of 20_memory.md: the byte permutations `Q0` and `Q1` (R61). -/

namespace Sys2Proof.Machine

/-! ### The byte permutations

`qPerm` is a chain of one-to-one maps: the byte is split into its nibbles, then twice mixed and looked up
in a pair of tables, then joined. -/

/-- The high and the low nibble of a byte. -/
def splitNibbles (x : Byte) : BitVec 4 × BitVec 4 := (x.extractLsb' 4 4, x.extractLsb' 0 4)

/-- The linear step of R61, from `a0, b0` to `a1, b1` and from `a2, b2` to `a3, b3`. -/
def mixNibbles (v : BitVec 4 × BitVec 4) : BitVec 4 × BitVec 4 :=
  (v.1 ^^^ v.2, v.1 ^^^ ror4 v.2 ^^^ (v.1 <<< 3))

/-- The entry of a 4-bit table for a nibble. -/
def nibbleAt (l : List (BitVec 4)) (v : BitVec 4) : BitVec 4 := l.getD v.toNat 0

/-- The result of R61: the second nibble is the high one. -/
def joinNibbles (v : BitVec 4 × BitVec 4) : Byte := v.2 ++ v.1

theorem qPerm_eq_comp (t : NibbleTables) :
    qPerm t = joinNibbles ∘ Prod.map (nibbleAt t.t2) (nibbleAt t.t3) ∘ mixNibbles ∘
      Prod.map (nibbleAt t.t0) (nibbleAt t.t1) ∘ mixNibbles ∘ splitNibbles := rfl

theorem splitNibbles_injective : Function.Injective splitNibbles := by
  have hinv : Function.LeftInverse (joinNibbles ∘ Prod.swap) splitNibbles := fun _ =>
    BitVec.extractLsb'_append_extractLsb'
  exact hinv.injective

theorem joinNibbles_injective : Function.Injective joinNibbles := by
  have hinv : Function.LeftInverse (Prod.swap ∘ splitNibbles) joinNibbles := fun _ =>
    Prod.ext BitVec.extractLsb'_append_eq_right BitVec.extractLsb'_append_eq_left
  exact hinv.injective

/-- The Gray code of a nibble is undone by the XOR of its right shifts. -/
theorem gray_injective : Function.Injective fun b : BitVec 4 => b ^^^ (b >>> 1) := by
  have hinv : Function.LeftInverse (fun g : BitVec 4 => g ^^^ (g >>> 1) ^^^ (g >>> 2) ^^^ (g >>> 3))
      fun b => b ^^^ (b >>> 1) := by
    unfold Function.LeftInverse; decide
  exact hinv.injective

theorem ror4_xor_shiftLeft (b : BitVec 4) : ror4 b ^^^ (b <<< 3) = b >>> 1 := by
  revert b; decide

/-- The Gray code of the second nibble is read off the mixed nibbles. -/
theorem gray_of_mixNibbles (v : BitVec 4 × BitVec 4) :
    (mixNibbles v).1 ^^^ (mixNibbles v).2 ^^^ ((mixNibbles v).1 <<< 3) = v.2 ^^^ (v.2 >>> 1) := by
  simp only [mixNibbles, BitVec.shiftLeft_xor_distrib]
  calc
    _ = (v.1 ^^^ v.1) ^^^ ((v.1 <<< 3) ^^^ (v.1 <<< 3)) ^^^ (v.2 ^^^ (ror4 v.2 ^^^ (v.2 <<< 3))) := by ac_rfl
    _ = v.2 ^^^ (v.2 >>> 1) := by simp [ror4_xor_shiftLeft]

/-- Equal mixed nibbles have the second nibble in common by its Gray code, then the first by the sum. -/
theorem mixNibbles_injective : Function.Injective mixNibbles := by
  intro v w h
  have hgray : v.2 ^^^ (v.2 >>> 1) = w.2 ^^^ (w.2 >>> 1) := by
    rw [← gray_of_mixNibbles, h, gray_of_mixNibbles]
  have hsnd : v.2 = w.2 := gray_injective hgray
  have hsum : v.1 ^^^ v.2 = w.1 ^^^ w.2 := congrArg Prod.fst h
  rw [hsnd, BitVec.xor_left_inj] at hsum
  exact Prod.ext hsum hsnd

/-- A table of 16 different entries is one to one. -/
theorem nibbleAt_injective {l : List (BitVec 4)} (hlen : l.length = 16) (hl : l.Nodup) :
    Function.Injective (nibbleAt l) := by
  intro v w h
  have hv : v.toNat < l.length := hlen ▸ v.isLt
  have hw : w.toNat < l.length := hlen ▸ w.isLt
  simp only [nibbleAt, List.getD_eq_getElem _ _ hv, List.getD_eq_getElem _ _ hw] at h
  exact BitVec.eq_of_toNat_eq (hl.getElem_inj_iff.1 h)

/-- Each of the four tables lists 16 different nibbles. -/
structure NibbleTables.Permutes (t : NibbleTables) : Prop where
  t0 : t.t0.length = 16 ∧ t.t0.Nodup
  t1 : t.t1.length = 16 ∧ t.t1.Nodup
  t2 : t.t2.length = 16 ∧ t.t2.Nodup
  t3 : t.t3.length = 16 ∧ t.t3.Nodup

theorem tablesQ0_permutes : tablesQ0.Permutes := by constructor <;> decide

theorem tablesQ1_permutes : tablesQ1.Permutes := by constructor <;> decide

theorem qPerm_injective {t : NibbleTables} (h : t.Permutes) : Function.Injective (qPerm t) := by
  obtain ⟨⟨n0, d0⟩, ⟨n1, d1⟩, ⟨n2, d2⟩, ⟨n3, d3⟩⟩ := h
  have hfirst := (nibbleAt_injective n0 d0).prodMap (nibbleAt_injective n1 d1)
  have hsecond := (nibbleAt_injective n2 d2).prodMap (nibbleAt_injective n3 d3)
  rw [qPerm_eq_comp]
  exact joinNibbles_injective.comp <| hsecond.comp <| mixNibbles_injective.comp <|
    hfirst.comp <| mixNibbles_injective.comp splitNibbles_injective

theorem Q0_injective : Function.Injective Q0 := qPerm_injective tablesQ0_permutes

theorem Q1_injective : Function.Injective Q1 := qPerm_injective tablesQ1_permutes

/-- Settles O54: the steps of R61 are one to one, and so are the tables of `Q0` and of `Q1`. -/
theorem byteTablesArePermutations : Obligations.ByteTablesArePermutations :=
  fun _ _ => ⟨fun h => Q0_injective h, fun h => Q1_injective h⟩

end Sys2Proof.Machine

/-! PROOFS. The statements of 30_encoding.md: the descriptor, its opcode map and its serialised form (R90 to
R97, R100), the answers to commands (R94, R95, R101, R102), the assembler (R98, R99) and the text it reads. -/

namespace Sys2Proof.Machine

/-! ### The serialised descriptor (R96) -/

/-- Bits that stand on top of a byte, joined with that byte. -/
theorem extractLsb'_append_byte {w : Nat} (x : BitVec w) (k n : Nat) :
    x.extractLsb' (k + 8) n ++ x.extractLsb' k 8 = x.extractLsb' k (n + 8) :=
  BitVec.extractLsb'_append_extractLsb'_eq_extractLsb' rfl

theorem append_byte_extractLsb'_low {n : Nat} (x : BitVec n) (b : Byte) : (x ++ b).extractLsb' 0 8 = b :=
  BitVec.extractLsb'_append_eq_right

theorem append_byte_extractLsb'_high {n : Nat} (x : BitVec n) (b : Byte) (k : Nat) :
    (x ++ b).extractLsb' (k + 8) 8 = x.extractLsb' k 8 := by
  rw [BitVec.extractLsb'_append_eq_of_le (Nat.le_add_left 8 k), Nat.add_sub_cancel]

theorem descOfBytes_descBytes (d : Desc) : descOfBytes (descBytes d) = some d := by
  simp only [descBytes, descOfBytes, extractLsb'_append_byte]
  exact congrArg some BitVec.extractLsb'_eq_self

theorem descBytes_of_descOfBytes {bytes : List Byte} {d : Desc} (h : descOfBytes bytes = some d) :
    descBytes d = bytes := by
  unfold descOfBytes at h
  split at h
  case h_1 =>
    cases h
    simp only [descBytes, append_byte_extractLsb'_high, append_byte_extractLsb'_low]
    rw [BitVec.extractLsb'_eq_self]
  case h_2 => cases h

/-- `decodeTableWord` numbers the bits of a descriptor as the descriptor itself does (assumption log 11). -/
theorem decodeTableWord_toNat {d : Desc} {i : Instr} (h : decode d = .ok i) :
    decodeTableWord 72 d.toNat = some i := by
  simp [decodeTableWord, Nat.mod_eq_of_lt d.isLt, d.isLt, h]

/-- Settles O6: each form is read back as the descriptor, which decodes to the command. -/
theorem decodeOfEncodeIsTheCommand : Obligations.DecodeOfEncodeIsTheCommand := fun i =>
  ⟨decode_encode i, rfl, by rw [descOfBytes_descBytes, Option.map_some, decode_encode],
    decodeTableWord_toNat (decode_encode i)⟩

/-- Settles O7: `encode` undoes `decode`, and the two directions of the 9-byte form undo each other. -/
theorem encodeOfDecodeIsTheDescriptor : Obligations.EncodeOfDecodeIsTheDescriptor :=
  ⟨fun _ _ => encode_of_decode,
    fun _ d => ⟨descBytes_of_descOfBytes, fun h => h ▸ descOfBytes_descBytes d⟩⟩

/-! ### The opcode map (R92) and the illegal descriptors (R95) -/

/-- A descriptor decodes to a command exactly when its two fields are that command's. -/
theorem decode_eq_ok_iff {d : Desc} {i : Instr} :
    decode d = .ok i ↔ descOp d = i.opcode ∧ descLen d = i.payloadLen := by
  constructor
  · intro h
    rw [← encode_of_decode h]
    exact ⟨descOp_encode i, descLen_encode i⟩
  · rintro ⟨hop, hlen⟩
    rw [decode, hop, hlen, decodeFields_opcode]

theorem formatL_opcode (op : FormatL) (len : BitVec 64) :
    (op.instr len).opcode = (op.instr 0).opcode := by cases op <;> rfl

theorem formatL_mnemonic (op : FormatL) (len : BitVec 64) :
    (op.instr len).mnemonic = (op.instr 0).mnemonic := by cases op <;> rfl

theorem formatL_payloadLen (op : FormatL) (len : BitVec 64) :
    (op.instr len).payloadLen = len := by cases op <;> rfl

/-- What selects a row of format L: the opcode, with any `LEN`. -/
theorem exists_decode_of_opcode (op : FormatL) {d : Desc}
    (h : OpcodeRow.selects
      ⟨(op.instr 0).mnemonic, makeDesc (op.instr 0).opcode 0, makeDesc 0xFF 0⟩ d = true) :
    ∃ i, decode d = .ok i ∧ i.mnemonic = (op.instr 0).mnemonic := by
  have hop : descOp d = (op.instr (descLen d)).opcode := by
    rw [formatL_opcode, (selects_opcode _ _ _).1 h]
  exact ⟨op.instr (descLen d), decode_eq_ok_iff.2 ⟨hop, (formatL_payloadLen op _).symm⟩, formatL_mnemonic op _⟩

/-- What selects a row of format Z or B: the one descriptor of its command. -/
theorem exists_decode_of_whole (i : Instr) {d : Desc}
    (h : OpcodeRow.selects
      ⟨i.mnemonic, makeDesc i.opcode i.payloadLen, makeDesc 0xFF (BitVec.allOnes 64)⟩ d = true) :
    ∃ i', decode d = .ok i' ∧ i'.mnemonic = i.mnemonic :=
  ⟨i, decode_eq_ok_iff.2 ((selects_whole _ _ _ _).1 h), rfl⟩

/-- A row is selected by descriptors of its own command only. -/
theorem exists_decode_of_selects {d : Desc} : ∀ row ∈ opcodeMap, row.selects d = true →
    ∃ i, decode d = .ok i ∧ i.mnemonic = row.mnemonic := by
  simp only [opcodeMap, List.forall_mem_cons, List.not_mem_nil, false_imp_iff, implies_true, and_true]
  exact ⟨exists_decode_of_whole .shaInit, exists_decode_of_opcode .shaUpdate,
    exists_decode_of_opcode .shaFinish, exists_decode_of_opcode .shaHash,
    exists_decode_of_whole .shabInit, exists_decode_of_opcode .shabUpdate,
    exists_decode_of_opcode .shabFinish, exists_decode_of_opcode .tfKey128,
    exists_decode_of_opcode .tfKey192, exists_decode_of_opcode .tfKey256,
    exists_decode_of_whole .tfEnc, exists_decode_of_whole .tfDec⟩

/-- Every command has its row in the opcode map, by the family `RowMatch`. -/
theorem rowMatch (i : Instr) : Laws.RowMatch.Statement i := by
  cases i with
  | shaInit => exact Laws.RowMatch.shaInit
  | shaUpdate len => exact Laws.RowMatch.shaUpdate len
  | shaFinish len => exact Laws.RowMatch.shaFinish len
  | shaHash len => exact Laws.RowMatch.shaHash len
  | shabInit => exact Laws.RowMatch.shabInit
  | shabUpdate len => exact Laws.RowMatch.shabUpdate len
  | shabFinish len => exact Laws.RowMatch.shabFinish len
  | tfKey128 len => exact Laws.RowMatch.tfKey128 len
  | tfKey192 len => exact Laws.RowMatch.tfKey192 len
  | tfKey256 len => exact Laws.RowMatch.tfKey256 len
  | tfEnc => exact Laws.RowMatch.tfEnc
  | tfDec => exact Laws.RowMatch.tfDec

/-- A legal descriptor selects the row with its command's mnemonic. -/
theorem exists_selects_of_decode {d : Desc} {i : Instr} (h : decode d = .ok i) :
    ∃ row ∈ opcodeMap, row.mnemonic = i.mnemonic ∧ row.selects d = true :=
  encode_of_decode h ▸ rowMatch i

theorem opcodeMap_mnemonics_nodup : (opcodeMap.map OpcodeRow.mnemonic).Nodup := by decide

theorem selects_iff_decode {row : OpcodeRow} (hrow : row ∈ opcodeMap) (d : Desc) :
    row.selects d = true ↔ ∃ i, decode d = .ok i ∧ i.mnemonic = row.mnemonic := by
  refine ⟨exists_decode_of_selects row hrow, ?_⟩
  rintro ⟨i, hd, hname⟩
  obtain ⟨row', hrow', hname', hsel⟩ := exists_selects_of_decode hd
  rwa [← List.inj_on_of_nodup_map opcodeMap_mnemonics_nodup hrow' hrow (hname'.trans hname)]

/-- Two rows selected by one descriptor bear the mnemonic of the command it decodes to. -/
theorem mnemonic_eq_of_selects {a b : OpcodeRow} (ha : a ∈ opcodeMap) (hb : b ∈ opcodeMap) {d : Desc}
    (hda : a.selects d = true) (hdb : b.selects d = true) : a.mnemonic = b.mnemonic := by
  obtain ⟨i, hi, hia⟩ := exists_decode_of_selects a ha hda
  obtain ⟨j, hj, hjb⟩ := exists_decode_of_selects b hb hdb
  cases hi.symm.trans hj
  exact hia.symm.trans hjb

/-- Settles O8: a row is selected by the descriptors of its command, and no two rows bear one mnemonic. -/
theorem opcodeMapSelectsTheCommand : Obligations.OpcodeMapSelectsTheCommand := by
  refine ⟨fun d row hrow => selects_iff_decode hrow d, rfl, ?_⟩
  have hne : opcodeMap.Pairwise fun a b => a.mnemonic ≠ b.mnemonic :=
    List.pairwise_map.1 opcodeMap_mnemonics_nodup
  exact hne.imp_of_mem fun ha hb hab d ⟨hda, hdb⟩ => hab (mnemonic_eq_of_selects ha hb hda hdb)

theorem illegal_iff_not_legal (d : Desc) : (∃ r, decode d = .error r) ↔ ∀ i, decode d ≠ .ok i := by
  cases decode d <;> simp

theorem illegal_iff_selects_none (d : Desc) :
    (∃ r, decode d = .error r) ↔ ∀ row ∈ opcodeMap, row.selects d = false := by
  rw [illegal_iff_not_legal]
  constructor
  · intro h row hrow
    rw [Bool.eq_false_iff]
    intro hsel
    obtain ⟨i, hi, -⟩ := exists_decode_of_selects row hrow hsel
    exact h i hi
  · intro h i hi
    obtain ⟨row, hrow, -, hsel⟩ := exists_selects_of_decode hi
    exact Bool.false_ne_true ((h row hrow).symm.trans hsel)

theorem decodeFormatZ_error {i : Instr} {op : BitVec 8} {len : BitVec 64} :
    (∃ r, decodeFormatZ i op len = .error r) ↔ len ≠ 0 := by
  unfold decodeFormatZ
  split
  case isTrue h => exact ⟨fun ⟨_, hr⟩ => (nomatch hr), fun hne => absurd h hne⟩
  case isFalse h => exact ⟨fun _ => h, fun _ => ⟨_, rfl⟩⟩

theorem decodeFormatB_error {i : Instr} {op : BitVec 8} {len : BitVec 64} :
    (∃ r, decodeFormatB i op len = .error r) ↔ len ≠ 16 := by
  unfold decodeFormatB
  split
  case isTrue h => exact ⟨fun ⟨_, hr⟩ => (nomatch hr), fun hne => absurd h hne⟩
  case isFalse h => exact ⟨fun _ => h, fun _ => ⟨_, rfl⟩⟩

/-- The three kinds of R95, read off the case distinction of R100. -/
theorem illegal_iff_kinds (op : BitVec 8) (len : BitVec 64) : (∃ r, decodeFields op len = .error r) ↔
    (op ∉ ([0x10, 0x11, 0x12, 0x13, 0x20, 0x21, 0x22, 0x40, 0x41, 0x42, 0x48, 0x49] : List (BitVec 8)) ∨
    ((op = 0x10 ∨ op = 0x20) ∧ len ≠ 0) ∨ ((op = 0x48 ∨ op = 0x49) ∧ len ≠ 16)) := by
  by_cases hop : op ∈ ([0x10, 0x11, 0x12, 0x13, 0x20, 0x21, 0x22, 0x40, 0x41, 0x42, 0x48, 0x49] :
      List (BitVec 8))
  · simp only [List.mem_cons, List.not_mem_nil, or_false] at hop
    rcases hop with rfl | rfl | rfl | rfl | rfl | rfl | rfl | rfl | rfl | rfl | rfl | rfl <;>
      simp [decodeFields, decodeFormatZ_error, decodeFormatB_error]
  · simp only [hop, not_false_eq_true, true_or, iff_true]
    simp only [List.mem_cons, List.not_mem_nil, or_false, not_or] at hop
    exact ⟨.unknownOpcode op, by simp only [decodeFields, hop, if_false]⟩

/-- Settles O9: the kinds and the rows by the lemmas above; the step is the fault entry of R95. -/
theorem illegalDescriptorFaults : Obligations.IllegalDescriptorFaults := by
  refine ⟨fun d => illegal_iff_kinds _ _, illegal_iff_selects_none, fun d r hd payload => ?_⟩
  refine ⟨{ desc := d, payload := payload, whole := presents_of_illegal hd payload }, rfl, rfl, ?_⟩
  intro s rest hf hin
  rw [step_command hin]
  exact commandEvent_of_illegal hd hf

/-- Settles O10, by decoding the six words. -/
theorem wordsDecodeAsTheTableSays : Obligations.WordsDecodeAsTheTableSays :=
  ⟨rfl, rfl, rfl, rfl, rfl, rfl⟩

/-! ### Which commands are presented, and how they are answered (R94, R101, R102) -/

theorem wellFormed_iff_length {i : Instr} {p : Payload} :
    i.wellFormed p = true ↔ p.bytes.length = i.payloadLen.toNat := by
  rw [wellFormed_iff, p.whole, BitVec.toNat_inj]

/-- A pair is a command exactly if a legal descriptor comes with its `LEN` bytes. -/
theorem presents_iff {d : Desc} {p : Payload} :
    presents d p = true ↔ ∀ i, decode d = .ok i → p.bytes.length = (descLen d).toNat := by
  cases hd : decode d with
  | ok i => simp [presents_of_decode hd, wellFormed_iff_length, payloadLen_of_decode hd]
  | error r => simp [presents_of_illegal hd]

theorem Command.ext_bytes {c c' : Command} (hd : c.desc = c'.desc)
    (hb : c.payload.bytes = c'.payload.bytes) : c = c' := by
  obtain ⟨d, p, h⟩ := c
  obtain ⟨d', p', h'⟩ := c'
  cases hd
  cases Payload.ext_bytes hb
  rfl

/-- Settles O58: a command is its descriptor and its bytes, as many as `LEN` says. -/
theorem onlyWholeCommandsArePresented : Obligations.OnlyWholeCommandsArePresented := by
  refine ⟨fun d p => ?_, fun c c' => Command.ext_bytes, fun op bytes => ?_⟩
  · rw [← presents_iff]
    exact ⟨fun ⟨c, hd, hp⟩ => hd ▸ hp ▸ c.whole, fun h => ⟨⟨d, p, h⟩, rfl, rfl⟩⟩
  · constructor
    · exact fun h => ⟨.withData op (.ofBytes bytes h), decode_encode _, rfl⟩
    · rintro ⟨c, -, rfl⟩
      exact c.payload.whole ▸ c.payload.len.isLt

/-- Settles O14, by what a step can do: nothing, a reset, or a command in one of its three ways. -/
theorem everyEventIsAnswered : Obligations.EveryEventIsAnswered := by
  intro s
  obtain ⟨t, ht⟩ := step_next s
  refine ⟨t, ht, fun e rest hin => ?_⟩
  obtain ⟨hnil, -⟩ | ⟨rest', hin', rfl⟩ | ⟨c, rest', hin', hc⟩ := step_cases ht
  case inl => rw [hin] at hnil; cases hnil
  case inr.inl =>
    cases hin.symm.trans hin'
    exact ⟨rfl, id⟩
  case inr.inr =>
    cases hin.symm.trans hin'
    obtain ⟨-, rfl⟩ | ⟨-, cause, rfl⟩ | ⟨-, i, -, -, rfl⟩ := commandEvent_next hc
    · exact ⟨rfl, fun _ => rfl⟩
    · exact ⟨rfl, fun _ => rfl⟩
    · obtain ⟨-, hinput, -⟩ := effectOf_rest i c.payload.bytes (s.accept c.payload rest)
      exact ⟨hinput, fun _ => rfl⟩

theorem runIllegal_next (d : Desc) (s : State) : ∃ t, runIllegal d s = .next t := by
  unfold runIllegal
  split
  · exact ⟨_, rfl⟩
  · exact ⟨_, rfl⟩

/-- Settles O15: `exec` stops by the payload's length alone, and every step answers a next state. -/
theorem onlyPayloadMismatchStops : Obligations.OnlyPayloadMismatchStops := by
  refine ⟨fun i s => ?_, fun d r s hd => ?_, fun s r r' => ?_⟩
  · rw [← wellFormed_iff_length, Ne, ← wellFormed_iff_length]
    obtain ⟨hw, ht⟩ | ⟨hw, hf⟩ := exec_next_or_mismatch i s
    · exact ⟨fun _ => ht, fun h => absurd hw h⟩
    · exact ⟨fun h => Bool.noConfusion (hw.symm.trans h), fun _ => hf⟩
  · rw [execDesc, hd]
    exact runIllegal_next d s
  · obtain ⟨t, ht⟩ := step_next s
    rw [ht]
    exact ⟨nofun, nofun⟩

theorem responseOf_eq_done {s t : State} :
    responseOf s t = .done ↔ s.flt.faulted = false ∧ t.flt.faulted = false := by
  unfold responseOf
  cases s.flt.faulted <;> cases t.flt.faulted <;> decide

theorem responseOf_eq_fault {s t : State} :
    responseOf s t = .fault ↔ s.flt.faulted = false ∧ t.flt.faulted = true := by
  unfold responseOf
  cases s.flt.faulted <;> cases t.flt.faulted <;> decide

theorem responseOf_eq_refused {s t : State} : responseOf s t = .refused ↔ s.flt.faulted = true := by
  unfold responseOf
  cases s.flt.faulted <;> cases t.flt.faulted <;> decide

/-- Settles O16: the response tells which of the three ways of a command was taken. -/
theorem responseTellsHowACommandEnded : Obligations.ResponseTellsHowACommandEnded := by
  intro s t c rest hin ht
  rw [step_command hin] at ht
  refine ⟨responseOf_eq_done, responseOf_eq_fault, responseOf_eq_refused, ?_⟩
  rw [responseOf_eq_done, responseOf_eq_fault, responseOf_eq_refused]
  obtain ⟨hf, rfl⟩ | ⟨hf, cause, rfl⟩ | ⟨hf, i, hd, hpass, rfl⟩ := commandEvent_next ht
  case inl => simp [hf]
  case inr.inl => exact ⟨by simp, fun _ => ⟨cause, rfl⟩, by simp [hf]⟩
  case inr.inr =>
    obtain ⟨hflt, -, -⟩ := effectOf_rest i c.payload.bytes (s.accept c.payload rest)
    have hexec : exec i (s.accept c.payload rest) =
        .next (effectOf i c.payload.bytes (s.accept c.payload rest)) :=
      exec_of_pass (wellFormed_iff.1 (c.wellFormed_of_decode hd)) hf
        ((testsOf_accept i s c.payload rest).symm ▸ hpass)
    refine ⟨fun _ => ⟨hflt, i, _, hd, hexec, rfl⟩, ?_, ?_⟩
    · rw [dropPayload_flt, hflt, accept_flt, hf]; simp
    · simp [hf]

/-! ### The assembler (R98, R99) -/

theorem emit_of_lt {op : FormatL} {bytes : List Byte} (h : bytes.length < 2 ^ 64) :
    emit op bytes = .ok (encode (op.instr (BitVec.ofNat 64 bytes.length)), .ofBytes bytes h) := dif_pos h

theorem emit_of_ge {op : FormatL} {bytes : List Byte} (h : bytes.length ≥ 2 ^ 64) :
    emit op bytes = .error .lengthField := dif_neg (Nat.not_lt.2 h)

theorem emitBlock_of_eq {i : Instr} {bytes : List Byte} (h : bytes.length = 16) :
    emitBlock i bytes = .ok (encode i, .ofBytes bytes (by omega)) := dif_pos h

theorem emitBlock_of_ne {i : Instr} {bytes : List Byte} (h : bytes.length ≠ 16) :
    emitBlock i bytes = .error .blockLength := dif_neg h

/-- A line of format L emits its expression's bytes under its command. -/
theorem assemble_formatL : ∀ m ∈ formatLLines, ∀ e, assemble (m.1 e) = emit m.2 e.eval := by
  simp only [formatLLines, List.forall_mem_cons, List.not_mem_nil, false_imp_iff, implies_true, and_true]
  exact ⟨fun _ => rfl, fun _ => rfl, fun _ => rfl, fun _ => rfl, fun _ => rfl, fun _ => rfl, fun _ => rfl,
    fun _ => rfl⟩

/-- A line of format B emits its expression's bytes as one block under its command. -/
theorem assemble_formatB : ∀ m ∈ formatBLines, ∀ e, assemble (m.1 e) = emitBlock m.2 e.eval := by
  simp only [formatBLines, List.forall_mem_cons, List.not_mem_nil, false_imp_iff, implies_true, and_true]
  exact ⟨fun _ => rfl, fun _ => rfl⟩

/-- The bytes and a descriptor of a command that has as many of them. -/
def EmitsCommand (bytes : List Byte) (d : Desc) (p : Payload) : Prop :=
  p.bytes = bytes ∧ ∃ i, d = encode i ∧ p.bytes.length = i.payloadLen.toNat

theorem emit_emitsCommand {op : FormatL} {bytes : List Byte} {d : Desc} {p : Payload}
    (h : emit op bytes = .ok (d, p)) : EmitsCommand bytes d p := by
  by_cases hlen : bytes.length < 2 ^ 64
  · rw [emit_of_lt hlen] at h
    cases h
    exact ⟨rfl, _, rfl, wellFormed_iff_length.1 (op.wellFormed (.ofBytes bytes hlen))⟩
  · rw [emit_of_ge (Nat.not_lt.1 hlen)] at h
    cases h

theorem emitBlock_emitsCommand {i : Instr} (hi : i.payloadLen = 16) {bytes : List Byte} {d : Desc}
    {p : Payload} (h : emitBlock i bytes = .ok (d, p)) : EmitsCommand bytes d p := by
  by_cases hlen : bytes.length = 16
  · rw [emitBlock_of_eq hlen] at h
    cases h
    exact ⟨rfl, i, rfl, by rw [hi]; exact hlen⟩
  · rw [emitBlock_of_ne hlen] at h
    cases h

theorem emitKey_emitsCommand {bytes : List Byte} {d : Desc} {p : Payload}
    (h : emitKey bytes = .ok (d, p)) : EmitsCommand bytes d p := by
  unfold emitKey at h
  split at h
  · exact emit_emitsCommand h
  split at h
  · exact emit_emitsCommand h
  split at h
  · exact emit_emitsCommand h
  · cases h

theorem empty_emitsCommand {i : Instr} (hi : i.payloadLen = 0) : EmitsCommand [] (encode i) .empty :=
  ⟨rfl, i, rfl, by rw [hi]; rfl⟩

@[simp] theorem operandBytes_shaFinish (e : Option ByteExpr) :
    (AsmLine.shaFinish e).operandBytes = finishOperand e := by cases e <;> rfl

@[simp] theorem operandBytes_shabFinish (e : Option ByteExpr) :
    (AsmLine.shabFinish e).operandBytes = finishOperand e := by cases e <;> rfl

/-- Every line but `.desc` emits a command on its operand. -/
theorem assemble_emitsCommand {line : AsmLine} {d : Desc} {p : Payload} (h : assemble line = .ok (d, p))
    (hraw : ∀ d, line ≠ .rawDesc d) : EmitsCommand line.operandBytes d p := by
  cases line with
  | shaInit => cases h; exact empty_emitsCommand rfl
  | shabInit => cases h; exact empty_emitsCommand rfl
  | shaFinish e => rw [operandBytes_shaFinish]; exact emit_emitsCommand h
  | shabFinish e => rw [operandBytes_shabFinish]; exact emit_emitsCommand h
  | tfKey e => exact emitKey_emitsCommand h
  | tfEnc e => exact emitBlock_emitsCommand rfl h
  | tfDec e => exact emitBlock_emitsCommand rfl h
  | rawDesc d => exact absurd rfl (hraw d)
  | shaUpdate e => exact emit_emitsCommand h
  | shaHash e => exact emit_emitsCommand h
  | shabUpdate e => exact emit_emitsCommand h
  | tfKey128 e => exact emit_emitsCommand h
  | tfKey192 e => exact emit_emitsCommand h
  | tfKey256 e => exact emit_emitsCommand h

theorem assemble_bytes {line : AsmLine} {d : Desc} {p : Payload} (h : assemble line = .ok (d, p)) :
    p.bytes = line.operandBytes := by
  by_cases hraw : ∃ d, line = .rawDesc d
  · obtain ⟨d', rfl⟩ := hraw
    cases h
    rfl
  · exact (assemble_emitsCommand h (not_exists.1 hraw)).1

/-- What is emitted as a command is one that the host presents. -/
theorem EmitsCommand.presents {bytes : List Byte} {d : Desc} {p : Payload} (h : EmitsCommand bytes d p) :
    ∃ c : Command, presentEmitted [(d, p)] = some [.command c] ∧ c.desc = d ∧ c.payload = p := by
  obtain ⟨-, i, rfl, hlen⟩ := h
  have hpair : Command.ofPair (encode i) p = some (.ofInstr i p (wellFormed_iff_length.2 hlen)) :=
    Command.ofPair_eq_some.2 ⟨rfl, rfl⟩
  exact ⟨.ofInstr i p (wellFormed_iff_length.2 hlen), by simp only [presentEmitted, hpair], rfl, rfl⟩

/-- Settles O11: the lines by what they emit, the lengths by the cases of `emit`, `emitBlock` and
`emitKey`. -/
theorem assembledLinesAreWellFormed : Obligations.AssembledLinesAreWellFormed := by
  refine ⟨fun line d p h => ⟨assemble_bytes h, fun hraw => ?_⟩, fun _ => rfl, rfl, rfl, rfl, rfl,
    fun e => ⟨fun m hm => ?_, fun m hm => ?_, fun h => ?_, fun h => ?_, fun h => ?_, fun h16 h24 h32 => ?_⟩⟩
  · have hcmd : EmitsCommand line.operandBytes d p := assemble_emitsCommand h hraw
    exact ⟨hcmd.2, hcmd.presents⟩
  · rw [assemble_formatL m hm]
    exact ⟨fun hlt => ⟨_, rfl, emit_of_lt hlt⟩, emit_of_ge⟩
  · rw [assemble_formatB m hm]
    exact ⟨fun heq => ⟨_, rfl, emitBlock_of_eq heq⟩, emitBlock_of_ne⟩
  · simp [assemble, emitKey, h]
  · simp [assemble, emitKey, h]
  · simp [assemble, emitKey, h]
  · simp [assemble, emitKey, h16, h24, h32]

/-! ### Words of a line -/

/-- A character without a meaning of its own, which joins the word before it. -/
abbrev IsWordChar (c : Char) : Prop :=
  c ≠ ';' ∧ c ≠ '"' ∧ c ≠ '+' ∧ isBlank c = false ∧ punctuation c = none

/-- A word of a line, checked character by character. -/
def isWord (w : List Char) : Bool := !w.isEmpty && w.all fun c => IsWordChar c

theorem isWord_iff {w : List Char} : isWord w = true ↔ w ≠ [] ∧ ∀ c ∈ w, IsWordChar c := by
  simp only [isWord, Bool.and_eq_true, Bool.not_eq_true', List.isEmpty_eq_false_iff, List.all_eq_true,
    decide_eq_true_iff]

theorem lexLine_blank (w : List Char) (acc : List AsmToken) (cs : List Char) :
    lexLine (.plain w) acc (' ' :: cs) = lexLine (.plain []) (endWord w acc) cs := rfl

theorem lexLine_punctuation {c : Char} {t : AsmToken} (h : punctuation c = some t) (w : List Char)
    (acc : List AsmToken) (cs : List Char) :
    lexLine (.plain w) acc (c :: cs) = lexLine (.plain []) (t :: endWord w acc) cs := by
  unfold punctuation at h
  split_ifs at h with hl hr hc hp
  case pos => subst hl; cases h; rfl
  case pos => subst hr; cases h; rfl
  case pos => subst hc; cases h; rfl
  case pos => subst hp; cases h; rfl

section Word

variable {w : List Char} (hw : isWord w = true)
include hw

/-- A word is gathered newest character first. -/
theorem lexLine_word (acc : List AsmToken) (cs : List Char) :
    lexLine (.plain []) acc (w ++ cs) = lexLine (.plain w.reverse) acc cs := by
  rw [lexLine_plain_append w (isWord_iff.1 hw).2, List.append_nil]

theorem endWord_reverse (acc : List AsmToken) : endWord w.reverse acc = .word w :: acc := by
  simp [endWord, (isWord_iff.1 hw).1]

theorem lexLine_word_blank (acc : List AsmToken) (cs : List Char) :
    lexLine (.plain []) acc (w ++ ' ' :: cs) = lexLine (.plain []) (.word w :: acc) cs := by
  rw [lexLine_word hw, lexLine_blank, endWord_reverse hw]

theorem lexLine_word_punctuation {c : Char} {t : AsmToken} (h : punctuation c = some t)
    (acc : List AsmToken) (cs : List Char) :
    lexLine (.plain []) acc (w ++ c :: cs) = lexLine (.plain []) (t :: .word w :: acc) cs := by
  rw [lexLine_word hw, lexLine_punctuation h, endWord_reverse hw]

theorem lexLine_word_lineEnd (spaces : Nat) (comment : Option (List Char)) (acc : List AsmToken) :
    lexLine (.plain []) acc (w ++ lineEnd spaces comment) = .ok (acc.reverse ++ [.word w]) := by
  rw [lexLine_word hw, lexLine_lineEnd, endWord_reverse hw, List.reverse_cons]

/-- A line of one word. -/
theorem parseLine_word (spaces : Nat) (comment : Option (List Char)) :
    parseLine (w ++ lineEnd spaces comment) = readLine [.word w] := by
  simp [parseLine, lexLine_word_lineEnd hw]

end Word

/-! ### Numbers -/

theorem readDigits_hexChar (ds : List (BitVec 4)) : readDigits hexDigit (ds.map hexChar) = some ds := by
  induction ds with
  | nil => rfl
  | cons d ds ih => simp [readDigits, ih]

theorem hexNumber_hexChar (ds : List (BitVec 4)) :
    hexNumber ds.length ('0' :: 'x' :: ds.map hexChar) = some (ds.foldl (fun v d => 16 * v + d.toNat) 0) := by
  simp [hexNumber, readDigits_hexChar]

/-- The nibbles of a descriptor, the most significant one first. -/
def descNibble (d : Desc) (i : Nat) : BitVec 4 := d.extractLsb' (4 * (17 - i)) 4

theorem descChars_eq_map (d : Desc) : descChars d = ((List.range 18).map (descNibble d)).map hexChar := by
  rw [List.map_map]
  rfl

theorem descNibble_toNat (d : Desc) (i : Nat) : (descNibble d i).toNat = d.toNat / 16 ^ (17 - i) % 16 := by
  rw [descNibble, BitVec.extractLsb'_toNat, Nat.shiftRight_eq_div_pow, Nat.pow_mul]

/-- The first `n` nibbles spell the number without its last `18 - n` ones. -/
theorem foldl_descNibble (d : Desc) {n : Nat} (hn : n ≤ 18) :
    ((List.range n).map (descNibble d)).foldl (fun v x => 16 * v + x.toNat) 0 = d.toNat / 16 ^ (18 - n) := by
  induction n with
  | zero => exact (Nat.div_eq_of_lt d.isLt).symm
  | succ n ih =>
    have hpow : 16 ^ (18 - n) = 16 ^ (17 - n) * 16 := by rw [← Nat.pow_succ]; congr 1; omega
    rw [List.range_succ, List.map_append, List.foldl_append, ih (by omega), hpow, ← Nat.div_div_eq_div_mul,
      show 18 - (n + 1) = 17 - n by omega]
    simp only [List.map_cons, List.map_nil, List.foldl_cons, List.foldl_nil, descNibble_toNat]
    exact Nat.div_add_mod _ 16

theorem hexNumber_descChars (d : Desc) : hexNumber 18 ('0' :: 'x' :: descChars d) = some d.toNat := by
  have h := hexNumber_hexChar ((List.range 18).map (descNibble d))
  rwa [← descChars_eq_map, foldl_descNibble d (Nat.le_refl 18), Nat.sub_self, Nat.pow_zero, Nat.div_one]
    at h

theorem isWord_descChars (d : Desc) : isWord ('0' :: 'x' :: descChars d) = true := by
  rw [isWord_iff, descChars]
  simp only [List.forall_mem_cons, List.forall_mem_map]
  exact ⟨List.cons_ne_nil _ _, by decide, by decide, fun i _ => hexChar_plain _⟩

/-- A line `.desc` with its descriptor (R98). -/
theorem parseLine_rawDesc (d : Desc) (spaces : Nat) (comment : Option (List Char)) :
    parseLine (['.', 'd', 'e', 's', 'c'] ++ ' ' :: ('0' :: 'x' :: descChars d ++ lineEnd spaces comment))
      = .ok (some (.rawDesc d)) := by
  rw [parseLine, lexLine_word_blank rfl,
    lexLine_word_lineEnd (isWord_descChars d)]
  have hread : readRawDesc [.word ('0' :: 'x' :: descChars d)] = .ok (some (.rawDesc d)) := by
    simp [readRawDesc, hexNumber_descChars]
  exact hread

/-! ### The lines of a program -/

theorem assembleLines_cons_none {l : List Char} (h : parseLine l = .ok none) (ls : List (List Char)) :
    assembleLines (l :: ls) = assembleLines ls := by
  rw [assembleLines, h]

theorem assembleLines_cons_ok {l : List Char} {line : AsmLine} {out : Emitted} {ls : List (List Char)}
    {outs : List Emitted} (h : parseLine l = .ok (some line)) (ha : assemble line = .ok out)
    (hls : assembleLines ls = .ok outs) : assembleLines (l :: ls) = .ok (out :: outs) := by
  simp only [assembleLines, h, ha, hls]

theorem assembleLines_cons_rest_error {l : List Char} {line : AsmLine} {out : Emitted}
    {ls : List (List Char)} {r : AsmReject} (h : parseLine l = .ok (some line)) (ha : assemble line = .ok out)
    (hls : assembleLines ls = .error r) : assembleLines (l :: ls) = .error r := by
  simp only [assembleLines, h, ha, hls]

theorem assembleLines_cons_error {l : List Char} {r : AsmReject} (ls : List (List Char))
    (h : parseLine l = .error r ∨ ∃ line, parseLine l = .ok (some line) ∧ assemble line = .error r) :
    assembleLines (l :: ls) = .error r := by
  obtain h | ⟨line, h, ha⟩ := h
  · simp only [assembleLines, h]
  · simp only [assembleLines, h, ha]

/-- The line up to the first end of line, or the whole text, is the first line; the rest is what follows. -/
theorem splitLines_cons {l behind : List Char} {rest : Except AsmReject (List Emitted)} (hl : '\n' ∉ l)
    (h : (behind = [] ∧ rest = .ok []) ∨ (∃ text, behind = '\n' :: text ∧ rest = assembleText text)) :
    ∃ ls, splitLines (l ++ behind) = l :: ls ∧ rest = assembleLines ls := by
  obtain ⟨rfl, rfl⟩ | ⟨text, rfl, rfl⟩ := h
  · exact ⟨[], by rw [List.append_nil, splitLines_single l hl], rfl⟩
  · exact ⟨splitLines text, by rw [List.append_cons, splitLines_append l text hl], rfl⟩

/-- Settles O57: a line of one word by that word, and a program by its first line. -/
theorem programTextIsReadLineByLine : Obligations.ProgramTextIsReadLineByLine := by
  refine ⟨fun spaces comment => ⟨?_, ?_, ?_, ?_, ?_, fun d => ?_⟩, fun l behind rest hl hbehind => ?_⟩
  · exact parseLine_word rfl spaces comment
  · exact parseLine_word rfl spaces comment
  · exact parseLine_word rfl spaces comment
  · exact parseLine_word rfl spaces comment
  · rw [parseLine, lexLine_lineEnd]
    rfl
  · exact parseLine_rawDesc d spaces comment
  · obtain ⟨ls, hsplit, rfl⟩ := splitLines_cons hl hbehind
    rw [assembleText, hsplit]
    exact ⟨fun h => assembleLines_cons_none h ls,
      fun line out h ha =>
        ⟨fun outs => assembleLines_cons_ok h ha, fun r => assembleLines_cons_rest_error h ha⟩,
      fun r => assembleLines_cons_error ls⟩

/-! ### Byte-string expressions

A term is read token by token, and an expression term by term, whatever stands behind it. -/

/-- `0x` and the two digits of a byte. -/
def hexByteChars (b : Byte) : List Char :=
  ['0', 'x', hexChar (b.extractLsb' 4 4), hexChar (b.extractLsb' 0 4)]

/-- The tokens of a term. -/
def TextTerm.tokens : TextTerm → List AsmToken
  | .hex bytes => [.hexString bytes]
  | .ascii codes => [.asciiString codes]
  | .rep b n =>
    [.word ['r', 'e', 'p'], .leftParen, .word (hexByteChars b), .comma, .word (n.map decimalChar),
      .rightParen]
  | .repPow b e =>
    [.word ['r', 'e', 'p'], .leftParen, .word (hexByteChars b), .comma, .word ['2'], .caret,
      .word (e.map decimalChar), .rightParen]

/-- The expression that a term is read as. -/
def TextTerm.expr : TextTerm → ByteExpr
  | .hex bytes => .hex bytes
  | .ascii codes => .ascii codes
  | .rep b n => .rep b (decimalValue n)
  | .repPow b e => .rep b (2 ^ decimalValue e)

theorem TextTerm.eval_expr (u : TextTerm) : u.expr.eval = u.bytes := by cases u <;> rfl

theorem TextTerm.writable_ascii {codes : List (BitVec 7)} :
    (TextTerm.ascii codes).writable = true ↔ 34 ∉ codes := by simp [TextTerm.writable]

theorem TextTerm.writable_rep {b : Byte} {n : List (Fin 10)} :
    (TextTerm.rep b n).writable = true ↔ n ≠ [] := by simp [TextTerm.writable]

theorem TextTerm.writable_repPow {b : Byte} {e : List (Fin 10)} :
    (TextTerm.repPow b e).writable = true ↔ e ≠ [] := by simp [TextTerm.writable]

/-- The tokens of terms joined by `++`. -/
def exprTokens : TextTerm → List TextTerm → List AsmToken
  | t, [] => t.tokens
  | t, u :: us => t.tokens ++ .plusPlus :: exprTokens u us

/-- The expression that terms joined by `++` are read as. -/
def joinedExpr : TextTerm → List TextTerm → ByteExpr
  | t, [] => t.expr
  | t, u :: us => .append t.expr (joinedExpr u us)

theorem joinedExpr_eval (t : TextTerm) (ts : List TextTerm) :
    (joinedExpr t ts).eval = (t :: ts).flatMap TextTerm.bytes := by
  induction ts generalizing t with
  | nil => simp [joinedExpr, TextTerm.eval_expr]
  | cons u us ih => simp [joinedExpr, ByteExpr.eval, TextTerm.eval_expr, ih]

/-! #### From characters to tokens -/

theorem isWord_hexByteChars (b : Byte) : isWord (hexByteChars b) = true := by
  rw [isWord_iff, hexByteChars]
  simp only [List.forall_mem_cons, List.not_mem_nil, false_imp_iff, implies_true, and_true]
  exact ⟨List.cons_ne_nil _ _, by decide, by decide, hexChar_plain _, hexChar_plain _⟩

theorem isWord_decimalChars {n : List (Fin 10)} (h : n ≠ []) :
    isWord (n.map decimalChar) = true := by
  rw [isWord_iff, List.forall_mem_map]
  exact ⟨mt List.map_eq_nil_iff.1 h, fun d _ => decimalChar_plain d⟩

/-- The head that both forms of `rep` have in common. -/
theorem lexLine_repHead (b : Byte) (acc : List AsmToken) (cs : List Char) :
    lexLine (.plain []) acc (['r', 'e', 'p'] ++ '(' :: (hexByteChars b ++ ',' :: ' ' :: cs)) =
      lexLine (.plain []) (.comma :: .word (hexByteChars b) :: .leftParen :: .word ['r', 'e', 'p'] :: acc)
        cs := by
  rw [lexLine_word_punctuation rfl (t := .leftParen) rfl,
    lexLine_word_punctuation (isWord_hexByteChars b) (t := .comma) rfl, lexLine_blank]
  rfl

theorem lexLine_term {u : TextTerm} (hu : u.writable = true) (acc : List AsmToken) (cs : List Char) :
    lexLine (.plain []) acc (u.chars ++ cs) = lexLine (.plain []) (u.tokens.reverse ++ acc) cs := by
  cases u with
  | hex bytes =>
    have e : (TextTerm.hex bytes).chars ++ cs = 'x' :: '"' :: (hexChars bytes ++ '"' :: cs) := by
      simp [TextTerm.chars]
    rw [e]
    exact lexLine_hexChars bytes acc cs
  | ascii codes =>
    have e : (TextTerm.ascii codes).chars ++ cs = '"' :: (asciiChars codes ++ '"' :: cs) := by
      simp [TextTerm.chars]
    rw [e]
    exact lexLine_asciiChars codes (TextTerm.writable_ascii.1 hu) acc cs
  | rep b n =>
    have hn : isWord (n.map decimalChar) = true := isWord_decimalChars (TextTerm.writable_rep.1 hu)
    have e : (TextTerm.rep b n).chars ++ cs =
        ['r', 'e', 'p'] ++ '(' :: (hexByteChars b ++ ',' :: ' ' :: (n.map decimalChar ++ ')' :: cs)) := by
      simp [TextTerm.chars, hexByteChars]
    rw [e, lexLine_repHead, lexLine_word_punctuation hn (t := .rightParen) rfl]
    rfl
  | repPow b n =>
    have hn : isWord (n.map decimalChar) = true := isWord_decimalChars (TextTerm.writable_repPow.1 hu)
    have e : (TextTerm.repPow b n).chars ++ cs = ['r', 'e', 'p'] ++
        '(' :: (hexByteChars b ++ ',' :: ' ' :: (['2'] ++ '^' :: (n.map decimalChar ++ ')' :: cs))) := by
      simp [TextTerm.chars, hexByteChars]
    rw [e, lexLine_repHead, lexLine_word_punctuation rfl (t := .caret) rfl,
      lexLine_word_punctuation hn (t := .rightParen) rfl]
    rfl

theorem lexLine_plusPlus (acc : List AsmToken) (cs : List Char) :
    lexLine (.plain []) acc ([' ', '+', '+', ' '] ++ cs) = lexLine (.plain []) (.plusPlus :: acc) cs := rfl

theorem lexLine_exprChars (t : TextTerm) (ts : List TextTerm) (h : ∀ u ∈ t :: ts, u.writable = true)
    (acc : List AsmToken) (spaces : Nat) (comment : Option (List Char)) :
    lexLine (.plain []) acc (exprChars t ts ++ lineEnd spaces comment) =
      .ok (acc.reverse ++ exprTokens t ts) := by
  induction ts generalizing t acc with
  | nil =>
    rw [exprChars, lexLine_term (h t List.mem_cons_self), lexLine_lineEnd]
    simp [endWord, exprTokens]
  | cons u us ih =>
    obtain ⟨ht, hus⟩ := List.forall_mem_cons.1 h
    rw [exprChars, List.append_assoc, List.append_assoc, lexLine_term ht, lexLine_plusPlus, ih u hus]
    simp [exprTokens]

/-! #### From tokens to the expression -/

theorem foldl_byteNibbles : ∀ b : Byte,
    [b.extractLsb' 4 4, b.extractLsb' 0 4].foldl (fun v d => 16 * v + d.toNat) 0 = b.toNat := by decide

theorem hexNumber_hexByteChars (b : Byte) : hexNumber 2 (hexByteChars b) = some b.toNat := by
  rw [← foldl_byteNibbles]
  exact hexNumber_hexChar [b.extractLsb' 4 4, b.extractLsb' 0 4]

theorem readTerm_tokens {u : TextTerm} (hu : u.writable = true) (rest : List AsmToken) :
    readTerm (u.tokens ++ rest) = some (u.expr, rest) := by
  cases u with
  | hex bytes => rfl
  | ascii codes => rfl
  | rep b n =>
    have hn : n ≠ [] := TextTerm.writable_rep.1 hu
    simp [TextTerm.tokens, readTerm, hexNumber_hexByteChars, decimalNumber_decimalChar n hn, TextTerm.expr]
  | repPow b e =>
    have he : e ≠ [] := TextTerm.writable_repPow.1 hu
    simp [TextTerm.tokens, readTerm, hexNumber_hexByteChars, decimalNumber_decimalChar e he, TextTerm.expr]

theorem readExpr_exprTokens (t : TextTerm) (ts : List TextTerm) (h : ∀ u ∈ t :: ts, u.writable = true)
    {fuel : Nat} (hfuel : ts.length < fuel) : readExpr fuel (exprTokens t ts) = some (joinedExpr t ts) := by
  induction ts generalizing t fuel with
  | nil =>
    obtain _ | fuel := fuel
    · cases hfuel
    · have hread := readTerm_tokens (h t List.mem_cons_self) []
      rw [List.append_nil] at hread
      simp only [readExpr, exprTokens, hread, joinedExpr]
  | cons u us ih =>
    obtain ⟨ht, hus⟩ := List.forall_mem_cons.1 h
    obtain _ | fuel := fuel
    · cases hfuel
    · have hread := readTerm_tokens ht (.plusPlus :: exprTokens u us)
      simp only [readExpr, exprTokens, hread, ih u hus (Nat.lt_of_succ_lt_succ hfuel), joinedExpr]

theorem TextTerm.tokens_length_pos (u : TextTerm) : 0 < u.tokens.length := by
  cases u <;> exact Nat.succ_pos _

/-- An expression has at least as many tokens as terms. -/
theorem length_lt_exprTokens (t : TextTerm) (ts : List TextTerm) : ts.length < (exprTokens t ts).length := by
  induction ts generalizing t with
  | nil => exact t.tokens_length_pos
  | cons u us ih =>
    have := ih u
    simp only [exprTokens, List.length_append, List.length_cons]
    omega

/-! #### The line -/

theorem isWord_mnemonic : ∀ m ∈ operandLines, isWord m.1 = true := by decide

/-- A mnemonic that takes an operand, with something behind it, is read as its line with that operand. -/
theorem readLine_mnemonic {ts : List AsmToken} (hts : ts ≠ []) :
    ∀ m ∈ operandLines, readLine (.word m.1 :: ts) = withOperand m.2 ts := by
  have hfinish (line : Option ByteExpr → AsmLine) :
      withFinishOperand line ts = withOperand (fun e => line (some e)) ts := if_neg hts
  simp only [operandLines, List.forall_mem_cons, List.not_mem_nil, false_imp_iff, implies_true, and_true]
  exact ⟨rfl, hfinish _, rfl, rfl, hfinish _, rfl, rfl, rfl, rfl, rfl, rfl⟩

theorem parseLine_operand {m : List Char × (ByteExpr → AsmLine)} (hm : m ∈ operandLines) (t : TextTerm)
    (ts : List TextTerm) (h : ∀ u ∈ t :: ts, u.writable = true) (spaces : Nat)
    (comment : Option (List Char)) :
    parseLine (m.1 ++ ' ' :: (exprChars t ts ++ lineEnd spaces comment)) = .ok (some (m.2 (joinedExpr t ts)))
    := by
  have hlt := length_lt_exprTokens t ts
  have hne : exprTokens t ts ≠ [] := List.ne_nil_of_length_pos (Nat.zero_lt_of_lt hlt)
  have hlex : lexLine (.plain []) [] (m.1 ++ ' ' :: (exprChars t ts ++ lineEnd spaces comment)) =
      .ok (.word m.1 :: exprTokens t ts) := by
    rw [lexLine_word_blank (isWord_mnemonic m hm), lexLine_exprChars t ts h]
    rfl
  simp only [parseLine, hlex, readLine_mnemonic hne m hm, withOperand, readExpr_exprTokens t ts h hlt]

/-- Settles O12: the terms are read one after the other, with nothing or a comment behind the last. -/
theorem operandTextIsRead : Obligations.OperandTextIsRead := by
  intro m hm t ts comment h
  refine ⟨joinedExpr t ts, joinedExpr_eval t ts, ?_, ?_⟩
  · simpa [lineEnd] using parseLine_operand hm t ts h 0 none
  · simpa [lineEnd] using parseLine_operand hm t ts h 0 (some comment)

end Sys2Proof.Machine

/-! PROOFS. The statements of 40_sha256_compress.md: the message schedule and the compression of a block (R121
to R123), padding and digest (R127, R129, R130), the commands of the RAW slot and the one-shot hash (R125,
R126, R128, R141), and the updates of zero bytes (R126, R151). -/

namespace Sys2Proof.Machine

/-! ### The message schedule (R121) -/

/-- The word that `extendSchedule` puts in front of the words so far, newest first. -/
def nextWord (ws : List Word) : Word :=
  ssig1 (ws.getD 1 0) + ws.getD 6 0 + ssig0 (ws.getD 14 0) + ws.getD 15 0

theorem extendSchedule_add (m n : Nat) (ws : List Word) :
    extendSchedule (m + n) ws = extendSchedule n (extendSchedule m ws) := by
  induction m generalizing ws with
  | zero => rw [Nat.zero_add]; rfl
  | succ m ih => rw [Nat.add_right_comm]; exact ih _

theorem extendSchedule_succ (m : Nat) (ws : List Word) :
    extendSchedule (m + 1) ws = nextWord (extendSchedule m ws) :: extendSchedule m ws :=
  extendSchedule_add m 1 ws

theorem blockWords_length (blk : List Byte) : (blockWords blk).length = 16 := by simp [blockWords]

theorem schedule_length (blk : List Byte) : (schedule blk).length = 64 := by
  simp [schedule, extendSchedule_length, blockWords_length]

/-- The schedule read newest first from the word `W[15 + m]`, as it stood after `m` extensions. -/
theorem schedule_getD (blk : List Byte) {m j : Nat} (hm : m ≤ 48) (hj : j ≤ 15 + m) :
    (schedule blk).getD (15 + m - j) 0 = (extendSchedule m (blockWords blk).reverse).getD j 0 := by
  have hlen : (extendSchedule 48 (blockWords blk).reverse).length = 64 := by
    simp [extendSchedule_length, blockWords_length]
  rw [← extendSchedule_getD (48 - m) (extendSchedule m _), ← extendSchedule_add, Nat.add_sub_cancel' hm, schedule,
    List.getD_eq_getElem?_getD, List.getElem?_reverse (by omega), hlen, List.getD_eq_getElem?_getD]
  congr 3
  omega

theorem schedule_getD_block (blk : List Byte) {t : Nat} (ht : t < 16) :
    (schedule blk).getD t 0 = BE32 blk (4 * t) := by
  have h := schedule_getD blk (Nat.zero_le 48) (Nat.sub_le 15 t)
  rw [show 15 + 0 - (15 - t) = t by omega] at h
  rw [h, extendSchedule, List.getD_eq_getElem?_getD,
    List.getElem?_reverse (by rw [blockWords_length]; omega), blockWords_length,
    show 16 - 1 - (15 - t) = t by omega]
  simp [blockWords, ht]

/-- Settles O26: `W[16 + m]` is the word of extension `m + 1`, made of words of the first `m` extensions. -/
theorem scheduleFollowsTheRecurrence : Obligations.ScheduleFollowsTheRecurrence := by
  refine fun blk => ⟨schedule_length blk, fun t ht => schedule_getD_block blk ht, fun t h16 h64 => ?_⟩
  obtain ⟨m, rfl⟩ := Nat.exists_eq_add_of_le h16
  have hword : (schedule blk).getD (16 + m) 0 = nextWord (extendSchedule m (blockWords blk).reverse) := by
    have h := schedule_getD blk (show m + 1 ≤ 48 by omega) (Nat.zero_le _)
    rwa [extendSchedule_succ, List.getD_cons_zero, show 15 + (m + 1) - 0 = 16 + m by omega] at h
  have hback {j : Nat} (hj : j ≤ 15) : (schedule blk).getD (16 + m - (j + 1)) 0 =
      (extendSchedule m (blockWords blk).reverse).getD j 0 := by
    rw [← schedule_getD blk (show m ≤ 48 by omega) (show j ≤ 15 + m by omega)]
    congr 1; omega
  rw [hword, hback (j := 1) (by decide), hback (j := 6) (by decide), hback (j := 14) (by decide),
    hback (j := 15) (by decide), nextWord]

/-! ### Compression of a block (R122, R123) -/

theorem shaRounds_succ (W : List Word) (n : Nat) (v : WorkVars) :
    shaRounds W (n + 1) v = shaRound (K n) (W.getD n 0) (shaRounds W n v) := by
  simp [shaRounds, List.range_succ]

/-- Settles O27: the working variables after `t` rounds. -/
theorem compressRunsSixtyFourRounds : Obligations.CompressRunsSixtyFourRounds := fun H blk =>
  ⟨fun t => shaRounds (schedule blk) t (workOf H), rfl, fun t _ => shaRounds_succ (schedule blk) t _, rfl⟩

/-! ### Padding and digest (R127, R129, R130) -/

/-- Settles O28, part by part of the padding. -/
theorem paddingEndsWithTheBitLength : Obligations.PaddingEndsWithTheBitLength := by
  intro rem total hrem htotal P n
  have hlen : P.length = n := pad_length rem total hrem
  have hn : rem.length + 9 ≤ n := by
    dsimp only [n]; split <;> omega
  have hP : P = rem ++ (0x80 :: (zeros (n - rem.length - 9) ++ be64 (total * 8))) := by
    dsimp only [P]; simp [pad, n]
  refine ⟨hlen, ?_, ?_, fun j hj hjn => ?_, ?_⟩
  · rw [hP, List.take_left]
  · rw [hP, List.getElem?_append_right (Nat.le_refl _), Nat.sub_self, List.getElem?_cons_zero]
  · rw [hP, List.getElem?_append_right (by omega), show j - rem.length = (j - rem.length - 1) + 1 by omega,
      List.getElem?_cons_succ, List.getElem?_append_left (by rw [zeros_length]; omega), zeros,
      List.getElem?_replicate, if_pos (by omega)]
  · have hhead : (rem ++ 0x80 :: zeros (n - rem.length - 9)).length = n - 8 := by
      simp only [List.length_append, List.length_cons, zeros_length]; omega
    rw [hP, ← List.cons_append, ← List.append_assoc, ← hhead, List.drop_left,
      bigEndian_be64 (by omega), Nat.mul_comm]

/-- Only the last part is padded, but a front of whole blocks changes neither the number of zeros nor, with
its length counted, the bit length (R127). -/
theorem rawFinish_absorb {front : List Byte} (h : front.length % 64 = 0) (last : List Byte) :
    rawFinish (absorb IV front) front.length last = sha256 (front ++ last) := by
  have hmod : (front ++ last).length % 64 = last.length % 64 := by rw [List.length_append]; omega
  rw [rawFinish_eq, absorb_append _ _ _ h, sha256, paddedMessage, hmod, List.length_append]
  simp only [List.append_assoc]

theorem rawFinish_whole (msg : List Byte) : rawFinish IV 0 msg = sha256 msg :=
  rawFinish_absorb (front := []) rfl msg

/-- Settles O33, by absorbing the padded message at once. -/
theorem rawFinishIsTheDigestOfThePaddedMessage : Obligations.RawFinishIsTheDigestOfThePaddedMessage :=
  fun msg _ => (rawFinishLoop_eq IV 0 msg).trans (rawFinish_whole msg)

/-! ### The commands of the RAW slot and the one-shot hash (R125, R126, R128, R141) -/

section Tests

variable {len : BitVec 64} {s : State}

theorem shaUpdate_raises_slotInvalid (hv : s.raw.rvalid = false) :
    firstRaised (testsOf (.shaUpdate len) s) = some .slotInvalid := by simp [testsOf, hv]

theorem shaUpdate_raises_lenMisaligned (hv : s.raw.rvalid = true) (hmod : len.toNat % 64 ≠ 0) :
    firstRaised (testsOf (.shaUpdate len) s) = some .lenMisaligned := by
  simp [testsOf, hv, misaligned_eq_true.2 hmod]

theorem shaUpdate_raises_limitExceeded (hv : s.raw.rvalid = true) (hmod : len.toNat % 64 = 0)
    (hlim : 2 ^ 61 ≤ s.raw.rcnt.toNat + len.toNat) :
    firstRaised (testsOf (.shaUpdate len) s) = some .limitExceeded := by
  simp [testsOf, hv, misaligned_eq_false.2 hmod, reachesLimit_eq_true.2 hlim]

theorem shaFinish_raises_slotInvalid (hv : s.raw.rvalid = false) :
    firstRaised (testsOf (.shaFinish len) s) = some .slotInvalid := by simp [testsOf, hv]

theorem shaFinish_raises_limitExceeded (hv : s.raw.rvalid = true)
    (hlim : 2 ^ 61 ≤ s.raw.rcnt.toNat + len.toNat) :
    firstRaised (testsOf (.shaFinish len) s) = some .limitExceeded := by
  simp [testsOf, hv, reachesLimit_eq_true.2 hlim]

theorem shaHash_raises_limitExceeded (hlim : 2 ^ 61 ≤ len.toNat) :
    firstRaised (testsOf (.shaHash len) s) = some .limitExceeded := by
  simp [testsOf, reachesLimit_eq_true.2 hlim]

theorem shaHash_passes : firstRaised (testsOf (.shaHash len) s) = none ↔ len.toNat < 2 ^ 61 := by
  simp [firstRaised_eq_none, testsOf, reachesLimit_eq_false]

end Tests

/-- The effect of `SHA.UPDATE` with a payload of `LEN` bytes, written with R124's indexed loop. -/
theorem effectOf_shaUpdate {len : BitVec 64} {data : List Byte} (h : data.length = len.toNat) (s : State) :
    effectOf (.shaUpdate len) data s = { s with
      raw := { rh := compressLoop s.raw.rh data (len.toNat / 64),
               rcnt := s.raw.rcnt + len, rvalid := s.raw.rvalid } } := by
  simp [effectOf, absorb, compressLoop_eq, h, BitVec.ofNat_add]

theorem putDigest_toList {d : List Byte} (h : d.length = 32) (s : State) :
    (s.putDigest d).dig.digest.toList = d := bytesToVector_toList h

/-- Settles O29: no test stands before the effect. -/
theorem shaInitCreatesAnEmptyAccumulator : Obligations.ShaInitCreatesAnEmptyAccumulator :=
  ⟨rfl, fun _ hf hp => exec_of_pass (hp ▸ rfl) hf rfl⟩

/-- Settles O30, test by test. -/
theorem shaUpdateAbsorbsWholeBlocks : Obligations.ShaUpdateAbsorbsWholeBlocks := by
  refine fun len => ⟨descOp_encode _, descLen_encode _, fun s hf hp => ⟨fun hv => ?_, fun hv hmod => ?_,
    fun hv hmod hlim => ?_, fun hv hmod hlim => ?_⟩⟩
  · exact exec_of_raised hp hf (shaUpdate_raises_slotInvalid hv)
  · exact exec_of_raised hp hf (shaUpdate_raises_lenMisaligned hv hmod)
  · exact exec_of_raised hp hf (shaUpdate_raises_limitExceeded hv hmod hlim)
  · rw [exec_of_pass hp hf (shaUpdate_passes.2 ⟨hv, hmod, hlim⟩), effectOf_shaUpdate (hp ▸ s.payload.whole),
      hv]

/-- Settles O31, test by test. -/
theorem shaFinishPutsOutTheDigest : Obligations.ShaFinishPutsOutTheDigest := by
  refine fun len => ⟨descOp_encode _, descLen_encode _, fun s hf hp => ⟨fun hv => ?_, fun hv hlim => ?_,
    fun hv hlim => ?_⟩⟩
  · exact exec_of_raised hp hf (shaFinish_raises_slotInvalid hv)
  · exact exec_of_raised hp hf (shaFinish_raises_limitExceeded hv hlim)
  · refine ⟨_, exec_of_pass hp hf (shaFinish_passes.2 ⟨hv, hlim⟩), ?_, rfl, rfl, rfl⟩
    rw [rawFinishLoop_eq]
    exact putDigest_toList (rawFinish_length _ _ _) s

/-- Settles O32, test by test. -/
theorem shaHashIsTheDigestOfItsPayload : Obligations.ShaHashIsTheDigestOfItsPayload := by
  refine fun len => ⟨descOp_encode _, descLen_encode _, fun s hf hp => ⟨fun hlim => ?_, fun hlim => ?_⟩⟩
  · exact exec_of_raised hp hf (shaHash_raises_limitExceeded hlim)
  · refine ⟨_, exec_of_pass hp hf (shaHash_passes.2 hlim), ?_, rfl, rfl⟩
    rw [rawFinishLoop_eq]
    exact putDigest_toList (rawFinish_length _ _ _) s

/-! ### Updates of zero bytes (R126, R151) -/

theorem topUp_of_rest_nil {w : BufWork} (h : w.rest = []) : topUp w = w := by
  obtain ⟨b, rest, draws⟩ := w
  have hlt := b.blen.isLt
  cases h
  by_cases hm : b.blen.toNat = 0
  · simp [topUp, hm]
  · simp [topUp, hm, slice, fillBuffer, show b.blen.toNat ≠ 64 by omega]

theorem straightThrough_of_rest_nil {w : BufWork} (h : w.rest = []) : straightThrough w = w := by
  obtain ⟨b, rest, draws⟩ := w
  cases h
  simp [straightThrough, slice]

theorem keepRest_of_rest_nil {w : BufWork} (h : w.rest = []) : keepRest w = w := by
  obtain ⟨b, rest, draws⟩ := w
  cases h
  simp [keepRest, fillBuffer]

/-- Without payload bytes every step of R151 does nothing. -/
theorem bufferUpdate_nil (s : State) : bufferUpdate [] s = s := by
  simp only [bufferUpdate, topUp_of_rest_nil, straightThrough_of_rest_nil, keepRest_of_rest_nil]

/-- No flush is counted against the ceiling where nothing is added. -/
theorem flushedBytes_zero (b : BufSlot) : flushedBytes b.blen.toNat 0 = 0 := by
  have h := b.blen.isLt
  unfold flushedBytes; omega

/-- Settles O40, one slot after the other. -/
theorem emptyUpdateChangesNothing : Obligations.EmptyUpdateChangesNothing := by
  refine ⟨fun s hf hv hcnt hp => ?_, fun s hf hv hcnt hp => ?_⟩
  · have hpass := shaUpdate_passes (len := 0).2 ⟨hv, rfl, hcnt⟩
    rw [exec_of_pass (hp ▸ rfl) hf hpass, hp]
    simp [effectOf, Payload.empty]
  · have hpass := shabUpdate_passes (len := 0).2 ⟨hv, (flushedBytes_zero s.buf).symm ▸ hcnt⟩
    rw [exec_of_pass (hp ▸ rfl) hf hpass, hp]
    exact congrArg _ (bufferUpdate_nil s)

/-! ### A message fed through the RAW slot (R130) -/

/-- The slot is live and has absorbed the whole blocks `front`. -/
structure RawSlot.Holds (r : RawSlot) (front : List Byte) : Prop where
  rvalid : r.rvalid = true
  rh : r.rh = absorb IV front
  rcnt : r.rcnt.toNat = front.length
  whole : front.length % 64 = 0

/-- `step_of_pass` for a command of format L, whose descriptor decodes to it. -/
theorem step_withData {op : FormatL} {p : Payload} {s : State} {rest : List HostEvent}
    (hin : s.input = .command (.withData op p) :: rest) (hf : s.flt.faulted = false)
    (ht : firstRaised (testsOf (op.instr p.len) s) = none) :
    step s = .next (effectOf (op.instr p.len) p.bytes (s.accept p rest)).dropPayload :=
  step_of_pass hin (decode_encode _) hf ht

theorem step_shaUpdate {front : List Byte} {p : Payload} {s : State} {rest : List HostEvent}
    (hin : s.input = .command (.withData .shaUpdate p) :: rest) (hf : s.flt.faulted = false)
    (hs : s.raw.Holds front) (hmod : p.len.toNat % 64 = 0)
    (hlim : (front ++ p.bytes).length < 2 ^ 61) :
    ∃ t, step s = .next t ∧ t.input = rest ∧ t.flt.faulted = false ∧ t.raw.Holds (front ++ p.bytes) := by
  obtain ⟨hv, hh, hc, hw⟩ := hs
  have hp := p.whole
  rw [List.length_append] at hlim
  refine ⟨_, step_withData hin hf (shaUpdate_passes.2 ⟨hv, hmod, by omega⟩), rfl, hf, hv, ?_, ?_, ?_⟩
  · rw [← absorb_append _ _ _ hw, ← hh]; rfl
  · rw [List.length_append]
    simp only [FormatL.instr, effectOf, dropPayload_raw, accept_raw, BitVec.toNat_ofNat]
    omega
  · rw [List.length_append]; omega

/-- By induction on the chunks, with the bytes absorbed before them general. -/
theorem runEvents_shaUpdates (chunks : List Payload) {front : List Byte} {s : State}
    {rest : List HostEvent}
    (hin : s.input = chunks.map (fun c => .command (.withData .shaUpdate c)) ++ rest)
    (hf : s.flt.faulted = false) (hs : s.raw.Holds front) (hmod : ∀ c ∈ chunks, c.len.toNat % 64 = 0)
    (hlim : (front ++ chunks.flatMap (·.bytes)).length < 2 ^ 61) :
    ∃ t, runEvents chunks.length s = .next t ∧ t.input = rest ∧ t.flt.faulted = false ∧
      t.raw.Holds (front ++ chunks.flatMap (·.bytes)) := by
  induction chunks generalizing front s with
  | nil => exact ⟨s, rfl, hin, hf, by simpa using hs⟩
  | cons c chunks ih =>
    rw [List.flatMap_cons, ← List.append_assoc] at hlim ⊢
    obtain ⟨u, hu, hin', hf', hs'⟩ := step_shaUpdate hin hf hs (hmod c List.mem_cons_self)
      (by rw [List.length_append] at hlim; omega)
    obtain ⟨t, ht, h⟩ := ih hin' hf' hs' (fun c' hc => hmod c' (List.mem_cons_of_mem c hc)) hlim
    exact ⟨t, by rw [List.length_cons, runEvents_succ_of_next hu, ht], h⟩

theorem step_shaFinish {front : List Byte} {p : Payload} {s : State} {rest : List HostEvent}
    (hin : s.input = .command (.withData .shaFinish p) :: rest) (hf : s.flt.faulted = false)
    (hs : s.raw.Holds front) (hlim : (front ++ p.bytes).length < 2 ^ 61) :
    ∃ t, step s = .next t ∧ t.flt.faulted = false ∧ t.input = rest ∧ t.dig.dvalid = true ∧
      t.dig.digest.toList = sha256 (front ++ p.bytes) := by
  obtain ⟨hv, hh, hc, hw⟩ := hs
  have hp := p.whole
  rw [List.length_append] at hlim
  refine ⟨_, step_withData hin hf (shaFinish_passes.2 ⟨hv, by omega⟩), hf, rfl, rfl, ?_⟩
  rw [← rawFinish_absorb hw, ← hh, ← hc]
  exact putDigest_toList (rawFinish_length _ _ _) (s.accept p rest)

theorem step_shaInit {s : State} {rest : List HostEvent}
    (hin : s.input = .command (.ofInstr .shaInit .empty rfl) :: rest) (hf : s.flt.faulted = false) :
    ∃ t, step s = .next t ∧ t.input = rest ∧ t.flt.faulted = false ∧ t.raw.Holds [] :=
  ⟨_, step_of_pass hin (decode_encode .shaInit) hf rfl, rfl, hf, rfl, rfl, rfl, rfl⟩

/-- Settles O34: the slot holds what was fed so far, and the last chunk is finished with it. -/
theorem rawSequenceGivesTheMessageDigest : Obligations.RawSequenceGivesTheMessageDigest := by
  intro s chunks last hf hmod msg hlim
  obtain ⟨s₀, h₀, hin₀, hf₀, hs₀⟩ := step_shaInit (s := { s with input := _ }) rfl hf
  obtain ⟨s₁, h₁, hin₁, hf₁, hs₁⟩ := runEvents_shaUpdates chunks hin₀ hf₀ hs₀ hmod
    (by dsimp only [msg] at hlim; rw [List.length_append] at hlim; rw [List.nil_append]; omega)
  obtain ⟨t, ht, h⟩ := step_shaFinish hin₁ hf₁ hs₁ hlim
  refine ⟨t, ?_, h⟩
  rw [runEvents_succ_of_next h₀, runEvents_add h₁, runEvents_succ_of_next ht, runEvents_zero]

end Sys2Proof.Machine

/-! PROOFS. The statements of 41_sha256_buffer.md: the three commands of the BUF slot (R150 to R153), the
ceiling (R155), a message cut into chunks (R154), and the independence of the two slots (R156). -/

namespace Sys2Proof.Machine

/-! ### A command that completes -/

/-- Only a command that passes its tests answers a state that is not faulted. -/
theorem exec_completes {i : Instr} {s t : State} (h : exec i s = .next t) (hf : t.flt.faulted = false) :
    firstRaised (testsOf i s) = none ∧ t = effectOf i s.payload.bytes s := by
  obtain ⟨-, ⟨hf', rfl⟩ | ⟨-, cause, -, rfl⟩ | ⟨-, ht, rfl⟩⟩ := exec_cases h
  · exact absurd (hf.symm.trans hf') Bool.false_ne_true
  · nomatch hf
  · exact ⟨ht, rfl⟩

theorem exec_completes_iff {i : Instr} {s : State} (hw : s.payload.len = i.payloadLen)
    (hf : s.flt.faulted = false) :
    (∃ t, exec i s = .next t ∧ t.flt.faulted = false) ↔ firstRaised (testsOf i s) = none := by
  refine ⟨fun ⟨_, h, hft⟩ => (exec_completes h hft).1, fun ht => ⟨_, exec_of_pass hw hf ht, ?_⟩⟩
  obtain ⟨hflt, -, -⟩ := effectOf_rest i s.payload.bytes s
  rw [hflt, hf]

/-! ### The commands of the BUF slot (R150 to R153) -/

section Tests

variable {len : BitVec 64} {s : State}

theorem shabUpdate_raises_slotInvalid (hv : s.buf.bvalid = false) :
    firstRaised (testsOf (.shabUpdate len) s) = some .slotInvalid := by simp [testsOf, hv]

theorem shabUpdate_raises_limitExceeded (hv : s.buf.bvalid = true)
    (hlim : 2 ^ 61 ≤ s.buf.bcnt.toNat + flushedBytes s.buf.blen.toNat len.toNat) :
    firstRaised (testsOf (.shabUpdate len) s) = some .limitExceeded := by
  simp [testsOf, hv, reachesLimit_eq_true.2 hlim]

theorem shabFinish_raises_slotInvalid (hv : s.buf.bvalid = false) :
    firstRaised (testsOf (.shabFinish len) s) = some .slotInvalid := by simp [testsOf, hv]

theorem shabFinish_raises_limitExceeded (hv : s.buf.bvalid = true)
    (hlim : 2 ^ 61 ≤ s.buf.bcnt.toNat + s.buf.blen.toNat + len.toNat) :
    firstRaised (testsOf (.shabFinish len) s) = some .limitExceeded := by
  simp [testsOf, hv, reachesLimit_eq_true.2 hlim]

end Tests

/-- Whole blocks compressed and counted before `raw_finish` are a front of its data (R129). -/
theorem rawFinish_absorb_front (H : HashWords) (cnt : Nat) {front : List Byte}
    (h : front.length % 64 = 0) (last : List Byte) :
    rawFinish (absorb H front) (cnt + front.length) last = rawFinish H cnt (front ++ last) := by
  have hmod : (front ++ last).length % 64 = last.length % 64 := by rw [List.length_append]; omega
  rw [rawFinish_eq, rawFinish_eq, absorb_append _ _ _ h, hmod, List.length_append, Nat.add_assoc]
  simp only [List.append_assoc]

/-- Where the buffer update of `SHAB.FINISH` flushes does not show in the digest (R152). -/
theorem rawFinish_bufferUpdate (data : List Byte) (s : State)
    (hlim : s.buf.bcnt.toNat + s.buf.blen.toNat + data.length < 2 ^ 61) :
    rawFinish (bufferUpdate data s).buf.bh (bufferUpdate data s).buf.bcnt.toNat
        (bufferUpdate data s).buf.pending =
      rawFinish s.buf.bh s.buf.bcnt.toNat (s.buf.pending ++ data) := by
  obtain ⟨flushed, hmod, hstream, hbh, hbcnt, -⟩ := bufferUpdate_flushed data s
  have hlen := congrArg List.length hstream
  simp only [List.length_append, pending_length] at hlen
  rw [hbcnt, BitVec.toNat_ofNat, Nat.mod_eq_of_lt (by omega), hbh, rawFinish_absorb_front _ _ hmod, hstream]

/-- The digest that `SHAB.FINISH` puts out. -/
theorem bufferFinish_digest {data : List Byte} {s : State}
    (hlim : s.buf.bcnt.toNat + s.buf.blen.toNat + data.length < 2 ^ 61) :
    (bufferFinish data s).dig.digest.toList =
      rawFinish s.buf.bh s.buf.bcnt.toNat (s.buf.pending ++ data) := by
  rw [← rawFinish_bufferUpdate data s hlim]
  exact bytesToVector_toList (rawFinish_length _ _ _)

/-- Settles O35: no test stands before the effect. -/
theorem shabInitCreatesAnEmptyAccumulator : Obligations.ShabInitCreatesAnEmptyAccumulator :=
  ⟨rfl, fun _ hf hp => exec_of_pass (hp ▸ rfl) hf rfl⟩

/-- Settles O36, test by test; what is left is the closed form of the buffer update. -/
theorem shabUpdateAbsorbsTheStream : Obligations.ShabUpdateAbsorbsTheStream := by
  refine fun len => ⟨descOp_encode _, descLen_encode _, fun s hf hp => ⟨fun hv => ?_, fun hv hlim => ?_,
    fun hv hlim => ?_⟩⟩
  · exact exec_of_raised hp hf (shabUpdate_raises_slotInvalid hv)
  · exact exec_of_raised hp hf (shabUpdate_raises_limitExceeded hv hlim)
  · have hlen : s.payload.bytes.length = len.toNat := hp ▸ s.payload.whole
    obtain ⟨hbh, hbcnt, hblen, hpend, hbv⟩ := bufferUpdate_closed s.payload.bytes s (hlen ▸ hlim)
    rw [hlen] at hbcnt hblen hpend
    refine ⟨_, exec_of_pass hp hf (shabUpdate_passes.2 ⟨hv, hlim⟩), hbh.trans ?_, hbcnt, ?_, hpend,
      hbv.trans hv, rfl⟩
    · rw [compressLoop_eq, Nat.mul_div_cancel_left _ (by decide), absorb, List.length_append,
        pending_length, hlen]
      rfl
    · exact hblen.trans (by omega)

/-- Settles O37, test by test. -/
theorem shabFinishPutsOutTheDigest : Obligations.ShabFinishPutsOutTheDigest := by
  refine fun len => ⟨descOp_encode _, descLen_encode _, fun s hf hp => ⟨fun hv => ?_, fun hv hlim => ?_,
    fun hv hlim => ?_⟩⟩
  · exact exec_of_raised hp hf (shabFinish_raises_slotInvalid hv)
  · exact exec_of_raised hp hf (shabFinish_raises_limitExceeded hv hlim)
  · have hlen : s.payload.bytes.length = len.toNat := hp ▸ s.payload.whole
    refine ⟨_, exec_of_pass hp hf (shabFinish_passes.2 ⟨hv, hlim⟩), ?_, rfl, rfl, rfl⟩
    rw [rawFinishLoop_eq]
    exact bufferFinish_digest (hlen ▸ hlim)

/-! ### The ceiling (R155) -/

/-- A `SHAB.UPDATE` that completes loses no byte, and what it leaves can be finished. -/
theorem shabUpdate_keeps_every_byte {s t : State} {len : BitVec 64} (hp : s.payload.len = len)
    (hmod : s.buf.bcnt.toNat % 64 = 0) (h : exec (.shabUpdate len) s = .next t)
    (hf : t.flt.faulted = false) :
    t.buf.bvalid = true ∧
    t.buf.bcnt.toNat + t.buf.blen.toNat = s.buf.bcnt.toNat + s.buf.blen.toNat + len.toNat ∧
    t.buf.bcnt.toNat ≤ 2 ^ 61 - 64 ∧ t.buf.blen.toNat ≤ 63 := by
  obtain ⟨ht, rfl⟩ := exec_completes h hf
  obtain ⟨hv, hlim⟩ := shabUpdate_passes.1 ht
  have hlen : s.payload.bytes.length = len.toNat := hp ▸ s.payload.whole
  obtain ⟨-, hbcnt, hblen, -, hbv⟩ := bufferUpdate_closed s.payload.bytes s (hlen ▸ hlim)
  rw [hlen] at hbcnt hblen
  unfold flushedBytes at hbcnt hlim
  refine ⟨hbv.trans hv, ?_⟩
  rw [effectOf, hbcnt, hblen]
  omega

/-- Settles O41: each command completes exactly if it passes its tests. -/
theorem bufferedCeilingCountsFlushedBytes : Obligations.BufferedCeilingCountsFlushedBytes := by
  refine fun s len hf hp => ⟨fun hv => ⟨?_, ?_, fun hmod t h hft => ?_⟩, ?_⟩
  · rw [exec_completes_iff hp hf, shabUpdate_passes, and_iff_right hv, flushedBytes]
  · rw [exec_completes_iff hp hf, shabFinish_passes, and_iff_right hv]
  · obtain ⟨hbv, htotal, hbcnt, hblen⟩ := shabUpdate_keeps_every_byte hp hmod h hft
    refine ⟨htotal, hbcnt, hblen, ?_⟩
    exact (exec_completes_iff (i := .shabFinish 0) (s := { t with payload := .empty }) rfl hft).2
      (shabFinish_passes.2 ⟨hbv, by simp only [BitVec.ofNat_eq_ofNat, BitVec.toNat_ofNat]; omega⟩)
  · rw [exec_completes_iff hp hf, shaHash_passes]
    omega

/-! ### A message fed through the BUF slot (R154) -/

/-- The slot is live, and the blocks `flushed` that it has absorbed and its pending bytes are `msg`. -/
structure BufSlot.Holds (b : BufSlot) (flushed msg : List Byte) : Prop where
  bvalid : b.bvalid = true
  bh : b.bh = absorb IV flushed
  bcnt : b.bcnt.toNat = flushed.length
  whole : flushed.length % 64 = 0
  stream : flushed ++ b.pending = msg

theorem BufSlot.Holds.length {b : BufSlot} {flushed msg : List Byte} (h : b.Holds flushed msg) :
    b.bcnt.toNat + b.blen.toNat = msg.length := by
  rw [h.bcnt, ← pending_length, ← List.length_append, h.stream]

/-- The buffer update appends its bytes to the message held. -/
theorem BufSlot.Holds.bufferUpdate {s : State} {flushed msg data : List Byte} (h : s.buf.Holds flushed msg)
    (hlim : (msg ++ data).length < 2 ^ 61) :
    ∃ flushed', (bufferUpdate data s).buf.Holds flushed' (msg ++ data) := by
  obtain ⟨f, hf, hstream, hbh, hbcnt, hbv⟩ := bufferUpdate_flushed data s
  have hmsg : (flushed ++ f) ++ (Machine.bufferUpdate data s).buf.pending = msg ++ data := by
    rw [List.append_assoc, hstream, ← List.append_assoc, h.stream]
  have hlen := congrArg List.length hmsg
  have hwhole := h.whole
  simp only [List.length_append] at hlen hlim
  refine ⟨flushed ++ f, hbv.trans h.bvalid, ?_, ?_, ?_, hmsg⟩
  · rw [hbh, h.bh, absorb_append _ _ _ hwhole]
  · rw [hbcnt, h.bcnt, BitVec.toNat_ofNat, List.length_append, Nat.mod_eq_of_lt (by omega)]
  · rw [List.length_append]; omega

theorem step_shabInit {s : State} {rest : List HostEvent}
    (hin : s.input = .command (.ofInstr .shabInit .empty rfl) :: rest) (hf : s.flt.faulted = false) :
    ∃ t, step s = .next t ∧ t.input = rest ∧ t.flt.faulted = false ∧ t.buf.Holds [] [] :=
  ⟨_, step_of_pass hin (decode_encode .shabInit) hf rfl, rfl, hf, rfl, rfl, rfl, rfl, rfl⟩

theorem step_shabUpdate {flushed msg : List Byte} {p : Payload} {s : State} {rest : List HostEvent}
    (hin : s.input = .command (.withData .shabUpdate p) :: rest) (hf : s.flt.faulted = false)
    (hs : s.buf.Holds flushed msg) (hlim : (msg ++ p.bytes).length < 2 ^ 61) :
    ∃ t flushed', step s = .next t ∧ t.input = rest ∧ t.flt.faulted = false ∧
      t.buf.Holds flushed' (msg ++ p.bytes) := by
  obtain ⟨flushed', hs'⟩ := hs.bufferUpdate (s := s.accept p rest) hlim
  have hlen := hs.length
  have hflush := flushedBytes_le s.buf.blen.toNat p.len.toNat
  rw [List.length_append, p.whole] at hlim
  exact ⟨_, flushed', step_withData hin hf (shabUpdate_passes.2 ⟨hs.bvalid, by omega⟩), rfl, hf, hs'⟩

/-- By induction on the chunks, with the message held before them general. -/
theorem runEvents_shabUpdates (chunks : List Payload) {flushed msg : List Byte} {s : State}
    {rest : List HostEvent}
    (hin : s.input = chunks.map (fun c => .command (.withData .shabUpdate c)) ++ rest)
    (hf : s.flt.faulted = false) (hs : s.buf.Holds flushed msg)
    (hlim : (msg ++ chunks.flatMap (·.bytes)).length < 2 ^ 61) :
    ∃ t flushed', runEvents chunks.length s = .next t ∧ t.input = rest ∧ t.flt.faulted = false ∧
      t.buf.Holds flushed' (msg ++ chunks.flatMap (·.bytes)) := by
  induction chunks generalizing flushed msg s with
  | nil => exact ⟨s, flushed, rfl, hin, hf, by simpa using hs⟩
  | cons c chunks ih =>
    rw [List.flatMap_cons, ← List.append_assoc] at hlim ⊢
    obtain ⟨u, f, hu, hin', hf', hs'⟩ := step_shabUpdate hin hf hs
      (by rw [List.length_append] at hlim; omega)
    obtain ⟨t, f', ht, h⟩ := ih hin' hf' hs' hlim
    exact ⟨t, f', by rw [List.length_cons, runEvents_succ_of_next hu, ht], h⟩

theorem step_shabFinish {flushed msg : List Byte} {p : Payload} {s : State} {rest : List HostEvent}
    (hin : s.input = .command (.withData .shabFinish p) :: rest) (hf : s.flt.faulted = false)
    (hs : s.buf.Holds flushed msg) (hlim : (msg ++ p.bytes).length < 2 ^ 61) :
    ∃ t, step s = .next t ∧ t.flt.faulted = false ∧ t.dig.dvalid = true ∧
      t.dig.digest.toList = sha256 (msg ++ p.bytes) := by
  have hlen := hs.length
  have hp := p.whole
  rw [List.length_append] at hlim
  refine ⟨_, step_withData hin hf (shabFinish_passes.2 ⟨hs.bvalid, by omega⟩), hf, rfl, ?_⟩
  refine (bufferFinish_digest (s := s.accept p rest) (by rw [accept_buf]; omega)).trans ?_
  rw [accept_buf, hs.bh, hs.bcnt, rawFinish_absorb hs.whole, ← List.append_assoc, hs.stream]

theorem step_shaHash {p : Payload} {s : State} {rest : List HostEvent}
    (hin : s.input = .command (.withData .shaHash p) :: rest) (hf : s.flt.faulted = false)
    (hlim : p.len.toNat < 2 ^ 61) :
    ∃ t, step s = .next t ∧ t.flt.faulted = false ∧ t.dig.dvalid = true ∧
      t.dig.digest.toList = sha256 p.bytes := by
  refine ⟨_, step_withData hin hf (shaHash_passes.2 hlim), hf, rfl, ?_⟩
  rw [← rawFinish_whole]
  exact putDigest_toList (rawFinish_length _ _ _) (s.accept p rest)

/-- Settles O38: both runs put out the digest of the message. -/
theorem incrementalEquivalence : Obligations.IncrementalEquivalence := by
  intro s chunks last msg hf hmsg hlim
  rw [← msg.whole, hmsg] at hlim
  obtain ⟨s₀, h₀, hin₀, hf₀, hs₀⟩ := step_shabInit (s := { s with input := _ }) rfl hf
  obtain ⟨s₁, f, h₁, hin₁, hf₁, hs₁⟩ := runEvents_shabUpdates chunks hin₀ hf₀ hs₀
    (by rw [List.length_append] at hlim; rw [List.nil_append]; omega)
  obtain ⟨t, ht, hft, hvt, hdt⟩ := step_shabFinish hin₁ hf₁ hs₁ hlim
  obtain ⟨u, hu, hfu, hvu, hdu⟩ := step_shaHash (s := { s with input := _ }) rfl hf
    (by rw [← msg.whole, hmsg]; exact hlim)
  refine ⟨t, u, ?_, runEvents_succ_of_next hu, hft, hfu, hvt, hvu, ?_⟩
  · rw [runEvents_succ_of_next h₀, runEvents_add h₁, runEvents_succ_of_next ht, runEvents_zero]
  · rw [← Vector.toList_inj, hdt, hdu, hmsg]; rfl

/-! ### The two slots never interact (R156) -/

theorem commandEvent_input {c : Command} {rest : List HostEvent} {s t : State}
    (h : commandEvent c rest s = .next t) : t.input = rest := by
  obtain ⟨-, rfl⟩ | ⟨-, cause, rfl⟩ | ⟨-, i, -, -, rfl⟩ := commandEvent_next h
  · rfl
  · rfl
  · obtain ⟨-, hin, -⟩ := effectOf_rest i c.payload.bytes (s.accept c.payload rest)
    exact hin

/-- Only a command that passes its tests leaves the core not faulted. -/
theorem commandEvent_completes {c : Command} {rest : List HostEvent} {s t : State}
    (h : commandEvent c rest s = .next t) (hf : t.flt.faulted = false) :
    s.flt.faulted = false ∧ ∃ i, decode c.desc = .ok i ∧ firstRaised (testsOf i s) = none ∧
      t = (effectOf i c.payload.bytes (s.accept c.payload rest)).dropPayload := by
  obtain ⟨hfs, rfl⟩ | ⟨-, cause, rfl⟩ | h := commandEvent_next h
  · exact absurd (hf.symm.trans hfs) Bool.false_ne_true
  · nomatch hf
  · exact h

/-- Without a reset, a run that ends without fault began without fault (R225). -/
theorem unfaulted_of_runEvents {n : Nat} {s t : State} (hin : .reset ∉ s.input)
    (h : runEvents n s = .next t) (hf : t.flt.faulted = false) : s.flt.faulted = false := by
  induction n generalizing s with
  | zero => cases h; exact hf
  | succ n ih =>
    obtain ⟨u, hu, hr⟩ := runEvents_succ_cases h
    obtain ⟨-, rfl⟩ | ⟨rest, hs, -⟩ | ⟨c, rest, hs, hc⟩ := step_cases hu
    · exact ih hin hr
    · exact absurd (hs ▸ List.mem_cons_self) hin
    · have hin' : .reset ∉ u.input := by
        rw [commandEvent_input hc]
        exact fun hm => hin (hs ▸ List.mem_cons_of_mem _ hm)
      exact (commandEvent_completes hc (ih hin' hr)).1

theorem isCommandThat_of_decode {c : Command} {i : Instr} (hd : decode c.desc = .ok i) (p : Instr → Bool) :
    HostEvent.isCommandThat p (.command c) = p i := by simp only [HostEvent.isCommandThat, hd]

theorem effectOf_keeps_dig {i : Instr} (h : Instr.writesDigest i = false) (data : List Byte) (s : State) :
    (effectOf i data s).dig = s.dig := by
  by_contra hne
  obtain ⟨len, rfl | rfl | rfl⟩ := effectOf_writes_dig hne <;> nomatch h

/-- The commands with the property `p` are those of the element `slot`: they read and write no other but
the output register, and no other command writes `slot`. -/
structure OwnSlot (p : Instr → Bool) {α : Type} (slot : State → α) : Prop where
  accept : ∀ s q rest, slot (s.accept q rest) = slot s
  dropPayload : ∀ s, slot s.dropPayload = slot s
  tests : ∀ {i s s'}, p i = true → slot s = slot s' →
    firstRaised (testsOf i s) = firstRaised (testsOf i s')
  effect : ∀ {i data s s'}, p i = true → slot s = slot s' → data.length = i.payloadLen.toNat →
    firstRaised (testsOf i s) = none →
    slot (effectOf i data s) = slot (effectOf i data s') ∧
      (s.dig.live = s'.dig.live → (effectOf i data s).dig.live = (effectOf i data s').dig.live)
  frame : ∀ {i} data s, p i = false → slot (effectOf i data s) = slot s

/-- A slot in place of one with the same accumulator; the counter of free values is nothing that a state
says. -/
theorem State.agrees_with_buf {s s' : State} (h : s.buf.live = s'.buf.live) :
    ({ s' with buf := s.buf, draws := s.draws } : State).Agrees s' := ⟨rfl, h, rfl, rfl, rfl, rfl, rfl, rfl⟩

theorem State.agrees_with_raw {s s' : State} (h : s.raw.live = s'.raw.live) :
    ({ s' with raw := s.raw } : State).Agrees s' := ⟨h, rfl, rfl, rfl, rfl, rfl, rfl, rfl⟩

/-- In `s` and in `s'` with the slot of `s` the BUF commands do the same, and the second state agrees with
`s'`. -/
theorem ownSlot_buf : OwnSlot Instr.namesBuf (·.buf.live) where
  accept _ _ _ := rfl
  dropPayload _ := rfl
  tests {i s s'} hp h := by
    have heq := (State.agrees_with_buf h).firstRaised_eq i
    cases i with
    | shabInit | shabUpdate len | shabFinish len => exact heq
    | _ => nomatch hp
  effect {i data s s'} hp h hlen ht := by
    have heff := (State.agrees_with_buf h).effectOf (i := i) hlen
    cases i with
    | shabInit | shabUpdate len => exact ⟨(heff ht).buf, id⟩
    | shabFinish len => exact ⟨(heff ht).buf, fun _ => (heff ht).dig⟩
    | _ => nomatch hp
  frame {i} data s hp := by
    by_contra hne
    obtain ⟨len, rfl | rfl | rfl⟩ := effectOf_writes_buf (ne_of_apply_ne BufSlot.live hne) <;> nomatch hp

/-- As for the BUF commands, with the RAW slot of `s`. -/
theorem ownSlot_raw : OwnSlot Instr.namesRaw (·.raw.live) where
  accept _ _ _ := rfl
  dropPayload _ := rfl
  tests {i s s'} hp h := by
    have heq := (State.agrees_with_raw h).firstRaised_eq i
    cases i with
    | shaInit | shaUpdate len | shaFinish len => exact heq
    | _ => nomatch hp
  effect {i data s s'} hp h hlen ht := by
    have heff := (State.agrees_with_raw h).effectOf (i := i) hlen
    cases i with
    | shaInit | shaUpdate len => exact ⟨(heff ht).raw, id⟩
    | shaFinish len => exact ⟨(heff ht).raw, fun _ => (heff ht).dig⟩
    | _ => nomatch hp
  frame {i} data s hp := by
    by_contra hne
    obtain ⟨len, rfl | rfl | rfl⟩ := effectOf_writes_raw (ne_of_apply_ne RawSlot.live hne) <;> nomatch hp

/-- Every event in the list that writes `DIGEST` is a command with the property. -/
def WritersAre (p : Instr → Bool) (es : List HostEvent) : Prop :=
  ∀ e ∈ es, e.isCommandThat Instr.writesDigest = true → e.isCommandThat p = true

section Filter

variable {p : Instr → Bool} {α : Type} {slot : State → α} (hown : OwnSlot p slot)

include hown

/-- An own command that one run has completed is completed by the other run as well. -/
theorem OwnSlot.step_own {c : Command} {i : Instr} {s s' : State} {rest rest' : List HostEvent}
    (hin' : s'.input = .command c :: rest') (hf' : s'.flt.faulted = false) (hslot : slot s = slot s')
    (hd : decode c.desc = .ok i) (hp : p i = true) (ht : firstRaised (testsOf i s) = none) :
    let t := (effectOf i c.payload.bytes (s.accept c.payload rest)).dropPayload
    ∃ t', step s' = .next t' ∧ t'.input = rest' ∧ t'.flt.faulted = false ∧ slot t = slot t' ∧
      (s.dig.live = s'.dig.live → t.dig.live = t'.dig.live) := by
  obtain ⟨hslot', hdig'⟩ := hown.effect (s := s.accept c.payload rest) (s' := s'.accept c.payload rest') hp
    (by rw [hown.accept, hown.accept, hslot]) (Command.length_of_decode hd)
    ((testsOf_accept i s c.payload rest).symm ▸ ht)
  obtain ⟨hflt, hin, -⟩ := effectOf_rest i c.payload.bytes (s'.accept c.payload rest')
  refine ⟨_, step_of_pass hin' hd hf' (hown.tests hp hslot ▸ ht), hin, hflt ▸ hf', ?_, hdig'⟩
  rw [hown.dropPayload, hown.dropPayload, hslot']

/-- Leaving out the other commands, by induction on the events, with the two states general: an own command
is taken by both runs, another one by the first run only, and it leaves the slot alone. -/
theorem OwnSlot.runEvents_filter {es : List HostEvent} {s s' t : State} (hin : s.input = es)
    (hin' : s'.input = es.filter (HostEvent.isCommandThat p)) (hreset : .reset ∉ es)
    (h : runEvents es.length s = .next t) (hft : t.flt.faulted = false) (hf' : s'.flt.faulted = false)
    (hslot : slot s = slot s') :
    ∃ u, runEvents (es.filter (HostEvent.isCommandThat p)).length s' = .next u ∧
      u.flt.faulted = false ∧ slot u = slot t ∧
      (WritersAre p es → s.dig.live = s'.dig.live → u.dig.live = t.dig.live) := by
  induction es generalizing s s' with
  | nil => cases h; exact ⟨s', rfl, hf', hslot.symm, fun _ hdig => hdig.symm⟩
  | cons e es ih =>
    rw [List.mem_cons, not_or] at hreset
    obtain ⟨hne, hreset⟩ := hreset
    obtain ⟨v, hv, hr⟩ := runEvents_succ_cases h
    cases e with
    | reset => exact absurd rfl hne
    | command c =>
      rw [step_command hin] at hv
      have hvin := commandEvent_input hv
      obtain ⟨-, i, hd, ht, rfl⟩ :=
        commandEvent_completes hv (unfaulted_of_runEvents (hvin ▸ hreset) hr hft)
      have hnamed := isCommandThat_of_decode hd p
      cases hp : p i with
      | true =>
        rw [List.filter_cons_of_pos (hnamed.trans hp)] at hin' ⊢
        obtain ⟨v', hv', hvin', hvf', hvslot, hvdig⟩ := hown.step_own hin' hf' hslot hd hp ht
        obtain ⟨u, hu, hfu, hsu, hdu⟩ := ih hvin hvin' hreset hr hvf' hvslot
        refine ⟨u, ?_, hfu, hsu, fun hw hdig => hdu (List.forall_mem_cons.1 hw).2 (hvdig hdig)⟩
        rw [List.length_cons, runEvents_succ_of_next hv', hu]
      | false =>
        rw [List.filter_cons_of_neg (by rw [hnamed, hp]; decide)] at hin' ⊢
        obtain ⟨u, hu, hfu, hsu, hdu⟩ := ih hvin hin' hreset hr hf'
          (by rw [hown.dropPayload, hown.frame _ _ hp, hown.accept, hslot])
        refine ⟨u, hu, hfu, hsu, fun hw hdig => ?_⟩
        obtain ⟨hwc, hw⟩ := List.forall_mem_cons.1 hw
        rw [hnamed, hp, isCommandThat_of_decode hd] at hwc
        refine hdu hw ?_
        rw [dropPayload_dig, effectOf_keeps_dig (Bool.eq_false_of_not_eq_true (fun hi => nomatch hwc hi)),
          accept_dig, hdig]

end Filter

theorem namesBuf_ne_namesRaw : Instr.namesBuf ≠ Instr.namesRaw :=
  fun h => absurd (congrFun h .shaInit) (by decide)

/-- Settles O25, for the slot that the kept commands own. -/
theorem slotsAreIndependent : Obligations.SlotsAreIndependent := by
  intro p hp s t es _ hreset h hft own
  have hreset' : .reset ∉ es := fun hm => hreset _ hm rfl
  have hf : s.flt.faulted = false := unfaulted_of_runEvents (s := { s with input := es }) hreset' h hft
  obtain rfl | rfl := hp
  · obtain ⟨u, hu, hfu, hslot, hdig⟩ := ownSlot_buf.runEvents_filter (s := { s with input := es })
      (s' := { s with input := own }) rfl rfl hreset' h hft hf rfl
    exact ⟨u, hu, hfu, fun _ => hslot, fun he => absurd he namesBuf_ne_namesRaw, fun hw => hdig hw rfl⟩
  · obtain ⟨u, hu, hfu, hslot, hdig⟩ := ownSlot_raw.runEvents_filter (s := { s with input := es })
      (s' := { s with input := own }) rfl rfl hreset' h hft hf rfl
    exact ⟨u, hu, hfu, fun he => absurd he.symm namesBuf_ne_namesRaw, fun _ => hslot, fun hw => hdig hw rfl⟩

end Sys2Proof.Machine

/-! PROOFS. The statements of 42_twofish_keysched.md: the S-vector (R166), the permutation cascade (R168), the
tables and subkeys (R172, R173), the three key commands (R174 to R177), and determinism (R178). -/

namespace Sys2Proof.Machine

/-! ### The key commands (R174 to R177) -/

/-- `i` takes the course of R174 with variant size `V`. -/
structure DerivesContext (i : Instr) (V : Nat) : Prop where
  tests : ∀ s, testsOf i s = [(wrongKeySize i.payloadLen.toNat V, .keySize)]
  effect : effectOf i = deriveContext

theorem tfKey128_derivesContext (len : BitVec 64) : DerivesContext (.tfKey128 len) 16 :=
  ⟨fun _ => rfl, rfl⟩

theorem tfKey192_derivesContext (len : BitVec 64) : DerivesContext (.tfKey192 len) 24 :=
  ⟨fun _ => rfl, rfl⟩

theorem tfKey256_derivesContext (len : BitVec 64) : DerivesContext (.tfKey256 len) 32 :=
  ⟨fun _ => rfl, rfl⟩

section DerivesContext

variable {i : Instr} {V : Nat} {s : State}

theorem DerivesContext.passes (h : DerivesContext i V) (hV : i.payloadLen.toNat = V) :
    firstRaised (testsOf i s) = none := by
  rw [h.tests, wrongKeySize_eq_false.2 hV]; rfl

theorem DerivesContext.raises_keySize (h : DerivesContext i V) (hV : i.payloadLen.toNat ≠ V) :
    firstRaised (testsOf i s) = some .keySize := by
  rw [h.tests, wrongKeySize_eq_true.2 hV]; rfl

theorem DerivesContext.exec_replaces_ctx (h : DerivesContext i V)
    (hf : s.flt.faulted = false) (hp : s.payload.len = i.payloadLen) :
    (i.payloadLen.toNat ≠ V → exec i s = .next (s.enterFault .keySize (encode i))) ∧
    (i.payloadLen.toNat = V → exec i s = .next (deriveContext s.payload.bytes s)) := by
  refine ⟨fun hV => exec_of_raised hp hf (h.raises_keySize hV), fun hV => ?_⟩
  rw [exec_of_pass hp hf (h.passes hV), h.effect]

end DerivesContext

/-- Settles O42: the three commands share the course of R174. -/
theorem keyCommandsReplaceTheContext : Obligations.KeyCommandsReplaceTheContext := by
  intro mk op V hmk len
  obtain ⟨rfl, rfl, rfl⟩ | ⟨rfl, rfl, rfl⟩ | ⟨rfl, rfl, rfl⟩ := hmk
  · exact ⟨descOp_encode _, descLen_encode _, fun _ => (tfKey128_derivesContext len).exec_replaces_ctx⟩
  · exact ⟨descOp_encode _, descLen_encode _, fun _ => (tfKey192_derivesContext len).exec_replaces_ctx⟩
  · exact ⟨descOp_encode _, descLen_encode _, fun _ => (tfKey256_derivesContext len).exec_replaces_ctx⟩

/-! ### The subkeys and the tables (R172, R173) -/

theorem subkey_even (key : List Byte) {i : Nat} (hi : i < 20) :
    subkey (subkeys key) (2 * i) = pairA (keyMe key) i + pairB (keyMo key) i := by
  rw [subkey_subkeys key _ (by omega), subkeyOf, if_pos (by omega), show 2 * i / 2 = i by omega]

theorem subkey_odd (key : List Byte) {i : Nat} (hi : i < 20) :
    subkey (subkeys key) (2 * i + 1) = rotl (pairA (keyMe key) i + 2 * pairB (keyMo key) i) 9 := by
  rw [subkey_subkeys key _ (by omega), subkeyOf, if_neg (by omega), show (2 * i + 1) / 2 = i by omega]

/-- Settles O43: the pair of subkeys, with the even and the odd key words read from the key. -/
theorem subkeyPairsAreHadamardSums : Obligations.SubkeyPairsAreHadamardSums := by
  intro key i hi _
  rw [subkey_even key hi, subkey_odd key hi, pairA, pairB, keyMe_eq, keyMo_eq,
    rho_eq_wordOfLanes _ (by omega), rho_eq_wordOfLanes _ (by omega)]
  exact ⟨rfl, rfl⟩

/-- An entry of table `j`, at a byte (R172). -/
theorem tableEntry_eq_mdscol (key : List Byte) (j : Fin 4) (x : Byte) :
    tableEntry (sBoxTables key) j x = mdscol j ((cascade ⟨x, x, x, x⟩ (listLS key)).get j) := by
  rw [tableEntry_sBoxTables, sBoxEntry, BitVec.ofNat_toNat, BitVec.setWidth_eq]

/-- The four look-ups are the h-function, since no lane of the cascade looks at another. -/
theorem gFun_sBoxTables (key : List Byte) (X : Word) : gFun (sBoxTables key) X = hFun X (listLS key) := by
  rw [hFun, cascade_lanes, gFun]
  simp only [tableEntry_eq_mdscol]
  rfl

/-- Settles O44: the S-vector in reverse order is `listLS`. -/
theorem tableLookupIsTheHFunction : Obligations.TableLookupIsTheHFunction := by
  intro key _ k LS
  have hLS : LS = listLS key := (listLS_eq key).symm
  rw [hLS]
  exact ⟨fun x => ⟨tableEntry_eq_mdscol key 0 x, tableEntry_eq_mdscol key 1 x, tableEntry_eq_mdscol key 2 x,
    tableEntry_eq_mdscol key 3 x⟩, gFun_sBoxTables key⟩

/-! ### Determinism and key hygiene (R178) -/

/-- The step of presenting a key of the variant's size. -/
theorem step_key {op : FormatL} {key : Payload} {V : Nat} (h : DerivesContext (op.instr key.len) V)
    (hlen : (op.instr key.len).payloadLen.toNat = V) {s : State} (hf : s.flt.faulted = false) :
    step { s with input := [.command (.withData op key)] } = .next { s with
      ctx := { sb := sBoxTables key.bytes, sk := subkeys key.bytes, cvalid := true }
      input := []
      payload := .empty } := by
  rw [step_withData (s := { s with input := [.command (.withData op key)] }) rfl hf (h.passes hlen), h.effect]
  rfl

/-- The key command of the variant that `key` belongs to. -/
theorem derivesContext_of_keySize {op : FormatL} {key : Payload}
    (h : (op = .tfKey128 ∧ key.len = 16) ∨ (op = .tfKey192 ∧ key.len = 24) ∨ (op = .tfKey256 ∧ key.len = 32)) :
    ∃ V, DerivesContext (op.instr key.len) V ∧ (op.instr key.len).payloadLen.toNat = V := by
  obtain ⟨rfl, hlen⟩ | ⟨rfl, hlen⟩ | ⟨rfl, hlen⟩ := h
  · exact ⟨16, tfKey128_derivesContext _, congrArg BitVec.toNat hlen⟩
  · exact ⟨24, tfKey192_derivesContext _, congrArg BitVec.toNat hlen⟩
  · exact ⟨32, tfKey256_derivesContext _, congrArg BitVec.toNat hlen⟩

/-- Settles O45: the context after the step is written out from the key alone; the constants are computed. -/
theorem contextIsAPureFunctionOfTheKey : Obligations.ContextIsAPureFunctionOfTheKey := by
  refine ⟨fun s s' op key hf hf' hop => ?_, ?_, ?_, ?_⟩
  · obtain ⟨V, hkey, hlen⟩ := derivesContext_of_keySize hop
    exact ⟨_, _, step_key hkey hlen hf, step_key hkey hlen hf', rfl, rfl⟩
  all_goals
    rw [subkey_subkeys _ _ (by decide)]
    decide

/-! ### The permutation cascade (R168) -/

/-- `f` permutes the bytes of each lane, and looks at no other lane. -/
structure Lanes.PermutesEach (f : Lanes → Lanes) : Prop where
  y0 : ∀ y z, (f y).y0 = (f z).y0 ↔ y.y0 = z.y0
  y1 : ∀ y z, (f y).y1 = (f z).y1 ↔ y.y1 = z.y1
  y2 : ∀ y z, (f y).y2 = (f z).y2 ↔ y.y2 = z.y2
  y3 : ∀ y z, (f y).y3 = (f z).y3 ↔ y.y3 = z.y3

theorem Lanes.permutesEach_id : Lanes.PermutesEach id :=
  ⟨fun _ _ => .rfl, fun _ _ => .rfl, fun _ _ => .rfl, fun _ _ => .rfl⟩

theorem Lanes.PermutesEach.comp {f g : Lanes → Lanes} (hf : Lanes.PermutesEach f) (hg : Lanes.PermutesEach g) :
    Lanes.PermutesEach (f ∘ g) :=
  ⟨fun y z => (hf.y0 _ _).trans (hg.y0 y z), fun y z => (hf.y1 _ _).trans (hg.y1 y z),
    fun y z => (hf.y2 _ _).trans (hg.y2 y z), fun y z => (hf.y3 _ _).trans (hg.y3 y z)⟩

/-- A step of R168 without its XOR: a byte permutation for each lane. -/
def Lanes.substitute (p0 p1 p2 p3 : Byte → Byte) (y : Lanes) : Lanes := ⟨p0 y.y0, p1 y.y1, p2 y.y2, p3 y.y3⟩

/-- A stage of R168: permute, then XOR with the bytes of `l`. -/
def Lanes.stage (p0 p1 p2 p3 : Byte → Byte) (l : Word) (y : Lanes) : Lanes :=
  (y.substitute p0 p1 p2 p3).xorWord l

section Stage

variable {p0 p1 p2 p3 : Byte → Byte}

theorem Lanes.permutesEach_substitute (h0 : p0.Injective) (h1 : p1.Injective) (h2 : p2.Injective)
    (h3 : p3.Injective) : Lanes.PermutesEach (Lanes.substitute p0 p1 p2 p3) :=
  ⟨fun _ _ => h0.eq_iff, fun _ _ => h1.eq_iff, fun _ _ => h2.eq_iff, fun _ _ => h3.eq_iff⟩

theorem Lanes.permutesEach_xorWord (l : Word) : Lanes.PermutesEach (·.xorWord l) :=
  ⟨fun _ _ => BitVec.xor_left_inj _, fun _ _ => BitVec.xor_left_inj _, fun _ _ => BitVec.xor_left_inj _,
    fun _ _ => BitVec.xor_left_inj _⟩

theorem Lanes.permutesEach_stage (h0 : p0.Injective) (h1 : p1.Injective) (h2 : p2.Injective)
    (h3 : p3.Injective) (l : Word) : Lanes.PermutesEach (Lanes.stage p0 p1 p2 p3 l) :=
  (Lanes.permutesEach_xorWord l).comp (Lanes.permutesEach_substitute h0 h1 h2 h3)

end Stage

/-- A stage that is run or left out. -/
theorem Lanes.PermutesEach.ite {f : Lanes → Lanes} (hf : Lanes.PermutesEach f) (c : Prop) [Decidable c] :
    Lanes.PermutesEach (if c then f else id) := by
  split
  · exact hf
  · exact permutesEach_id

/-- The cascade is the chain of the table in R168. -/
theorem cascade_eq_comp (L : List Word) : (cascade · L) =
    Lanes.substitute Q1 Q0 Q1 Q0 ∘ Lanes.stage Q0 Q0 Q1 Q1 (L.getD 0 0) ∘ Lanes.stage Q0 Q1 Q0 Q1 (L.getD 1 0) ∘
      (if 3 ≤ L.length then Lanes.stage Q1 Q1 Q0 Q0 (L.getD 2 0) else id) ∘
      (if L.length = 4 then Lanes.stage Q1 Q0 Q0 Q1 (L.getD 3 0) else id) := by
  funext y
  by_cases h4 : L.length = 4
  · simp only [cascade, Function.comp, h4, Nat.reduceLeDiff, if_true]; rfl
  · by_cases h3 : 3 ≤ L.length
    · simp only [cascade, Function.comp, h4, h3, if_true, if_false]; rfl
    · simp only [cascade, Function.comp, h4, h3, if_false]; rfl

theorem cascade_permutesEach (L : List Word) : Lanes.PermutesEach (cascade · L) := by
  have q0 := Q0_injective
  have q1 := Q1_injective
  rw [cascade_eq_comp]
  exact (Lanes.permutesEach_substitute q1 q0 q1 q0).comp <| (Lanes.permutesEach_stage q0 q0 q1 q1 _).comp <|
    (Lanes.permutesEach_stage q0 q1 q0 q1 _).comp <| ((Lanes.permutesEach_stage q1 q1 q0 q0 _).ite _).comp <|
    (Lanes.permutesEach_stage q1 q0 q0 q1 _).ite _

/-- Settles O55: every step of the cascade permutes each lane. -/
theorem cascadeLanesArePermutations : Obligations.CascadeLanesArePermutations := by
  intro L _ y z
  have h := cascade_permutesEach L
  exact ⟨h.y0 y z, h.y1 y z, h.y2 y z, h.y3 y z⟩

/-! ### The S-vector (R166)

A byte of the S-vector is a sum of products in the field, and the sums are linear since the products are. -/

/-- The XOR of `f 0` to `f (n - 1)`. -/
def xorSum (f : Nat → Byte) (n : Nat) : Byte := (List.range n).foldl (fun acc c => acc ^^^ f c) 0

theorem rsByte_eq_xorSum (key : List Byte) (i row : Nat) :
    rsByte key i row = xorSum (fun c => gfmul (RS row c) (byteAt key (8 * i + c)) polyRS) 8 := rfl

theorem xorSum_succ (f : Nat → Byte) (n : Nat) : xorSum f (n + 1) = xorSum f n ^^^ f n :=
  foldl_range_succ _ n 0

theorem xorSum_eight (f : Nat → Byte) :
    xorSum f 8 = f 0 ^^^ f 1 ^^^ f 2 ^^^ f 3 ^^^ f 4 ^^^ f 5 ^^^ f 6 ^^^ f 7 :=
  congrArg (· ^^^ f 1 ^^^ f 2 ^^^ f 3 ^^^ f 4 ^^^ f 5 ^^^ f 6 ^^^ f 7) (BitVec.zero_xor (x := f 0))

theorem xorSum_xor (f g : Nat → Byte) (n : Nat) :
    xorSum (fun c => f c ^^^ g c) n = xorSum f n ^^^ xorSum g n := by
  induction n with
  | zero => simp [xorSum]
  | succ n ih => rw [xorSum_succ, xorSum_succ, xorSum_succ, ih, xor_xor_xor_comm]

/-- A sum with at most one term that is not 0. -/
theorem xorSum_single (f : Nat → Byte) (b j n : Nat) :
    xorSum (fun c => if b + c = j then f c else 0) n = if b ≤ j ∧ j < b + n then f (j - b) else 0 := by
  induction n with
  | zero => rw [if_neg (by omega)]; rfl
  | succ n ih =>
    rw [xorSum_succ, ih]
    by_cases hlast : b + n = j
    · simp [← hlast]
    · have hrange : (b ≤ j ∧ j < b + (n + 1)) ↔ (b ≤ j ∧ j < b + n) := by omega
      simp [hlast, hrange]

theorem lane_sWord (key : List Byte) (i : Nat) {row : Nat} (h : row < 4) :
    lane row (sWord key i) = rsByte key i row := by
  match row, h with
  | 0, _ => exact lane0_wordOfLanes ..
  | 1, _ => exact lane1_wordOfLanes ..
  | 2, _ => exact lane2_wordOfLanes ..
  | 3, _ => exact lane3_wordOfLanes ..

/-! #### The XOR of two keys -/

theorem gfmul_xor_right (a b b' : Byte) (P : BitVec 9) :
    gfmul a (b ^^^ b') P = gfmul a b P ^^^ gfmul a b' P := by
  simp only [gfmul_eq_gfSum, gfSum_xor_right]

theorem wordOfLanes_xor (a b c d a' b' c' d' : Byte) :
    wordOfLanes (a ^^^ a') (b ^^^ b') (c ^^^ c') (d ^^^ d') = wordOfLanes a b c d ^^^ wordOfLanes a' b' c' d' := by
  simp only [wordOfLanes, ← BitVec.xor_append]

theorem byteAt_zipWith_xor {s s' : List Byte} (h : s'.length = s.length) (n : Nat) :
    byteAt (List.zipWith (· ^^^ ·) s s') n = byteAt s n ^^^ byteAt s' n := by
  by_cases hn : n < s.length
  · simp [byteAt, List.getD_eq_getElem?_getD, hn, h]
  · simp [byteAt, List.getD_eq_getElem?_getD, hn, h]

theorem rsByte_zipWith_xor {key key' : List Byte} (h : key'.length = key.length) (i row : Nat) :
    rsByte (List.zipWith (· ^^^ ·) key key') i row = rsByte key i row ^^^ rsByte key' i row := by
  simp only [rsByte_eq_xorSum, byteAt_zipWith_xor h, gfmul_xor_right, xorSum_xor]

theorem sWord_zipWith_xor {key key' : List Byte} (h : key'.length = key.length) (i : Nat) :
    sWord (List.zipWith (· ^^^ ·) key key') i = sWord key i ^^^ sWord key' i := by
  simp only [sWord, rsByte_zipWith_xor h, wordOfLanes_xor]

/-! #### Keys of one byte 0x01 -/

theorem gfSum_zero_right (P : BitVec 9) (n : Nat) (a : Byte) : gfSum P n a 0 = 0 := by
  induction n generalizing a with
  | zero => rfl
  | succ n ih => exact (BitVec.zero_xor).trans (ih _)

theorem gfmul_one_right (a : Byte) (P : BitVec 9) : gfmul a 1 P = a := by
  rw [gfmul_eq_gfSum]
  exact (congrArg (a ^^^ ·) (gfSum_zero_right P 7 _)).trans BitVec.xor_zero

theorem gfmul_ite_one (a : Byte) (P : BitVec 9) (c : Prop) [Decidable c] :
    gfmul a (if c then 1 else 0) P = if c then a else 0 := by
  split
  · exact gfmul_one_right a P
  · exact gfmul_zero_right a P

/-- The key that is 0x01 in byte `j` and 0 in the `n` others. -/
def unitKey (j n : Nat) : List Byte := List.replicate j 0x00 ++ [0x01] ++ List.replicate n 0x00

theorem unitKey_length (j n : Nat) : (unitKey j n).length = j + (n + 1) := by simp [unitKey]

theorem byteAt_replicate_zero (n m : Nat) : byteAt (List.replicate n 0x00) m = 0 := by
  simp only [byteAt, List.getD_eq_getElem?_getD, List.getElem?_replicate]
  split
  · rfl
  · rfl

theorem byteAt_unitKey (j n m : Nat) : byteAt (unitKey j n) m = if m = j then 1 else 0 := by
  rw [unitKey, List.append_assoc]
  by_cases hlt : m < j
  · simp [byteAt, List.getD_eq_getElem?_getD, List.getElem?_append, hlt, hlt.ne]
  · obtain ⟨k, rfl⟩ := Nat.exists_eq_add_of_le (Nat.le_of_not_lt hlt)
    have hback := byteAt_append_length_add (List.replicate j 0x00) ([0x01] ++ List.replicate n 0x00) k
    rw [List.length_replicate] at hback
    rw [hback]
    cases k with
    | zero => rw [if_pos (Nat.add_zero j)]; rfl
    | succ k => rw [if_neg (by omega)]; exact byteAt_replicate_zero n k

/-- Column `c` of `RS` as a word, row 0 the least significant byte (R63). -/
def rsColumn (c : Nat) : Word := wordOfLanes (RS 0 c) (RS 1 c) (RS 2 c) (RS 3 c)

theorem rsByte_unitKey (j n i row : Nat) :
    rsByte (unitKey j n) i row = if i = j / 8 then RS row (j % 8) else 0 := by
  have hchunk : (8 * i ≤ j ∧ j < 8 * i + 8) ↔ i = j / 8 := by omega
  simp only [rsByte_eq_xorSum, byteAt_unitKey, gfmul_ite_one, xorSum_single (RS row), hchunk]
  split
  case isTrue h => rw [show j - 8 * i = j % 8 by omega]
  case isFalse => rfl

theorem sWord_unitKey (j n i : Nat) : sWord (unitKey j n) i = if i = j / 8 then rsColumn (j % 8) else 0 := by
  simp only [sWord, rsByte_unitKey]
  split
  · rfl
  · rfl

/-- The columns of `RS` as numbers (R63). -/
theorem rsColumn_eq : ∀ c < 8, rsColumn c = [0xA402A401, 0x55A156A4, 0x87FC8255, 0x5AC1F387, 0x58471E5A,
    0xDBAEC658, 0x9E3D68DB, 0x0319E59E].getD c 0 := by decide

/-- Settles O56: a byte of the S-vector is a sum of 8 products, so each clause is one about such sums. -/
theorem sVectorIsLinearInTheKey : Obligations.SVectorIsLinearInTheKey := by
  refine ⟨fun key _ => ⟨sVector_length key, fun i hi row hrow => ?_⟩, ?_, fun key key' _ hlen i hi => ?_⟩
  · rw [sVector_getD key i hi, lane_sWord key i hrow, rsByte_eq_xorSum, xorSum_eight]
    rfl
  · intro columns n _ j hj
    change sVector (unitKey j (n - 1 - j)) = _
    rw [sVector, unitKey_length, show j + (n - 1 - j + 1) = n by omega]
    refine List.map_congr_left fun i _ => ?_
    rw [sWord_unitKey, rsColumn_eq _ (Nat.mod_lt j (by decide))]
  · have hzip : (List.zipWith (· ^^^ ·) key key').length = key.length := by simp [hlen]
    rw [sVector_getD _ i (hzip ▸ hi), sVector_getD _ i hi, sVector_getD _ i (hlen ▸ hi), sWord_zipWith_xor hlen]

end Sys2Proof.Machine

/-! PROOFS. The statements of 43_twofish_block.md: the two block commands (R198, R200 with R196, R197, R199),
their round trip (R201), the macro-round form (R202), and the independence of the blocks (R203). -/

namespace Sys2Proof.Machine

/-! ### The block commands (R198, R200) -/

theorem putBlock_toList {b : List Byte} (h : b.length = 16) (s : State) :
    (s.putBlock b).blk.blkout.toList = b := bytesToVector_toList h

/-- What a block command computes from `SB`, `SK` and a block. -/
abbrev DataPath := Vector (Vector Word 256) 4 → Vector Word 40 → List Byte → List Byte

/-- `i` takes the course that R198 and R200 share, with the data path `f`. -/
structure TransformsBlock (i : Instr) (f : DataPath) : Prop where
  payloadLen : i.payloadLen = 16
  tests : ∀ s, testsOf i s = [(!s.ctx.cvalid, .noContext)]
  effect : ∀ block s, effectOf i block s = s.putBlock (f s.ctx.sb s.ctx.sk block)
  length : ∀ sb sk block, (f sb sk block).length = 16

theorem tfEnc_transformsBlock : TransformsBlock .tfEnc encryptBlock :=
  ⟨rfl, fun _ => rfl, fun _ _ => rfl, encryptBlock_length⟩

theorem tfDec_transformsBlock : TransformsBlock .tfDec decryptBlock :=
  ⟨rfl, fun _ => rfl, fun _ _ => rfl, decryptBlock_length⟩

section TransformsBlock

variable {i : Instr} {f : DataPath} {s : State}

theorem TransformsBlock.passes (h : TransformsBlock i f) (hv : s.ctx.cvalid = true) :
    firstRaised (testsOf i s) = none := by
  rw [h.tests, hv]; rfl

theorem TransformsBlock.raises_noContext (h : TransformsBlock i f) (hv : s.ctx.cvalid = false) :
    firstRaised (testsOf i s) = some .noContext := by
  rw [h.tests, hv]; rfl

theorem TransformsBlock.exec_of_noContext (h : TransformsBlock i f) (hf : s.flt.faulted = false)
    (hp : s.payload.len = 16) (hv : s.ctx.cvalid = false) :
    exec i s = .next (s.enterFault .noContext (encode i)) :=
  exec_of_raised (hp.trans h.payloadLen.symm) hf (h.raises_noContext hv)

theorem TransformsBlock.exec_of_context (h : TransformsBlock i f) (hf : s.flt.faulted = false)
    (hp : s.payload.len = 16) (hv : s.ctx.cvalid = true) :
    exec i s = .next (s.putBlock (f s.ctx.sb s.ctx.sk s.payload.bytes)) := by
  rw [exec_of_pass (hp.trans h.payloadLen.symm) hf (h.passes hv), h.effect]

theorem TransformsBlock.step_of_context (h : TransformsBlock i f) {c : Command} {rest : List HostEvent}
    (hin : s.input = .command c :: rest) (hd : decode c.desc = .ok i) (hf : s.flt.faulted = false)
    (hv : s.ctx.cvalid = true) :
    step s = .next ((s.accept c.payload rest).putBlock (f s.ctx.sb s.ctx.sk c.payload.bytes)).dropPayload := by
  rw [step_of_pass hin hd hf (h.passes hv), h.effect]; rfl

theorem TransformsBlock.step_completes (h : TransformsBlock i f) {c : Command} {rest : List HostEvent}
    (hin : s.input = .command c :: rest) (hd : decode c.desc = .ok i) (hf : s.flt.faulted = false)
    (hv : s.ctx.cvalid = true) :
    ∃ t, step s = .next t ∧ t.flt.faulted = false ∧ t.ctx = s.ctx ∧ t.blk.ovalid = true ∧
      t.blk.blkout.toList = f s.ctx.sb s.ctx.sk c.payload.bytes :=
  ⟨_, h.step_of_context hin hd hf hv, hf, rfl, rfl, putBlock_toList (h.length ..) (s.accept c.payload rest)⟩

theorem TransformsBlock.payload_length (h : TransformsBlock i f) {c : Command} (hd : decode c.desc = .ok i) :
    c.payload.bytes.length = 16 := by
  rw [Command.length_of_decode hd, h.payloadLen]; rfl

end TransformsBlock

/-- The words `R(r)` of R197, from `R(0)` on. -/
def encWords (sb : Vector (Vector Word 256) 4) (sk : Vector Word 40) (R : Quad) (r : Nat) : Quad :=
  (List.range r).foldl (encRound sb sk) R

theorem encWords_succ (sb : Vector (Vector Word 256) 4) (sk : Vector Word 40) (R : Quad) (r : Nat) :
    encWords sb sk R (r + 1) = encRound sb sk (encWords sb sk R r) r := foldl_range_succ _ r R

/-- The words of R199, on the way down, are those of R197 on the way up. -/
theorem encWords_eq_decRound (sb : Vector (Vector Word 256) 4) (sk : Vector Word 40) (R : Quad) (r : Nat) :
    encWords sb sk R r = decRound sb sk (encWords sb sk R (r + 1)) r := by
  rw [encWords_succ, decRound_encRound]

/-- Settles O46: the words are those that the 16 encryption rounds go through. -/
theorem tfEncEncryptsTheBlock : Obligations.TfEncEncryptsTheBlock := by
  refine ⟨by decide, fun s hf hp => ⟨tfEnc_transformsBlock.exec_of_noContext hf hp, fun hv => ?_⟩⟩
  refine ⟨_, encWords s.ctx.sb s.ctx.sk (whiten s.ctx.sk 0 (loadBlock s.payload.bytes)),
    tfEnc_transformsBlock.exec_of_context hf hp hv, rfl, rfl, rfl, fun r _ => encWords_succ .., ?_⟩
  exact putBlock_toList (encryptBlock_length ..) s

/-- Settles O47: the words are those that encrypting the result goes through, since the encryption rounds undo
the decryption rounds. -/
theorem tfDecDecryptsTheBlock : Obligations.TfDecDecryptsTheBlock := by
  refine ⟨by decide, fun s hf hp => ⟨tfDec_transformsBlock.exec_of_noContext hf hp, fun hv => ?_⟩⟩
  refine ⟨_, encWords s.ctx.sb s.ctx.sk ((List.range 16).reverse.foldl (decRound s.ctx.sb s.ctx.sk)
      (swapHalves (whiten s.ctx.sk 4 (loadBlock s.payload.bytes)))),
    tfDec_transformsBlock.exec_of_context hf hp hv, rfl, rfl, encRounds_decRounds .., fun r _ =>
    encWords_eq_decRound .., ?_⟩
  exact putBlock_toList (decryptBlock_length ..) s

/-! ### The round trip (R201) -/

/-- A block put out, as the payload of the next block command. -/
def blockPayload (block : Vector Byte 16) : Payload := ⟨16, block.toList, block.length_toList⟩

/-- The command `i` on a block. -/
def TransformsBlock.command {i : Instr} {f : DataPath} (h : TransformsBlock i f) (block : Vector Byte 16) : Command :=
  .ofInstr i (blockPayload block) (wellFormed_iff.2 h.payloadLen.symm)

/-- A block command and one whose data path undoes it, with one context. -/
theorem TransformsBlock.roundTrip {i j : Instr} {f g : DataPath} (hi : TransformsBlock i f)
    (hj : TransformsBlock j g) (hgf : ∀ sb sk b, b.length = 16 → g sb sk (f sb sk b) = b)
    {s : State} {c : Command} (hf : s.flt.faulted = false) (hv : s.ctx.cvalid = true)
    (hd : decode c.desc = .ok i) :
    ∃ t, step { s with input := [.command c] } = .next t ∧ t.flt.faulted = false ∧ t.blk.ovalid = true ∧
      ∃ c' : Command, decode c'.desc = .ok j ∧ c'.payload.bytes = t.blk.blkout.toList ∧
        ∃ u, step { t with input := [.command c'] } = .next u ∧
          u.flt.faulted = false ∧ u.blk.ovalid = true ∧ u.blk.blkout.toList = c.payload.bytes := by
  obtain ⟨t, ht, htf, hctx, hto, hout⟩ := hi.step_completes (s := { s with input := _ }) rfl hd hf hv
  obtain ⟨u, hu, huf, -, huo, hback⟩ := hj.step_completes (c := hj.command t.blk.blkout)
    (s := { t with input := _ }) rfl (decode_encode j) htf (hctx ▸ hv)
  refine ⟨t, ht, htf, hto, hj.command t.blk.blkout, decode_encode j, rfl, u, hu, huf, huo, hback.trans ?_⟩
  change g t.ctx.sb t.ctx.sk t.blk.blkout.toList = _
  rw [hout, hctx, hgf _ _ _ (hi.payload_length hd)]

/-- Settles O48: each of the two data paths undoes the other. -/
theorem cipherRoundTrip : Obligations.CipherRoundTrip := by
  intro first second hpair s c hf hv hd
  obtain ⟨rfl, rfl⟩ | ⟨rfl, rfl⟩ := hpair
  · exact tfEnc_transformsBlock.roundTrip tfDec_transformsBlock decryptBlock_encryptBlock hf hv hd
  · exact tfDec_transformsBlock.roundTrip tfEnc_transformsBlock encryptBlock_decryptBlock hf hv hd

/-! ### The macro-round form (R202) -/

theorem macroRound_eq_encRound (sb : Vector (Vector Word 256) 4) (sk : Vector Word 40) (R : Quad) (m : Nat) :
    macroRound sb sk R m = encRound sb sk (encRound sb sk R (2 * m)) (2 * m + 1) := rfl

theorem macroRoundInverse_eq_decRound (sb : Vector (Vector Word 256) 4) (sk : Vector Word 40) (R : Quad)
    (m : Nat) :
    macroRoundInverse sb sk R m = decRound sb sk (decRound sb sk R (2 * m + 1)) (2 * m) := rfl

theorem foldl_range_reverse_succ {α : Type} (f : α → Nat → α) (n : Nat) (R : α) :
    (List.range (n + 1)).reverse.foldl f R = (List.range n).reverse.foldl f (f R n) := by
  simp [List.range_succ]

theorem foldl_macroRound (sb : Vector (Vector Word 256) 4) (sk : Vector Word 40) (n : Nat) (R : Quad) :
    (List.range n).foldl (macroRound sb sk) R = (List.range (2 * n)).foldl (encRound sb sk) R := by
  induction n with
  | zero => rfl
  | succ n ih =>
    rw [foldl_range_succ, ih, macroRound_eq_encRound, ← foldl_range_succ (encRound sb sk),
      ← foldl_range_succ (encRound sb sk)]; rfl

theorem foldl_macroRoundInverse (sb : Vector (Vector Word 256) 4) (sk : Vector Word 40) (n : Nat) (R : Quad) :
    (List.range n).reverse.foldl (macroRoundInverse sb sk) R =
      (List.range (2 * n)).reverse.foldl (decRound sb sk) R := by
  induction n generalizing R with
  | zero => rfl
  | succ n ih =>
    rw [foldl_range_reverse_succ, ih, macroRoundInverse_eq_decRound,
      ← foldl_range_reverse_succ (decRound sb sk), ← foldl_range_reverse_succ (decRound sb sk)]; rfl

theorem encryptMacro_eq_encryptBlock (sb : Vector (Vector Word 256) 4) (sk : Vector Word 40)
    (block : List Byte) : encryptMacro sb sk block = encryptBlock sb sk block := by
  simp only [encryptMacro, encryptBlock, foldl_macroRound]
  rfl

theorem decryptMacro_eq_decryptBlock (sb : Vector (Vector Word 256) 4) (sk : Vector Word 40)
    (block : List Byte) : decryptMacro sb sk block = decryptBlock sb sk block := by
  simp only [decryptMacro, decryptBlock, foldl_macroRoundInverse]
  rfl

/-- Settles O49: 8 macro-rounds are 16 rounds, in both directions. -/
theorem macroRoundFormIsTheCipher : Obligations.MacroRoundFormIsTheCipher :=
  fun sb sk => ⟨macroRound_eq_encRound sb sk, fun block =>
    ⟨encryptMacro_eq_encryptBlock sb sk block, decryptMacro_eq_decryptBlock sb sk block⟩⟩

/-! ### The blocks are independent (R203) -/

theorem exists_transformsBlock {d : Desc} (h : decode d = .ok .tfEnc ∨ decode d = .ok .tfDec) :
    ∃ i f, decode d = .ok i ∧ TransformsBlock i f := by
  obtain h | h := h
  · exact ⟨_, _, h, tfEnc_transformsBlock⟩
  · exact ⟨_, _, h, tfDec_transformsBlock⟩

/-- Blocks presented before the last leave nothing behind: the state is what the last one alone leaves. By
induction on them, since each step keeps the context and overwrites the output. -/
theorem TransformsBlock.runEvents_blocks {i : Instr} {f : DataPath} (h : TransformsBlock i f)
    {last : Command} (hd : decode last.desc = .ok i) (cs : List Command)
    (hcs : ∀ c ∈ cs, decode c.desc = .ok .tfEnc ∨ decode c.desc = .ok .tfDec) {s : State}
    (hin : s.input = (cs ++ [last]).map .command) (hf : s.flt.faulted = false) (hv : s.ctx.cvalid = true) :
    runEvents (cs.length + 1) s =
      .next ((s.accept last.payload []).putBlock (f s.ctx.sb s.ctx.sk last.payload.bytes)).dropPayload := by
  induction cs generalizing s with
  | nil => exact runEvents_succ_of_next (h.step_of_context hin hd hf hv)
  | cons c cs ih =>
    obtain ⟨j, g, hdc, hc⟩ := exists_transformsBlock (hcs c List.mem_cons_self)
    rw [List.length_cons, runEvents_succ_of_next (hc.step_of_context hin hdc hf hv)]
    exact ih (fun c' hc' => hcs c' (List.mem_cons_of_mem c hc')) rfl hf hv

/-- Settles O50, for each command that may come last. -/
theorem blocksAreIndependent : Obligations.BlocksAreIndependent := by
  intro s cs last dec hf hv hcs hd
  cases dec with
  | false => exact ⟨_, tfEnc_transformsBlock.runEvents_blocks hd cs hcs rfl hf hv, rfl, rfl,
      putBlock_toList (encryptBlock_length ..) s⟩
  | true => exact ⟨_, tfDec_transformsBlock.runEvents_blocks hd cs hcs rfl hf hv, rfl, rfl,
      putBlock_toList (decryptBlock_length ..) s⟩

end Sys2Proof.Machine

/-! PROOFS. The statements of 60_exceptions.md: the cause codes (R215), which cause a command raises (R216 to
R221, R224), fault entry (R222), and the faulted state (R225). -/

namespace Sys2Proof.Machine

/-! ### The causes (R215) -/

/-- Settles O20, by computing the six codes. -/
theorem causeCodes : Obligations.CauseCodes := rfl

theorem Cause.code_injective : Function.Injective Cause.code := by
  intro c c'
  cases c <;> cases c' <;> simp [Cause.code]

/-- Faults of one command are told apart by their causes. -/
theorem enterFault_inj {s : State} {c c' : Cause} {d : Desc} :
    s.enterFault c d = s.enterFault c' d ↔ c = c' := by
  refine ⟨fun h => Cause.code_injective ?_, congrArg (s.enterFault · d)⟩
  exact congrArg (·.flt.cause) h

/-! ### When a cause is raised (R216 to R221, R224) -/

/-- In a list of tests in priority order, the first test that holds is the one of least priority number among
those that hold. By induction on the list: the first test comes before all others. -/
theorem firstRaised_eq_some_iff {ts : List (Bool × Cause)} {c : Cause}
    (hts : ts.Pairwise fun x y => x.2.priority < y.2.priority) :
    firstRaised ts = some c ↔
      (true, c) ∈ ts ∧ ∀ c' : Cause, c'.priority < c.priority → (true, c') ∉ ts := by
  induction ts with
  | nil => simp
  | cons x ts ih =>
    obtain ⟨b, c₀⟩ := x
    obtain ⟨hlt, htail⟩ := List.pairwise_cons.1 hts
    cases b with
    | false => simpa using ih htail
    | true =>
      rw [firstRaised_true, Option.some.injEq]
      constructor
      · rintro rfl
        refine ⟨List.mem_cons_self, fun c' hc' hmem => ?_⟩
        obtain heq | hmem := List.mem_cons.1 hmem
        · cases heq; exact hc'.false
        · exact hc'.asymm (hlt _ hmem)
      · rintro ⟨hmem, hmin⟩
        obtain heq | hmem := List.mem_cons.1 hmem
        · cases heq; rfl
        · exact absurd List.mem_cons_self (hmin c₀ (hlt _ hmem))

/-- Every command makes its tests in the order of R224. -/
theorem testsOf_in_priority_order (i : Instr) (s : State) :
    (testsOf i s).Pairwise fun x y => x.2.priority < y.2.priority := by
  cases i <;> simp [testsOf, Cause.priority]

theorem encode_inj {i j : Instr} : encode i = encode j ↔ i = j := by
  refine ⟨fun h => ?_, congrArg encode⟩
  have hd : decode (encode j) = .ok i := h ▸ decode_encode i
  cases (decode_encode j).symm.trans hd
  rfl

/-- No command is illegal (R216). -/
theorem not_illegalCmd_condition (i : Instr) (s : State) : ¬ Cause.illegalCmd.condition (encode i) s := by
  intro h
  obtain ⟨r, hr⟩ := (illegal_iff_selects_none (encode i)).2 h
  rw [decode_encode] at hr
  cases hr

/-- The two descriptors that R218 speaks of are the commands of format B. -/
theorem noContext_condition_iff {i : Instr} {s : State} : Cause.noContext.condition (encode i) s ↔
    (i = .tfEnc ∨ i = .tfDec) ∧ s.ctx.cvalid = false := by
  rw [← encode_inj (j := .tfEnc), ← encode_inj (j := .tfDec)]
  exact Iff.rfl

/-- A command makes exactly the tests that R217 to R221 name for it: a cause has its condition if a test of
that cause is among the command's tests and holds. -/
theorem condition_iff_mem_testsOf (cause : Cause) (i : Instr) (s : State) :
    cause.condition (encode i) s ↔ (true, cause) ∈ testsOf i s := by
  cases cause with
  | illegalCmd =>
    refine iff_of_false (not_illegalCmd_condition i s) ?_
    cases i <;> simp [testsOf]
  | slotInvalid => cases i <;> simp [Cause.condition, Instr.opcode, testsOf]
  | noContext =>
    rw [noContext_condition_iff]
    cases i <;> simp [testsOf]
  | lenMisaligned =>
    cases i <;> simp [Cause.condition, Instr.opcode, Instr.payloadLen, testsOf, misaligned_eq_true]
  | limitExceeded =>
    cases i <;>
      simp [Cause.condition, Instr.opcode, Instr.payloadLen, testsOf, reachesLimit_eq_true, flushedBytes]
  | keySize =>
    cases i <;> simp [Cause.condition, Instr.opcode, Instr.payloadLen, testsOf, wrongKeySize_eq_true,
      Config.keyBytes128, Config.keyBytes192, Config.keyBytes256]

/-- A command faults with the cause that its tests raise and with no other. -/
theorem exec_eq_enterFault_iff {i : Instr} {s : State} {cause : Cause} (hw : s.payload.len = i.payloadLen)
    (hf : s.flt.faulted = false) :
    exec i s = .next (s.enterFault cause (encode i)) ↔ firstRaised (testsOf i s) = some cause := by
  cases ht : firstRaised (testsOf i s) with
  | some c => rw [exec_of_raised hw hf ht, Host.Outcome.next.injEq, enterFault_inj, Option.some.injEq]
  | none =>
    refine iff_of_false (fun h => ?_) (nomatch ·)
    obtain ⟨t, hex, hft⟩ := (exec_completes_iff hw hf).2 ht
    cases h.symm.trans hex
    nomatch hft

/-- An illegal descriptor has the condition of `ILLEGAL_CMD`, which comes before every other cause. -/
theorem eq_illegalCmd_iff_of_illegal {d : Desc} {r : DecodeReject} (hd : decode d = .error r) {s : State}
    {cause : Cause} : cause = .illegalCmd ↔ cause.condition d s ∧
      ∀ other : Cause, other.priority < cause.priority → ¬ other.condition d s := by
  have hill : Cause.illegalCmd.condition d s := (illegal_iff_selects_none d).1 ⟨r, hd⟩
  constructor
  · rintro rfl
    exact ⟨hill, fun other hlt => absurd hlt (by cases other <;> decide)⟩
  · rintro ⟨-, hmin⟩
    cases cause with
    | illegalCmd => rfl
    | _ => exact absurd hill (hmin .illegalCmd (by decide))

theorem runIllegal_of_faulted {d : Desc} {s : State} (hf : s.flt.faulted = true) :
    runIllegal d s = .next s := if_pos hf

theorem runIllegal_of_unfaulted {d : Desc} {s : State} (hf : s.flt.faulted = false) :
    runIllegal d s = .next (s.enterFault .illegalCmd d) := if_neg (Bool.eq_false_iff.1 hf)

theorem execDesc_of_decode {d : Desc} {i : Instr} (hd : decode d = .ok i) (s : State) :
    execDesc d s = exec i s := by simp only [execDesc, hd]

theorem execDesc_of_illegal {d : Desc} {r : DecodeReject} (hd : decode d = .error r) (s : State) :
    execDesc d s = runIllegal d s := by simp only [execDesc, hd]

/-- Settles O19: a legal command makes the tests that R217 to R221 name for it in the order of R224, and an
illegal one raises `ILLEGAL_CMD`. -/
theorem causesAreRaisedInPriorityOrder : Obligations.CausesAreRaisedInPriorityOrder := by
  intro c s hp
  cases hd : decode c.desc with
  | error r =>
    rw [execDesc_of_illegal hd]
    refine ⟨runIllegal_of_faulted, fun hf cause => ?_⟩
    rw [runIllegal_of_unfaulted hf, Host.Outcome.next.injEq, ← eq_illegalCmd_iff_of_illegal hd,
      eq_comm (a := cause)]
    exact enterFault_inj
  | ok i =>
    have hw : i.wellFormed s.payload = true := hp ▸ c.wellFormed_of_decode hd
    rw [execDesc_of_decode hd, ← encode_of_decode hd]
    refine ⟨fun hf => ?_, fun hf cause => ?_⟩
    · rw [exec_eq_runCommand, runCommand_of_faulted hw hf]
    · simp only [condition_iff_mem_testsOf]
      rw [← firstRaised_eq_some_iff (testsOf_in_priority_order i s)]
      exact exec_eq_enterFault_iff (wellFormed_iff.1 hw) hf

/-! ### Fault entry (R222) -/

/-- Settles O17, by what a step can do: only a command that raises a cause sets `FAULTED`. -/
theorem faultsChangeOnlyTheFaultRegisters : Obligations.FaultsChangeOnlyTheFaultRegisters := by
  intro s t h hs ht
  obtain ⟨-, rfl⟩ | ⟨rest, -, rfl⟩ | ⟨c, rest, hin, hc⟩ := step_cases h
  case inl => exact absurd (hs.symm.trans ht) Bool.false_ne_true
  case inr.inl => nomatch ht
  case inr.inr =>
    obtain ⟨hf, -⟩ | ⟨-, cause, rfl⟩ | ⟨-, i, -, -, rfl⟩ := commandEvent_next hc
    · exact absurd (hs.symm.trans hf) Bool.false_ne_true
    · obtain ⟨hpos, hle⟩ := cause.code_range
      exact ⟨c, rest, cause, hin, hpos, hle, rfl⟩
    · obtain ⟨hflt, -, -⟩ := effectOf_rest i c.payload.bytes (s.accept c.payload rest)
      rw [dropPayload_flt, hflt, accept_flt, hs] at ht
      cases ht

/-! ### The faulted state (R225) -/

/-- Refusing events, which takes them off the input and does nothing else; by induction on their number. -/
theorem runEvents_of_faulted (n : Nat) {s : State} (hf : s.flt.faulted = true) (hp : s.payload = .empty)
    (hin : ∀ e ∈ s.input.take n, e ≠ .reset) : runEvents n s = .next { s with input := s.input.drop n } := by
  induction n generalizing s with
  | zero => rfl
  | succ n ih =>
    cases hi : s.input with
    | nil =>
      rw [runEvents_succ_of_next (step_idle hi), ih hf hp (by simp [hi]), hi, List.drop_nil, List.drop_nil]
    | cons e rest =>
      rw [hi, List.take_succ_cons, List.forall_mem_cons] at hin
      obtain ⟨he, hrest⟩ := hin
      cases e with
      | reset => exact absurd rfl he
      | command c =>
        rw [runEvents_succ_of_next ((step_command hi).trans (commandEvent_of_faulted hf)), ← hp]
        exact ih hf hp hrest

/-- Settles O18: the refused events by the lemma above, and a reset event clears every flag. -/
theorem faultedCoreRefusesEveryCommand : Obligations.FaultedCoreRefusesEveryCommand :=
  ⟨fun n _ hf hp hin => runEvents_of_faulted n hf hp hin,
    fun _ _ _ hin => ⟨_, step_reset hin, rfl, rfl, rfl, rfl⟩⟩

end Sys2Proof.Machine

/-! PROOFS. The statements of 70_reset_and_hazards.md: the reset event (R250), what the host must do after one
(R252), and the order that the slots' lifecycles impose on their commands (R254). -/

namespace Sys2Proof.Machine

/-! ### The reset event (R250) -/

/-- A command on a faulted core does not clear `FAULTED` (R225). -/
theorem commandEvent_keeps_faulted {c : Command} {rest : List HostEvent} {s t : State}
    (hf : s.flt.faulted = true) (h : commandEvent c rest s = .next t) : t.flt.faulted = true := by
  cases (commandEvent_of_faulted hf).symm.trans h
  exact hf

/-- Settles O4, event by event. -/
theorem resetEventClearsFlagsAndFault : Obligations.ResetEventClearsFlagsAndFault :=
  ⟨fun _ _ hin => ⟨_, step_reset hin, rfl, rfl, rfl, rfl, rfl, rfl⟩,
    fun _ hin => step_idle hin,
    fun _ _ _ _ hin h hf => commandEvent_keeps_faulted hf (step_command hin ▸ h)⟩

/-! ### A reset followed by one command (R252) -/

/-- A command whose tests raise `cause` in every state that a reset leaves faults with it after a reset. -/
theorem runEvents_reset_raised {c : Command} {i : Instr} {cause : Cause} (s : State)
    (hd : decode c.desc = .ok i) (ht : ∀ u : State, firstRaised (testsOf i u.resetEvent) = some cause) :
    ∃ t, runEvents 2 { s with input := [.reset, .command c] } = .next t ∧
      t.flt = { faulted := true, cause := cause.code, fcmd := c.desc } := by
  rw [runEvents_succ_of_next (step_reset rfl), ← encode_of_decode hd]
  exact ⟨_, runEvents_succ_of_next ((step_command rfl).trans (commandEvent_of_raised hd rfl (ht _))), rfl⟩

/-- Settles O5: a reset leaves no live slot, no context and no fault, so the tests of the slots' commands and
of the block commands raise their cause and `SHA.HASH` completes. -/
theorem lifecyclesAfterResetEvent : Obligations.LifecyclesAfterResetEvent := by
  refine fun s c msg hlim => ⟨?_, fun hd => ?_, ?_⟩
  · rintro ⟨len, hd | hd | hd | hd⟩
    · exact runEvents_reset_raised s hd fun _ => shaUpdate_raises_slotInvalid rfl
    · exact runEvents_reset_raised s hd fun _ => shaFinish_raises_slotInvalid rfl
    · exact runEvents_reset_raised s hd fun _ => shabUpdate_raises_slotInvalid rfl
    · exact runEvents_reset_raised s hd fun _ => shabFinish_raises_slotInvalid rfl
  · obtain ⟨i, f, hd, h⟩ := exists_transformsBlock hd
    exact runEvents_reset_raised s hd fun _ => h.raises_noContext rfl
  · rw [runEvents_succ_of_next (step_reset rfl)]
    obtain ⟨t, ht, hash⟩ := step_shaHash (s := ({ s with input := _ } : State).resetEvent) rfl rfl hlim
    exact ⟨t, runEvents_succ_of_next ht, hash⟩

/-! ### A slot without a live accumulator (R254, R217) -/

section DeadSlot

variable {s : State} (hf : s.flt.faulted = false)

include hf

theorem exec_of_dead_raw (hv : s.raw.rvalid = false) :
    ∀ i ∈ [Instr.shaUpdate s.payload.len, .shaFinish s.payload.len],
      exec i s = .next (s.enterFault .slotInvalid (encode i)) :=
  List.forall_mem_cons.2 ⟨exec_of_raised rfl hf (shaUpdate_raises_slotInvalid hv),
    List.forall_mem_singleton.2 (exec_of_raised rfl hf (shaFinish_raises_slotInvalid hv))⟩

theorem exec_of_dead_buf (hv : s.buf.bvalid = false) :
    ∀ i ∈ [Instr.shabUpdate s.payload.len, .shabFinish s.payload.len],
      exec i s = .next (s.enterFault .slotInvalid (encode i)) :=
  List.forall_mem_cons.2 ⟨exec_of_raised rfl hf (shabUpdate_raises_slotInvalid hv),
    List.forall_mem_singleton.2 (exec_of_raised rfl hf (shabFinish_raises_slotInvalid hv))⟩

end DeadSlot

/-- Settles O39: a FINISH that completes leaves its slot without a live accumulator, and an INIT makes no
test. -/
theorem finishConsumesTheSlot : Obligations.FinishConsumesTheSlot := by
  refine fun s t len p _ hft => ⟨fun h => ?_, fun h => ?_⟩
  · have hv : t.raw.rvalid = false := by rw [(exec_completes h hft).2]; rfl
    obtain ⟨-, hinit⟩ := shaInitCreatesAnEmptyAccumulator
    exact ⟨exec_of_dead_raw (s := { t with payload := p }) hft hv, _, hinit _ hft rfl, rfl⟩
  · have hv : t.buf.bvalid = false := by rw [(exec_completes h hft).2]; rfl
    obtain ⟨-, hinit⟩ := shabInitCreatesAnEmptyAccumulator
    exact ⟨exec_of_dead_buf (s := { t with payload := p }) hft hv, _, hinit _ hft rfl, rfl⟩

end Sys2Proof.Machine
